-- ==== Sys2Proof/Word.lean ====
section
/-! DEFINITION. The widths of the words the spec names, and the small glossary types (rule R13) that the syntax of a
command and the state of the block both use. -/

namespace Sys2Proof

/-- A port transfer, a header, an operand, a result or a register: 32 bits (R9, D2). -/
abbrev Word := BitVec 32

/-- The calculator's working format, an IEEE 754 binary64 encoding (R7, R10). -/
abbrev Double := BitVec 64

/-- One byte of a host link (R38). -/
abbrev Byte := BitVec 8

/-- A header field `S` or `A` (R53). -/
abbrev Nibble := BitVec 4

/-- A header field `N` (R53). -/
abbrev Half := BitVec 16

/-- The two command ports (R32). -/
inductive Port where
  | ctrl
  | audio
  deriving DecidableEq, Repr, Inhabited

/-- The two channels, 0 = left and 1 = right (R7, R55). -/
inductive Channel where
  | left
  | right
  deriving DecidableEq, Repr

/-- The two kinds of cut, 0 = high-pass and 1 = low-pass (R55, R73). -/
inductive Kind where
  | hp
  | lp
  deriving DecidableEq, Repr

/-- The two cut cascades, select 0 = low cut and 1 = high cut (R27, R55). -/
inductive Cascade where
  | lc
  | hc
  deriving DecidableEq, Repr

/-- One of the nine stage slots of a channel (R7, R27). -/
abbrev Slot := Fin 9

/-- A CoefficientSet: five binary32 encodings, a0 normalised to 1 (R13, R26). -/
structure Coef where
  b0 : Word
  b1 : Word
  b2 : Word
  a1 : Word
  a2 : Word
  deriving DecidableEq, Repr

/-- A ParameterSet: five binary32 encodings and two slope codes, in operand order (R13, R20). -/
structure Params where
  peakFreq : Word
  peakGain : Word
  peakQ : Word
  lcFreq : Word
  hcFreq : Word
  lcSlope : Word
  hcSlope : Word
  deriving DecidableEq, Repr

end Sys2Proof
end

