-- ==== Sys2Proof/Config.lean ====
section
/-! DEFINITION. What the spec leaves open: the calculator's `TRANSC` record (R7, R8, R67) and which of two ready ports
runs first (R43, U6 of 93_implementation_defined.md). Both are constants with no body, so no proof can learn a value of
them. -/

namespace Sys2Proof

/-- The record `TRANSC = (sin, cos, tan, exp10)` of four total functions over binary64 encodings (R67). -/
structure Transc where
  sin : Double → Double
  cos : Double → Double
  tan : Double → Double
  exp10 : Double → Double

/-- Property 2 of R67: `exp10(+0.0) = exp10(-0.0) = 1.0`. Property 1, determinism, is being a function. -/
def Transc.Exp10Unit (T : Transc) : Prop :=
  T.exp10 0x0000000000000000#64 = 0x3FF0000000000000#64 ∧ T.exp10 0x8000000000000000#64 = 0x3FF0000000000000#64

/-- The open `sin` of `TRANSC` (R67; log entry 1). -/
opaque Config.sin : Double → Double

/-- The open `cos` of `TRANSC` (R67; log entry 1). -/
opaque Config.cos : Double → Double

/-- The open `tan` of `TRANSC` (R67; log entry 1). -/
opaque Config.tan : Double → Double

/-- The open `exp10` of `TRANSC` away from the two zeros (R67; log entry 1). -/
opaque Config.exp10Open : Double → Double

/-- `exp10` of `TRANSC`: 1.0 at both zeros, as R67 requires, and open elsewhere. -/
def Config.exp10 (x : Double) : Double :=
  if x = 0x0000000000000000#64 ∨ x = 0x8000000000000000#64 then 0x3FF0000000000000#64 else Config.exp10Open x

/-- The machine's `TRANSC` (R7, R8). -/
def Config.transc : Transc :=
  { sin := Config.sin, cos := Config.cos, tan := Config.tan, exp10 := Config.exp10 }

/-- The port that wins the k-th free choice between two ready ports: any interleaving is allowed (R43; log entry 2). -/
opaque Config.firstPort : Nat → Port

/-- How many more times in a row the port that lost the k-th free choice may be passed over before it runs: any number,
but a finite one, so that the scheduling is weakly fair (R43, R44; log entry 2). -/
opaque Config.patience : Nat → Nat

end Sys2Proof
end

