-- ==== Sys2Proof/Syntax.lean ====
section
/-! DEFINITION. The commands: one constructor per row of opcode_table.json (R57), with its header fields and its operand
words in operand order. Header fields keep their raw width, because an illegal value is a command that fails with the
code of R116, not a word that is no command. The port is not part of a command (R62). -/

namespace Sys2Proof

/-- A command packet whose header is legal (R57). -/
inductive Instr where
  /-- 0x00 (R109). -/
  | nop
  /-- 0x01, `N` = register index (R110). -/
  | rdReg (n : Half)
  /-- 0x02 (R111). -/
  | clrErr
  /-- 0x10, operands freq, Q, gainDb, sampleRate (R79). -/
  | calcPeak (freq q gainDb fs : Word)
  /-- 0x11, `A` = kind, operands cutoffFreq, sampleRate, order (R80). -/
  | calcCut (kd : Nibble) (fc fs order : Word)
  /-- 0x20, `S` = slot, operands b0, b1, b2, a1, a2 (R89). -/
  | stageSetCoeffs (sl : Nibble) (c : Coef)
  /-- 0x21, `S` = slot, `A` = bypass value (R90). -/
  | stageSetBypass (sl b : Nibble)
  /-- 0x22, `S` = slot, `A` = channel, operand the sample (R91). -/
  | stageProcess (sl ch : Nibble) (x : Word)
  /-- 0x23, `S` = slot, `A` = channel mask (R92). -/
  | stageReset (sl cm : Nibble)
  /-- 0x30, `S` = cascade, `A` = slope code, operands bank[0..3] (R97). -/
  | cascadeConfigure (c sc : Nibble) (k0 k1 k2 k3 : Coef)
  /-- 0x31, `S` = cascade, `A` = channel, operand the sample (R98). -/
  | cascadeProcess (c ch : Nibble) (x : Word)
  /-- 0x40, `A` = channel, operand the sample (R102). -/
  | chainProcess (ch : Nibble) (x : Word)
  /-- 0x41, `A` = channel mask (R103). -/
  | chainReset (cm : Nibble)
  /-- 0x50, operands sampleRate, maxBlockSize (R104). -/
  | prepare (fs mb : Word)
  /-- 0x51, operands L[0], R[0], L[1], R[1], ...; `N` is the number of frames (R105). -/
  | processBlock (frames : List (Word × Word))
  /-- 0x52, operands the ParameterSet (R108). -/
  | updateParams (ps : Params)
  deriving DecidableEq, Repr

/-- `BYPASS s` expands to `STAGE_SET_BYPASS s, 1` (R64). -/
def Instr.bypass (sl : Nibble) : Instr := .stageSetBypass sl 1#4

/-- `ENABLE s` expands to `STAGE_SET_BYPASS s, 0` (R64). -/
def Instr.enable (sl : Nibble) : Instr := .stageSetBypass sl 0#4

/-- `RESET_ALL` expands to `CHAIN_RESET LR` (R64). -/
def Instr.resetAll : Instr := .chainReset 3#4

/-- The CoefficientSet of five zero words that fills a missing set (R64). -/
def Coef.zeroWords : Coef := { b0 := 0, b1 := 0, b2 := 0, a1 := 0, a2 := 0 }

/-- `CASCADE_CONFIGURE c, slope, sets...` with the missing sets filled with zero words (R64). -/
def Instr.cascadeConfigureFill (c sc : Nibble) (sets : List Coef) : Instr :=
  .cascadeConfigure c sc (sets.getD 0 Coef.zeroWords) (sets.getD 1 Coef.zeroWords) (sets.getD 2 Coef.zeroWords)
    (sets.getD 3 Coef.zeroWords)

end Sys2Proof
end

