-- ==== Sys2Proof/WellFormed.lean ====
section
/-! DEFINITION. Which terms of `Instr` are command packets: the frame count of `PROCESS_BLOCK` fits the 16-bit header
field `N` (R53, R62). Every other constructor's fields have exactly their encoded widths. -/

namespace Sys2Proof

/-- The largest frame count the header can hold, `N_MAX` (R7). -/
def nMax : Nat := 65535

/-- The term has an encoding. -/
def Instr.wellFormed : Instr → Bool
  | .processBlock frames => decide (frames.length ≤ nMax)
  | _ => true

end Sys2Proof
end

