-- ==== Sys2Proof/Decode.lean ====
section
/-! DEFINITION. The command encoding (R53 to R62): header fields, header formats, the opcode map, packet length, the
decoder, total on every list of words, and after it the encoder written from the same tables. -/

namespace Sys2Proof

/-- The sixteen assigned opcodes (R57). -/
inductive Op where
  | nop
  | rdReg
  | clrErr
  | calcPeak
  | calcCut
  | stageSetCoeffs
  | stageSetBypass
  | stageProcess
  | stageReset
  | cascadeConfigure
  | cascadeProcess
  | chainProcess
  | chainReset
  | prepare
  | processBlock
  | updateParams
  deriving DecidableEq, Repr

/-- The five header formats (R54). -/
inductive HeaderFormat where
  | f0
  | fn
  | fs
  | fsa
  | fa
  deriving DecidableEq, Repr

/-- The mask of fixed bits (R54). -/
def HeaderFormat.mask : HeaderFormat → Word
  | .f0 => 0xFFFFFFFF#32
  | .fn => 0xFFFF0000#32
  | .fs => 0xFF0FFFFF#32
  | .fsa => 0xFF00FFFF#32
  | .fa => 0xFFF0FFFF#32

/-- The opcode value (R57). -/
def Op.code : Op → Byte
  | .nop => 0x00#8
  | .rdReg => 0x01#8
  | .clrErr => 0x02#8
  | .calcPeak => 0x10#8
  | .calcCut => 0x11#8
  | .stageSetCoeffs => 0x20#8
  | .stageSetBypass => 0x21#8
  | .stageProcess => 0x22#8
  | .stageReset => 0x23#8
  | .cascadeConfigure => 0x30#8
  | .cascadeProcess => 0x31#8
  | .chainProcess => 0x40#8
  | .chainReset => 0x41#8
  | .prepare => 0x50#8
  | .processBlock => 0x51#8
  | .updateParams => 0x52#8

/-- The header format (R57). -/
def Op.format : Op → HeaderFormat
  | .nop | .clrErr | .calcPeak | .prepare | .updateParams => .f0
  | .rdReg | .processBlock => .fn
  | .stageSetCoeffs => .fs
  | .stageSetBypass | .stageProcess | .stageReset | .cascadeConfigure | .cascadeProcess => .fsa
  | .calcCut | .chainProcess | .chainReset => .fa

/-- May the command be issued on the port? (R57, R125) -/
def Op.allows : Op → Port → Bool
  | .nop, _ | .rdReg, _ | .clrErr, _ | .calcPeak, _ | .calcCut, _ => true
  | .stageSetCoeffs, p | .stageSetBypass, p | .cascadeConfigure, p | .updateParams, p => decide (p = .ctrl)
  | .stageProcess, p | .stageReset, p | .cascadeProcess, p | .chainProcess, p | .chainReset, p | .prepare, p
  | .processBlock, p => decide (p = .audio)

/-- The number of operand words, `n` being the header's `N` field (R57, R58). -/
def Op.operandCount (n : Nat) : Op → Nat
  | .calcPeak => 4
  | .calcCut => 3
  | .stageSetCoeffs => 5
  | .stageProcess | .cascadeProcess | .chainProcess => 1
  | .cascadeConfigure => 20
  | .prepare => 2
  | .processBlock => 2 * n
  | .updateParams => 7
  | .nop | .rdReg | .clrErr | .stageSetBypass | .stageReset | .chainReset => 0

/-- All assigned opcodes, in the order of R57. -/
def Op.all : List Op :=
  [.nop, .rdReg, .clrErr, .calcPeak, .calcCut, .stageSetCoeffs, .stageSetBypass, .stageProcess, .stageReset,
    .cascadeConfigure, .cascadeProcess, .chainProcess, .chainReset, .prepare, .processBlock, .updateParams]

/-- The opcode a byte is, or none where it is unassigned (R57, R59). -/
def Op.ofCode (b : Byte) : Option Op := Op.all.find? (fun o => o.code == b)

/-- The opcode of a command. -/
def Instr.op : Instr → Op
  | .nop => .nop
  | .rdReg _ => .rdReg
  | .clrErr => .clrErr
  | .calcPeak _ _ _ _ => .calcPeak
  | .calcCut _ _ _ _ => .calcCut
  | .stageSetCoeffs _ _ => .stageSetCoeffs
  | .stageSetBypass _ _ => .stageSetBypass
  | .stageProcess _ _ _ => .stageProcess
  | .stageReset _ _ => .stageReset
  | .cascadeConfigure _ _ _ _ _ _ => .cascadeConfigure
  | .cascadeProcess _ _ _ => .cascadeProcess
  | .chainProcess _ _ => .chainProcess
  | .chainReset _ => .chainReset
  | .prepare _ _ => .prepare
  | .processBlock _ => .processBlock
  | .updateParams _ => .updateParams

/-- Header bits 31:24 (R53). -/
def hdrOpc (h : Word) : Byte := h.extractLsb' 24 8

/-- Header bits 23:20 (R53). -/
def hdrS (h : Word) : Nibble := h.extractLsb' 20 4

/-- Header bits 19:16 (R53). -/
def hdrA (h : Word) : Nibble := h.extractLsb' 16 4

/-- Header bits 15:0 (R53). -/
def hdrN (h : Word) : Half := h.extractLsb' 0 16

/-- The header with the given fields (R53). -/
def mkHeader (opc : Byte) (s a : Nibble) (n : Half) : Word := opc ++ s ++ a ++ n

/-- The number of operand words a header announces; an unassigned opcode announces none (R58). -/
def operandWords (h : Word) : Nat :=
  match Op.ofCode (hdrOpc h) with
  | none => 0
  | some op => op.operandCount (hdrN h).toNat

/-- `h & mask = match`, with `match` = `OPC << 24` (R54). -/
def headerMatches (op : Op) (h : Word) : Bool := h &&& op.format.mask == mkHeader op.code 0#4 0#4 0#16

/-- The operand words of `PROCESS_BLOCK`, taken in pairs L[i], R[i] (R105). -/
def takeFrames : Nat → List Word → List (Word × Word)
  | n + 1, l :: r :: ws => (l, r) :: takeFrames n ws
  | _, _ => []

/-- The CoefficientSet in the five operand words from index `k` on (R57). -/
def coefAt (ws : List Word) (k : Nat) : Coef :=
  { b0 := ws.getD k 0, b1 := ws.getD (k + 1) 0, b2 := ws.getD (k + 2) 0, a1 := ws.getD (k + 3) 0,
    a2 := ws.getD (k + 4) 0 }

/-- The ParameterSet in the first seven operand words (R57). -/
def paramsAt (ws : List Word) : Params :=
  { peakFreq := ws.getD 0 0, peakGain := ws.getD 1 0, peakQ := ws.getD 2 0, lcFreq := ws.getD 3 0,
    hcFreq := ws.getD 4 0, lcSlope := ws.getD 5 0, hcSlope := ws.getD 6 0 }

/-- The command with opcode `op`, header `h` and operand words `ws` (R57). -/
def buildInstr (op : Op) (h : Word) (ws : List Word) : Instr :=
  match op with
  | .nop => .nop
  | .rdReg => .rdReg (hdrN h)
  | .clrErr => .clrErr
  | .calcPeak => .calcPeak (ws.getD 0 0) (ws.getD 1 0) (ws.getD 2 0) (ws.getD 3 0)
  | .calcCut => .calcCut (hdrA h) (ws.getD 0 0) (ws.getD 1 0) (ws.getD 2 0)
  | .stageSetCoeffs => .stageSetCoeffs (hdrS h) (coefAt ws 0)
  | .stageSetBypass => .stageSetBypass (hdrS h) (hdrA h)
  | .stageProcess => .stageProcess (hdrS h) (hdrA h) (ws.getD 0 0)
  | .stageReset => .stageReset (hdrS h) (hdrA h)
  | .cascadeConfigure =>
    .cascadeConfigure (hdrS h) (hdrA h) (coefAt ws 0) (coefAt ws 5) (coefAt ws 10) (coefAt ws 15)
  | .cascadeProcess => .cascadeProcess (hdrS h) (hdrA h) (ws.getD 0 0)
  | .chainProcess => .chainProcess (hdrA h) (ws.getD 0 0)
  | .chainReset => .chainReset (hdrA h)
  | .prepare => .prepare (ws.getD 0 0) (ws.getD 1 0)
  | .processBlock => .processBlock (takeFrames (hdrN h).toNat ws)
  | .updateParams => .updateParams (paramsAt ws)

/-- What the words waiting on a port begin with: a command and the words after it, a packet that has not arrived whole
(R33), an unassigned opcode, which takes one word (R59), or an assigned opcode with a nonzero bit in a field its format
does not use, which takes its whole packet (R60). -/
inductive Decoded where
  | incomplete
  | instr (i : Instr) (rest : List Word)
  | illegalOpcode (opc : Byte) (rest : List Word)
  | illegalFormat (opc : Byte) (rest : List Word)
  deriving DecidableEq, Repr

/-- Read the first packet of a stream of words (R33, R58, R59, R60). No state takes part (R62). -/
def decode : List Word → Decoded
  | [] => .incomplete
  | h :: ws =>
    if ws.length < operandWords h then .incomplete
    else
      match Op.ofCode (hdrOpc h) with
      | none => .illegalOpcode (hdrOpc h) (ws.drop (operandWords h))
      | some op =>
        if headerMatches op h then .instr (buildInstr op h ws) (ws.drop (operandWords h))
        else .illegalFormat (hdrOpc h) (ws.drop (operandWords h))

/-- A word from the four bytes of a host link, least significant byte first (R38). -/
def wordOfBytes (b0 b1 b2 b3 : Byte) : Word := b3 ++ b2 ++ b1 ++ b0

/-- The four bytes of a word on a host link, least significant byte first (R38). -/
def bytesOfWord (w : Word) : List Byte :=
  [w.extractLsb' 0 8, w.extractLsb' 8 8, w.extractLsb' 16 8, w.extractLsb' 24 8]

/-- The whole words in the bytes of a host link (R38); a last word that has not arrived whole is no word. -/
def wordsOfBytes : List Byte → List Word
  | b0 :: b1 :: b2 :: b3 :: bs => wordOfBytes b0 b1 b2 b3 :: wordsOfBytes bs
  | _ => []

/-- Decoding from a host link's bytes (R38). -/
def decodeBytes (bs : List Byte) : Decoded := decode (wordsOfBytes bs)

/-- The five words of a CoefficientSet, in operand order (R57). -/
def Coef.words (c : Coef) : List Word := [c.b0, c.b1, c.b2, c.a1, c.a2]

/-- The seven words of a ParameterSet, in operand order (R57). -/
def Params.words (ps : Params) : List Word :=
  [ps.peakFreq, ps.peakGain, ps.peakQ, ps.lcFreq, ps.hcFreq, ps.lcSlope, ps.hcSlope]

/-- The operand words of the frames, L before R (R105). -/
def frameWords : List (Word × Word) → List Word
  | [] => []
  | (l, r) :: fs => l :: r :: frameWords fs

/-- The command packet of a command: header word, then operand words (R33, R53, R57). -/
def encode : Instr → List Word
  | .nop => [mkHeader 0x00#8 0 0 0]
  | .rdReg n => [mkHeader 0x01#8 0 0 n]
  | .clrErr => [mkHeader 0x02#8 0 0 0]
  | .calcPeak freq q gainDb fs => [mkHeader 0x10#8 0 0 0, freq, q, gainDb, fs]
  | .calcCut kd fc fs order => [mkHeader 0x11#8 0 kd 0, fc, fs, order]
  | .stageSetCoeffs sl c => mkHeader 0x20#8 sl 0 0 :: c.words
  | .stageSetBypass sl b => [mkHeader 0x21#8 sl b 0]
  | .stageProcess sl ch x => [mkHeader 0x22#8 sl ch 0, x]
  | .stageReset sl cm => [mkHeader 0x23#8 sl cm 0]
  | .cascadeConfigure c sc k0 k1 k2 k3 => mkHeader 0x30#8 c sc 0 :: (k0.words ++ k1.words ++ k2.words ++ k3.words)
  | .cascadeProcess c ch x => [mkHeader 0x31#8 c ch 0, x]
  | .chainProcess ch x => [mkHeader 0x40#8 0 ch 0, x]
  | .chainReset cm => [mkHeader 0x41#8 0 cm 0]
  | .prepare fs mb => [mkHeader 0x50#8 0 0 0, fs, mb]
  | .processBlock frames => mkHeader 0x51#8 0 0 (BitVec.ofNat 16 frames.length) :: frameWords frames
  | .updateParams ps => mkHeader 0x52#8 0 0 0 :: ps.words

/-- The first `k` 32-bit words of a number whose bit 0 is bit 0 of the first word. -/
def wordsOfNat : Nat → Nat → List Word
  | 0, _ => []
  | k + 1, v => BitVec.ofNat 32 v :: wordsOfNat k (v / 2 ^ 32)

/-- The whole packet of an instruction whose first `nbits` bits are `w` and whose further bits are zero. -/
def packetOfBits (nbits w : Nat) : List Word :=
  wordsOfNat (1 + operandWords (BitVec.ofNat 32 (w % 2 ^ nbits))) (w % 2 ^ nbits)

/-- The command this decoder reads from an instruction whose bits are `w`, numbered as opcode_table.json numbers them. -/
def decodeTableWord (nbits w : Nat) : Option Instr :=
  match decode (packetOfBits nbits w) with
  | .instr i _ => some i
  | _ => none

/-- A port on which the opcode in a header may be issued, CTRL where both may (R57). -/
def homePort (h : Word) : Port :=
  match Op.ofCode (hdrOpc h) with
  | none => .ctrl
  | some op => if op.allows .ctrl then .ctrl else .audio

end Sys2Proof
end

