-- ==== Sys2Proof/Machine/State.lean ====
section
/-! DEFINITION. Everything the spec gives the block to hold (R16, R31, R131), as plain data, and its value right after
reset. `port` and `turn` are the model's own: the port whose command the current step runs, which R110, R111 and R119
consult, and where the scheduling of two ready ports stands. -/

namespace Sys2Proof.Machine

/-- One slot of an image: a CoefficientSet and a bypass bit, true = bypassed (R26). -/
structure Entry where
  coef : Coef
  byp : Bool
  deriving DecidableEq, Repr

/-- An image: nine slot entries (R26). -/
abbrev Image := Vector Entry 9

/-- The history of one slot on one channel: two previous inputs and two previous recursion outputs (R29). -/
structure Hist where
  x1 : Word
  x2 : Word
  y1 : Word
  y2 : Word
  deriving DecidableEq, Repr

/-- The histories of one channel's nine slots (R29). -/
abbrev ChanHist := Vector Hist 9

/-- The buffers of one port: the words received and not yet consumed, oldest first, which hold the packet being received
(R33), and the unread words of the last response (R34). -/
structure PortIO where
  rx : List Word
  resp : List Word
  deriving DecidableEq, Repr

/-- Where the scheduling stands: the port that was ready and has been passed over since, if there is one, with how many
more times it may be, and how many free choices there have been (log entry 2). -/
structure Turn where
  waiting : Option (Port × Nat)
  draws : Nat
  deriving DecidableEq, Repr

/-- The state of the block (R16). -/
structure State where
  /-- `PARAM` (R20). -/
  param : Params
  /-- `FS` (R21). -/
  fs : Word
  /-- `MAXBLK` (R21). -/
  maxBlk : Word
  /-- `PREPARED` (R19). -/
  prepared : Bool
  /-- `ERR_CTRL` (R24). -/
  errCtrl : Word
  /-- `ERR_AUDIO` (R24). -/
  errAudio : Word
  /-- `PUB`, the published image (R26). -/
  pub : Image
  /-- `GEN_PUB` (R25). -/
  genPub : Word
  /-- `ACT`, the active image (R26). -/
  act : Image
  /-- `GEN_ACT` (R25). -/
  genAct : Word
  /-- `HIST[0]`, the left channel (R29). -/
  histL : ChanHist
  /-- `HIST[1]`, the right channel (R29). -/
  histR : ChanHist
  /-- The CTRL port's packet and response buffers (R31, R33, R34). -/
  ctrl : PortIO
  /-- The AUDIO port's packet and response buffers (R31, R33, R34). -/
  audio : PortIO
  /-- The reset input: the host asks for a reset, which the next step carries out (R131). -/
  resetIn : Bool
  /-- The model's own: the port whose command the current step runs (R62, R115; log entry 3). -/
  port : Port
  /-- The model's own: where the scheduling of two ready ports stands (R43, R44; log entry 2). -/
  turn : Turn
  deriving DecidableEq, Repr

/-- Reasons to stop with a fault. There are none: no condition of the spec stops the block (R121; 93_implementation_defined.md,
"No behaviour in this spec is treated as `any value`, `fault` or `refuse`"). -/
inductive Fault where
  deriving DecidableEq, Repr

/-- Reasons to give an instruction no meaning. -/
inductive Refusal where
  /-- Raised by `exec`'s arm for an instruction that has no meaning yet; safe, since the machine stops. No arm raises it. -/
  | notModelled (mnemonic : String)
  deriving DecidableEq, Repr

/-- The reset CoefficientSet (1.0, 0, 0, 0, 0), which passes the input through (R28). -/
def identityCoef : Coef := { b0 := 0x3F800000#32, b1 := 0, b2 := 0, a1 := 0, a2 := 0 }

/-- The reset image: the identity set everywhere, slots 0, 4 and 5 not bypassed (R28). -/
def resetImage : Image :=
  #v[⟨identityCoef, false⟩, ⟨identityCoef, true⟩, ⟨identityCoef, true⟩, ⟨identityCoef, true⟩,
    ⟨identityCoef, false⟩, ⟨identityCoef, false⟩, ⟨identityCoef, true⟩, ⟨identityCoef, true⟩,
    ⟨identityCoef, true⟩]

/-- A history of four +0.0 (R29). -/
def zeroHist : Hist := { x1 := 0, x2 := 0, y1 := 0, y2 := 0 }

/-- Nine zero histories (R29). -/
def zeroChan : ChanHist :=
  #v[zeroHist, zeroHist, zeroHist, zeroHist, zeroHist, zeroHist, zeroHist, zeroHist, zeroHist]

/-- The reset defaults of `PARAM` (R20). -/
def resetParams : Params :=
  { peakFreq := 0x443B8000#32, peakGain := 0x00000000#32, peakQ := 0x3F800000#32, lcFreq := 0x41A00000#32,
    hcFreq := 0x469C4000#32, lcSlope := 0#32, hcSlope := 0#32 }

/-- The block right after reset (R131). -/
def State.reset : State :=
  { param := resetParams, fs := 0, maxBlk := 0, prepared := false, errCtrl := 0, errAudio := 0, pub := resetImage,
    genPub := 0, act := resetImage, genAct := 0, histL := zeroChan, histR := zeroChan,
    ctrl := { rx := [], resp := [] }, audio := { rx := [], resp := [] }, resetIn := false, port := .ctrl,
    turn := { waiting := none, draws := 0 } }

end Sys2Proof.Machine
end

