-- ==== Sys2Proof/Machine/Flags.lean ====
section
/-! DEFINITION. The status codes, the status word and the sticky error registers (R24, R56, R116, R120). The block keeps
no condition code and no IEEE flag (R19); `PREPARED` is a field of State. -/

namespace Sys2Proof.Machine

/-- The status codes (R116). -/
inductive Status where
  | ok
  | illegalOpcode
  | illegalFormat
  | wrongPort
  | badSlot
  | badOperand
  | domain
  | notPrepared
  | blockTooLarge
  | badRegister
  | coefKept
  deriving DecidableEq, Repr

/-- The value of `CODE` (R116). -/
def statusCode : Status → Byte
  | .ok => 0x00#8
  | .illegalOpcode => 0x01#8
  | .illegalFormat => 0x02#8
  | .wrongPort => 0x03#8
  | .badSlot => 0x04#8
  | .badOperand => 0x05#8
  | .domain => 0x06#8
  | .notPrepared => 0x07#8
  | .blockTooLarge => 0x08#8
  | .badRegister => 0x09#8
  | .coefKept => 0x0A#8

/-- `{16'0, OPC, CODE}`: the layout of a status word and of a sticky error register (R24, R56, R120). -/
def statusWord (opc : Byte) (c : Status) : Word := 0#16 ++ opc ++ statusCode c

/-- The `CODE` field, bits 7:0, of a sticky error register (R24). -/
def errCode (w : Word) : Byte := w.extractLsb' 0 8

/-- The sticky error register of a port (R24). -/
def State.err (s : State) : Port → Word
  | .ctrl => s.errCtrl
  | .audio => s.errAudio

/-- Write the sticky error register of a port. -/
def State.setErr (s : State) (p : Port) (w : Word) : State :=
  match p with
  | .ctrl => { s with errCtrl := w }
  | .audio => { s with errAudio := w }

/-- Record how a command on the current port ended: a code other than `OK` is written to the port's sticky register if
that register's `CODE` is 0, else the register keeps its first failure (R120). -/
def State.recordErr (s : State) (opc : Byte) (c : Status) : State :=
  if c ≠ .ok ∧ errCode (s.err s.port) = 0 then s.setErr s.port (statusWord opc c) else s

end Sys2Proof.Machine
end

