-- ==== Sys2Proof/Machine/Float.lean ====
section
/-! DEFINITION. IEEE 754 binary32 and binary64 arithmetic (R10, R66, R85). Every finite value of a format is a whole
number of units, the unit being the format's smallest subnormal. Each operation computes its exact result in units, a
ratio of two natural numbers and a sign, and rounds once, to nearest with ties to even. There is no fused operation and
no exception flag. -/

namespace Sys2Proof.Machine

/-- A binary interchange format: `frac` fraction bits, exponent fields up to `emax` (which codes infinities and NaNs),
`scale` units in 1.0, and `signBit` the weight of the sign bit. -/
structure Format where
  frac : Nat
  emax : Nat
  scale : Nat
  signBit : Nat
  deriving DecidableEq, Repr

/-- Binary32: sign 31, exponent 30:23, fraction 22:0; its smallest subnormal is 2 to the power -149 (R10). -/
def binary32 : Format := { frac := 23, emax := 255, scale := 2 ^ 149, signBit := 2 ^ 31 }

/-- Binary64, whose smallest subnormal is 2 to the power -1074 (R7, R10). -/
def binary64 : Format := { frac := 52, emax := 2047, scale := (2 ^ 179) ^ 6, signBit := 2 ^ 63 }

/-- A decoded encoding: NaN, an infinity, or a sign with a number of units. -/
inductive FVal where
  | nan
  | inf (neg : Bool)
  | fin (neg : Bool) (units : Nat)
  deriving DecidableEq, Repr

/-- The magnitude field (exponent and fraction) of an infinity. -/
def Format.infMag (f : Format) : Nat := f.emax * 2 ^ f.frac

/-- The quiet NaN with a clear sign and a zero payload; `QNAN32` in binary32 (R10, R84). -/
def Format.qnan (f : Format) : Nat := f.infMag + 2 ^ (f.frac - 1)

/-- The units a finite magnitude field stands for: the field itself in the subnormal range, else the fraction with its
hidden bit, scaled by the exponent field less one. -/
def Format.unitsOf (f : Format) (mag : Nat) : Nat :=
  if mag / 2 ^ f.frac = 0 then mag else (2 ^ f.frac + mag % 2 ^ f.frac) * 2 ^ (mag / 2 ^ f.frac - 1)

/-- Read an encoding. -/
def Format.unpack (f : Format) (w : Nat) : FVal :=
  let neg := decide (f.signBit ≤ w)
  let mag := w % f.signBit
  if mag < f.infMag then .fin neg (f.unitsOf mag) else if mag = f.infMag then .inf neg else .nan

/-- Put a sign on a magnitude field. -/
def Format.pack (f : Format) (neg : Bool) (mag : Nat) : Nat := (if neg then f.signBit else 0) + mag

/-- The magnitude field of `num / den` units, rounded to nearest with ties to even (R10). `e` is how many binades the
value lies above the first normal one, so that the result has `frac + 1` significant bits, or fewer in the subnormal
range. A carry out of the significand moves into the exponent field by itself, and a value at or above the overflow
threshold becomes the infinity. -/
def Format.roundMag (f : Format) (num den : Nat) : Nat :=
  let e := (num / den).log2 - f.frac
  let d := den * 2 ^ e
  let q := num / d
  let r := num % d
  let up := if d < 2 * r ∨ (2 * r = d ∧ q % 2 = 1) then 1 else 0
  min (e * 2 ^ f.frac + q + up) f.infMag

/-- The signed whole number of units. -/
def signedUnits (neg : Bool) (u : Nat) : Int := if neg then -(u : Int) else (u : Int)

/-- Correctly rounded sum (R10): Inf - Inf is NaN, and an exact zero sum is +0 unless both operands are negative. -/
def Format.add (f : Format) (x y : Nat) : Nat :=
  match f.unpack x, f.unpack y with
  | .nan, _ => f.qnan
  | _, .nan => f.qnan
  | .inf s, .inf t => if s = t then f.pack s f.infMag else f.qnan
  | .inf s, .fin _ _ => f.pack s f.infMag
  | .fin _ _, .inf t => f.pack t f.infMag
  | .fin s u, .fin t v =>
    let z := signedUnits s u + signedUnits t v
    if z = 0 then f.pack (s && t) 0 else f.pack (decide (z < 0)) (f.roundMag z.natAbs 1)

/-- The encoding with its sign bit flipped. -/
def Format.negate (f : Format) (x : Nat) : Nat := if f.signBit ≤ x then x - f.signBit else x + f.signBit

/-- Correctly rounded difference (R10): the sum with the second operand's sign flipped. -/
def Format.sub (f : Format) (x y : Nat) : Nat := f.add x (f.negate y)

/-- Correctly rounded product (R10): zero times infinity is NaN. -/
def Format.mul (f : Format) (x y : Nat) : Nat :=
  match f.unpack x, f.unpack y with
  | .nan, _ => f.qnan
  | _, .nan => f.qnan
  | .inf s, .inf t => f.pack (s ^^ t) f.infMag
  | .inf s, .fin t v => if v = 0 then f.qnan else f.pack (s ^^ t) f.infMag
  | .fin s u, .inf t => if u = 0 then f.qnan else f.pack (s ^^ t) f.infMag
  | .fin s u, .fin t v => f.pack (s ^^ t) (f.roundMag (u * v) f.scale)

/-- Correctly rounded quotient (R10): 0/0 and Inf/Inf are NaN, and a finite nonzero value over zero is an infinity. -/
def Format.div (f : Format) (x y : Nat) : Nat :=
  match f.unpack x, f.unpack y with
  | .nan, _ => f.qnan
  | _, .nan => f.qnan
  | .inf _, .inf _ => f.qnan
  | .inf s, .fin t _ => f.pack (s ^^ t) f.infMag
  | .fin s _, .inf t => f.pack (s ^^ t) 0
  | .fin s u, .fin t v =>
    if v = 0 then (if u = 0 then f.qnan else f.pack (s ^^ t) f.infMag)
    else f.pack (s ^^ t) (f.roundMag (u * f.scale) v)

/-- Conversion from format `f` to format `g`: exact when `g` is wider, else correctly rounded, overflow going to an
infinity; NaN stays NaN (`to64` and `r32` of R10). -/
def Format.convert (f g : Format) (x : Nat) : Nat :=
  match f.unpack x with
  | .nan => g.qnan
  | .inf s => g.pack s g.infMag
  | .fin s u => g.pack s (g.roundMag (u * g.scale) f.scale)

/-- `x < y`; false when either side is NaN (R66). -/
def Format.lt (f : Format) (x y : Nat) : Bool :=
  match f.unpack x, f.unpack y with
  | .nan, _ => false
  | _, .nan => false
  | .inf s, .inf t => s && !t
  | .inf s, .fin _ _ => s
  | .fin _ _, .inf t => !t
  | .fin s u, .fin t v => decide (signedUnits s u < signedUnits t v)

/-- Neither an infinity nor a NaN (R10). -/
def Format.finite (f : Format) (x : Nat) : Bool := decide (x % f.signBit < f.infMag)

/-- A NaN. -/
def Format.isNaN (f : Format) (x : Nat) : Bool := decide (f.infMag < x % f.signBit)

/-- `QNAN32` (R10). -/
def qnan32 : Word := 0x7FC00000#32

/-- `⊕` (R10). -/
def fadd (x y : Word) : Word := BitVec.ofNat 32 (binary32.add x.toNat y.toNat)

/-- `⊖` (R10). -/
def fsub (x y : Word) : Word := BitVec.ofNat 32 (binary32.sub x.toNat y.toNat)

/-- `⊗` (R10). -/
def fmul (x y : Word) : Word := BitVec.ofNat 32 (binary32.mul x.toNat y.toNat)

/-- `finite(v)` on binary32 (R10). -/
def finite32 (x : Word) : Bool := binary32.finite x.toNat

/-- `isNaN(v)` on binary32 (R83). -/
def isNaN32 (x : Word) : Bool := binary32.isNaN x.toNat

/-- Binary64 `+` (R10). -/
def dadd (x y : Double) : Double := BitVec.ofNat 64 (binary64.add x.toNat y.toNat)

/-- Binary64 `-` (R10). -/
def dsub (x y : Double) : Double := BitVec.ofNat 64 (binary64.sub x.toNat y.toNat)

/-- Binary64 `*` (R10). -/
def dmul (x y : Double) : Double := BitVec.ofNat 64 (binary64.mul x.toNat y.toNat)

/-- Binary64 `/` (R10). -/
def ddiv (x y : Double) : Double := BitVec.ofNat 64 (binary64.div x.toNat y.toNat)

/-- Binary64 `<` (R66). -/
def dlt (x y : Double) : Bool := binary64.lt x.toNat y.toNat

/-- `finite(v)` on binary64. -/
def finite64 (x : Double) : Bool := binary64.finite x.toNat

/-- `to64(v)` (R10). -/
def to64 (x : Word) : Double := BitVec.ofNat 64 (binary32.convert binary64 x.toNat)

/-- `r32(v)` (R10). -/
def r32 (x : Double) : Word := BitVec.ofNat 32 (binary64.convert binary32 x.toNat)

/-- The binary64 encoding of a small whole number, exact below 2 to the power 53 (R72, R112). -/
def natToDouble (n : Nat) : Double := BitVec.ofNat 64 (binary64.roundMag (n * binary64.scale) 1)

end Sys2Proof.Machine
end

