-- ==== Sys2Proof/Machine/Operands.lean ====
section
/-! DEFINITION. The operand forms: what each header field and each enumerated operand word means, and the code of an
illegal value (R55, R61, R116). Fields are read as unsigned numbers of their width; no operand is extended or scaled. -/

namespace Sys2Proof.Machine

/-- `S` as a slot, legal in 0..8 (R55). -/
def slotArg (sl : Nibble) : Except Status Slot :=
  if h : sl.toNat < 9 then .ok ⟨sl.toNat, h⟩ else .error .badSlot

/-- `S` as a cascade select, 0 LC and 1 HC; an illegal select is `BAD_SLOT` (R55, R116). -/
def cascadeArg (c : Nibble) : Except Status Cascade :=
  if c = 0 then .ok .lc else if c = 1 then .ok .hc else .error .badSlot

/-- `A` as a channel, 0 left and 1 right (R55). -/
def channelArg (ch : Nibble) : Except Status Channel :=
  if ch = 0 then .ok .left else if ch = 1 then .ok .right else .error .badOperand

/-- `A` as a channel mask, bit 0 left and bit 1 right; 0 and 4..15 are illegal (R55). -/
def maskArg (cm : Nibble) : Except Status (Bool × Bool) :=
  if cm = 1 then .ok (true, false) else if cm = 2 then .ok (false, true) else if cm = 3 then .ok (true, true)
  else .error .badOperand

/-- `A` as a bypass value (R55). -/
def bypassArg (b : Nibble) : Except Status Bool :=
  if b = 0 then .ok false else if b = 1 then .ok true else .error .badOperand

/-- `A` as a slope code, legal in 0..3 (R55). -/
def slopeArg (sc : Nibble) : Except Status Nat :=
  if sc.toNat ≤ 3 then .ok sc.toNat else .error .badOperand

/-- `A` as a kind, 0 HP and 1 LP (R55). -/
def kindArg (kd : Nibble) : Except Status Kind :=
  if kd = 0 then .ok .hp else if kd = 1 then .ok .lp else .error .badOperand

/-- An order is one of 2, 4, 6, 8 (R71, R74). -/
def orderLegal (order : Nat) : Bool := order == 2 || order == 4 || order == 6 || order == 8

/-- An operand word as an order (R80). -/
def orderArg (order : Word) : Except Status Nat :=
  if orderLegal order.toNat then .ok order.toNat else .error .badOperand

/-- An operand word as a slope code (R61, R107). -/
def slopeWord (w : Word) : Except Status Nat :=
  if w.toNat ≤ 3 then .ok w.toNat else .error .badOperand

/-- An operand word as a maxBlockSize, legal in 1..65535 (R104). -/
def blockSizeArg (mb : Word) : Except Status Word :=
  if 1 ≤ mb.toNat ∧ mb.toNat ≤ nMax then .ok mb else .error .badOperand

/-- All five coefficients are finite (R30, R89). -/
def coefFinite (c : Coef) : Bool :=
  finite32 c.b0 && finite32 c.b1 && finite32 c.b2 && finite32 c.a1 && finite32 c.a2

/-- A CoefficientSet operand, every value of which must be finite (R89, R97). -/
def coefArg (c : Coef) : Except Status Coef := if coefFinite c then .ok c else .error .domain

/-- A number greater than zero as a binary64 comparison, false for NaN (R66, R68). -/
def positive32 (x : Word) : Bool := dlt 0x0000000000000000#64 (to64 x)

/-- Finite and greater than zero: the check made on a sample rate and on a Q, and on a frequency while no sample rate is
known (R68, R74, R104, R107). -/
def finitePositive (x : Word) : Bool := finite32 x && positive32 x

/-- A sample-rate operand (R104). -/
def rateArg (fs : Word) : Except Status Word := if finitePositive fs then .ok fs else .error .domain

end Sys2Proof.Machine
end

