-- ==== Sys2Proof/Machine/Datapath.lean ====
section
/-! DEFINITION. The sample datapath: one stage, a cascade, a channel's chain and a block of frames, as functions of an
image and of histories (R83 to R86, R95, R99, R105), and the installation of a bank into an image (R93, R94). -/

namespace Sys2Proof.Machine

/-- Nine values, one for each slot. -/
def tabulate {α : Type} (f : Slot → α) : Vector α 9 := #v[f 0, f 1, f 2, f 3, f 4, f 5, f 6, f 7, f 8]

/-- A NaN becomes `QNAN32` (R83, R84). -/
def canonical (w : Word) : Word := if isNaN32 w then qnan32 else w

/-- The value of the difference equation, before NaN is made canonical: five rounded products, summed left to right
(R83). -/
def stageSum (c : Coef) (h : Hist) (x : Word) : Word :=
  fsub (fsub (fadd (fadd (fmul c.b0 x) (fmul c.b1 h.x1)) (fmul c.b2 h.x2)) (fmul c.a1 h.y1)) (fmul c.a2 h.y2)

/-- `StageStep`: the recursion's output and the new history, the input word stored unchanged (R83, R84). -/
def stageStep (c : Coef) (h : Hist) (x : Word) : Word × Hist :=
  let y := canonical (stageSum c h x)
  (y, { x1 := x, x2 := h.x1, y1 := y, y2 := h.y1 })

/-- `StageOut`: a bypassed stage emits its input word bit for bit, and its history is updated all the same: TRACK
(R86). -/
def stageOut (e : Entry) (h : Hist) (x : Word) : Word × Hist :=
  let r := stageStep e.coef h x
  (if e.byp then x else r.1, r.2)

/-- Run a sample through the listed slots in order, each slot's output feeding the next (R95, R99). -/
def runSlots (img : Image) : List Slot → ChanHist → Word → Word × ChanHist
  | [], hs, x => (x, hs)
  | k :: ks, hs, x =>
    let r := stageOut img[k] hs[k] x
    runSlots img ks (hs.set k r.2) r.1

/-- `slot(c, i)` (R27). -/
def cascadeSlot : Cascade → Fin 4 → Slot
  | .lc, i => ⟨i.val, by omega⟩
  | .hc, i => ⟨5 + i.val, by omega⟩

/-- The four slots of a cascade in index order (R27, R95). -/
def cascadeSlots (c : Cascade) : List Slot := [cascadeSlot c 0, cascadeSlot c 1, cascadeSlot c 2, cascadeSlot c 3]

/-- The peak slot (R27). -/
def peakSlot : Slot := 4

/-- `CascadeRun` on one channel's histories (R95). -/
def cascadeRun (img : Image) (c : Cascade) (hs : ChanHist) (x : Word) : Word × ChanHist :=
  runSlots img (cascadeSlots c) hs x

/-- `ChainRun` on one channel's histories: low cut, peak, high cut (R99). -/
def chainRun (img : Image) (hs : ChanHist) (x : Word) : Word × ChanHist :=
  let lo := cascadeRun img .lc hs x
  let pk := stageOut img[peakSlot] lo.2[peakSlot] lo.1
  cascadeRun img .hc (lo.2.set peakSlot pk.2) pk.1

/-- The frames of a block in order, left then right: the output words and both channels' histories (R105). -/
def runFrames (img : Image) : List (Word × Word) → ChanHist → ChanHist → List Word × ChanHist × ChanHist
  | [], hl, hr => ([], hl, hr)
  | (l, r) :: fs, hl, hr =>
    let yl := chainRun img hl l
    let yr := chainRun img hr r
    let rest := runFrames img fs yl.2 yr.2
    (yl.1 :: yr.1 :: rest.1, rest.2)

/-- The stage index of a slot in a cascade, if the slot is one of the cascade's (R27). -/
def stageIndex : Cascade → Slot → Option Nat
  | .lc, k => if k.val < 4 then some k.val else none
  | .hc, k => if 5 ≤ k.val then some (k.val - 5) else none

/-- `activeCount(sc)` (R93). -/
def activeCount (sc : Nat) : Nat := sc + 1

/-- `CascadeInstall`: stages below the active count take the bank's sets and run, stages from it on are bypassed and keep
their coefficients, other slots are unchanged (R94). -/
def cascadeInstall (img : Image) (c : Cascade) (bank : List Coef) (sc : Nat) : Image :=
  tabulate fun k =>
    match stageIndex c k with
    | none => img[k]
    | some i =>
      if i < activeCount sc then { coef := bank.getD i img[k].coef, byp := false }
      else { coef := img[k].coef, byp := true }

end Sys2Proof.Machine
end

