-- ==== Sys2Proof/Machine/Calculator.lean ====
section
/-! DEFINITION. The butterworth_coefficient_calculator (R66 to R78) and `ChainConfigure` (R100): pure functions of a
`TRANSC` record and their operands, in binary64, evaluated in the written order and grouping. -/

namespace Sys2Proof.Machine

/-- 0.0, 1.0, 2.0, -2.0, 40.0 and `PI` in binary64 (R66). -/
def dOne : Double := 0x3FF0000000000000#64
/-- 2.0. -/
def dTwo : Double := 0x4000000000000000#64
/-- -2.0. -/
def dNegTwo : Double := 0xC000000000000000#64
/-- 40.0. -/
def dForty : Double := 0x4044000000000000#64
/-- `PI` (R66). -/
def dPi : Double := 0x400921FB54442D18#64

/-- Five binary64 coefficients before delivery. -/
structure RawCoef where
  b0 : Double
  b1 : Double
  b2 : Double
  a1 : Double
  a2 : Double
  deriving DecidableEq, Repr

/-- Each coefficient is delivered as `r32` of its binary64 value (R66). -/
def deliver (r : RawCoef) : Coef :=
  { b0 := r32 r.b0, b1 := r32 r.b1, b2 := r32 r.b2, a1 := r32 r.a1, a2 := r32 r.a2 }

/-- A frequency inside the open interval (0, fs/2), all comparisons in binary64 (R68, R74). -/
def freqLegal (f fs : Word) : Bool := finitePositive f && dlt (to64 f) (ddiv (to64 fs) dTwo)

/-- The legal domain of `PeakCoeffs` (R68). -/
def peakDomain (f q g fs : Word) : Bool :=
  finitePositive fs && freqLegal f fs && finitePositive q && finite32 g

/-- The bell filter's five quotients (R69). -/
def peakRaw (T : Transc) (f q g fs : Word) : RawCoef :=
  let A := T.exp10 (ddiv (to64 g) dForty)
  let w := ddiv (dmul (dmul dTwo dPi) (to64 f)) (to64 fs)
  let alpha := ddiv (T.sin w) (dmul dTwo (to64 q))
  let c := dmul dNegTwo (T.cos w)
  let aA := dmul alpha A
  let aOA := ddiv alpha A
  let b0 := dadd dOne aA
  let b1 := c
  let b2 := dsub dOne aA
  let a0 := dadd dOne aOA
  let a1 := c
  let a2 := dsub dOne aOA
  { b0 := ddiv b0 a0, b1 := ddiv b1 a0, b2 := ddiv b2 a0, a1 := ddiv a1 a0, a2 := ddiv a2 a0 }

/-- `PeakCoeffs` (R68, R69): `DOMAIN` outside the domain or where a delivered value is not finite. -/
def peakCoeffs (T : Transc) (f q g fs : Word) : Except Status Coef :=
  if peakDomain f q g fs && coefFinite (deliver (peakRaw T f q g fs)) then .ok (deliver (peakRaw T f q g fs))
  else .error .domain

/-- `Q_k`, the quality factor of section `k` (R72). -/
def sectionQ (T : Transc) (order k : Nat) : Double :=
  ddiv dOne (dmul dTwo (T.cos (ddiv (dmul (natToDouble (2 * k + 1)) dPi) (natToDouble (2 * order)))))

/-- Section `k` of a cut: high-pass by R75, low-pass by R76. -/
def cutRaw (T : Transc) (kd : Kind) (fc fs : Word) (order k : Nat) : RawCoef :=
  let t := T.tan (ddiv (dmul dPi (to64 fc)) (to64 fs))
  let iq := ddiv dOne (sectionQ T order k)
  match kd with
  | .hp =>
    let n := t
    let n2 := dmul n n
    let c1 := ddiv dOne (dadd (dadd dOne (dmul iq n)) n2)
    { b0 := c1, b1 := dmul dNegTwo c1, b2 := c1, a1 := dmul (dmul c1 dTwo) (dsub n2 dOne),
      a2 := dmul c1 (dadd (dsub dOne (dmul iq n)) n2) }
  | .lp =>
    let n := ddiv dOne t
    let n2 := dmul n n
    let c1 := ddiv dOne (dadd (dadd dOne (dmul iq n)) n2)
    { b0 := c1, b1 := dmul c1 dTwo, b2 := c1, a1 := dmul (dmul c1 dTwo) (dsub dOne n2),
      a2 := dmul c1 (dadd (dsub dOne (dmul iq n)) n2) }

/-- The legal domain of `CutCoeffs`; a cutoff outside (0, fs/2) is never clamped (R74, C2 of 90_conflicts.md). -/
def cutDomain (fc fs : Word) (order : Nat) : Bool := orderLegal order && finitePositive fs && freqLegal fc fs

/-- The sections 0 to order/2 - 1, in ascending order of `k` (R71, R72, R77). -/
def cutBank (T : Transc) (kd : Kind) (fc fs : Word) (order : Nat) : List Coef :=
  (List.range (order / 2)).map fun k => deliver (cutRaw T kd fc fs order k)

/-- `CutCoeffs` (R77): the whole bank, or `DOMAIN` and no bank. -/
def cutCoeffs (T : Transc) (kd : Kind) (fc fs : Word) (order : Nat) : Except Status (List Coef) :=
  if cutDomain fc fs order && (cutBank T kd fc fs order).all coefFinite then .ok (cutBank T kd fc fs order)
  else .error .domain

/-- `order = 2 × (slope code + 1)` (R71). -/
def orderOfSlope (sc : Nat) : Nat := 2 * (sc + 1)

/-- The image with the peak set and both banks installed; the peak slot's bypass bit is left as it stood (R100, D31). -/
def chainInstall (img : Image) (pk : Coef) (lc hc : List Coef) (scl sch : Nat) : Image :=
  let img1 := img.set peakSlot { coef := pk, byp := img[peakSlot].byp }
  cascadeInstall (cascadeInstall img1 .lc lc scl) .hc hc sch

/-- `ChainConfigure` (R100): the whole new image, or `DOMAIN` and no image. -/
def chainConfigure (T : Transc) (img : Image) (ps : Params) (fs : Word) : Except Status Image := do
  let pk ← peakCoeffs T ps.peakFreq ps.peakQ ps.peakGain fs
  let lc ← cutCoeffs T .hp ps.lcFreq fs (orderOfSlope ps.lcSlope.toNat)
  let hc ← cutCoeffs T .lp ps.hcFreq fs (orderOfSlope ps.hcSlope.toNat)
  return chainInstall img pk lc hc ps.lcSlope.toNat ps.hcSlope.toNat

/-- The checks of `UPDATE_PARAMS` while no sample rate is known (R107, item 3). -/
def unpreparedLegal (ps : Params) : Bool :=
  finitePositive ps.peakFreq && finitePositive ps.lcFreq && finitePositive ps.hcFreq && finitePositive ps.peakQ &&
    finite32 ps.peakGain

end Sys2Proof.Machine
end

