-- ==== Sys2Proof/Machine/Registers.lean ====
section
/-! DEFINITION. The register space: 65536 word indices, each one readable word or unmapped (R35 to R37). No index is
writable. -/

namespace Sys2Proof.Machine

/-- The mapped registers (R36). -/
inductive Reg where
  | id
  | status
  | errCtrl
  | errAudio
  | genPub
  | genAct
  | fs
  | maxBlk
  | param (k : Fin 7)
  | pubCoef (s : Slot) (k : Fin 5)
  | pubByp (s : Slot)
  | actCoef (s : Slot) (k : Fin 5)
  | actByp (s : Slot)
  | hist (ch : Channel) (s : Slot) (j : Fin 4)
  deriving DecidableEq, Repr

/-- The index of a register (R36). -/
def Reg.index : Reg → Nat
  | .id => 0x000
  | .status => 0x001
  | .errCtrl => 0x002
  | .errAudio => 0x003
  | .genPub => 0x004
  | .genAct => 0x005
  | .fs => 0x006
  | .maxBlk => 0x007
  | .param k => 0x010 + k.val
  | .pubCoef s k => 0x100 + 8 * s.val + k.val
  | .pubByp s => 0x100 + 8 * s.val + 5
  | .actCoef s k => 0x200 + 8 * s.val + k.val
  | .actByp s => 0x200 + 8 * s.val + 5
  | .hist .left s j => 0x300 + 4 * s.val + j.val
  | .hist .right s j => 0x300 + 0x40 + 4 * s.val + j.val

/-- The register at offset `o` of an image's index range: word `o mod 8` of slot `o / 8`, word 5 the bypass bit, words 6
and 7 unmapped (R36). -/
def imageReg (coef : Slot → Fin 5 → Reg) (byp : Slot → Reg) (o : Nat) : Option Reg :=
  if hs : o / 8 < 9 then
    if hk : o % 8 < 5 then some (coef ⟨o / 8, hs⟩ ⟨o % 8, hk⟩)
    else if o % 8 = 5 then some (byp ⟨o / 8, hs⟩) else none
  else none

/-- The register at offset `o` of a channel's history range (R36). -/
def histReg (ch : Channel) (o : Nat) : Option Reg :=
  if hs : o / 4 < 9 then some (.hist ch ⟨o / 4, hs⟩ ⟨o % 4, Nat.mod_lt o (by omega)⟩) else none

/-- The register an index maps to, or none where the index is unmapped (R36; U7 of 93_implementation_defined.md). -/
def regOfIndex (i : Nat) : Option Reg :=
  if i < 0x010 then [Reg.id, .status, .errCtrl, .errAudio, .genPub, .genAct, .fs, .maxBlk][i]?
  else if i < 0x100 then (if h : i - 0x010 < 7 then some (.param ⟨i - 0x010, h⟩) else none)
  else if i < 0x200 then imageReg .pubCoef .pubByp (i - 0x100)
  else if i < 0x300 then imageReg .actCoef .actByp (i - 0x200)
  else if i < 0x340 then histReg .left (i - 0x300)
  else histReg .right (i - 0x340)

/-- Only the AUDIO port may read `HIST` (R37). -/
def Reg.readableFrom : Reg → Port → Bool
  | .hist _ _ _, p => decide (p = .audio)
  | _, _ => true

/-- A bit as a register word: bit 0, the other bits 0 (R23, R36). -/
def bitWord (b : Bool) : Word := if b then 1#32 else 0#32

/-- Value `k` of a CoefficientSet: b0, b1, b2, a1, a2 (R36). -/
def coefValue (c : Coef) (k : Fin 5) : Word := #v[c.b0, c.b1, c.b2, c.a1, c.a2][k]

/-- Word `k` of `PARAM` (R20). -/
def paramValue (ps : Params) (k : Fin 7) : Word :=
  #v[ps.peakFreq, ps.peakGain, ps.peakQ, ps.lcFreq, ps.hcFreq, ps.lcSlope, ps.hcSlope][k]

/-- Value `j` of a history: x1, x2, y1, y2 (R36). -/
def histValue (h : Hist) (j : Fin 4) : Word := #v[h.x1, h.x2, h.y1, h.y2][j]

/-- The constant of `ID` (R22). -/
def idWord : Word := 0x42510001#32

/-- The histories of a channel (R29). -/
def State.histOf (s : State) : Channel → ChanHist
  | .left => s.histL
  | .right => s.histR

/-- `RegWord`: the current content of a register (R110). -/
def State.regWord (s : State) : Reg → Word
  | .id => idWord
  | .status => bitWord s.prepared
  | .errCtrl => s.errCtrl
  | .errAudio => s.errAudio
  | .genPub => s.genPub
  | .genAct => s.genAct
  | .fs => s.fs
  | .maxBlk => s.maxBlk
  | .param k => paramValue s.param k
  | .pubCoef k j => coefValue s.pub[k].coef j
  | .pubByp k => bitWord s.pub[k].byp
  | .actCoef k j => coefValue s.act[k].coef j
  | .actByp k => bitWord s.act[k].byp
  | .hist ch k j => histValue (s.histOf ch)[k] j

/-- `RegRead`, with the access rule of R37: an unmapped index is `BAD_REGISTER`, a `HIST` index read from CTRL is
`WRONG_PORT`. -/
def State.regRead (s : State) (p : Port) (n : Half) : Except Status Word :=
  match regOfIndex n.toNat with
  | none => .error .badRegister
  | some r => if r.readableFrom p then .ok (s.regWord r) else .error .wrongPort

end Sys2Proof.Machine
end

