-- ==== Sys2Proof/Machine/Ops.lean ====
section
/-! DEFINITION. The named operations over the state: the port buffers, `Publish` and `Latch` (R45, R46), clearing and
writing history (R92, R103), the checks every command shares (R118, R119), and ending a command, with or without an
error, as one shared operation (R34, R56, R120). The block has no trap and no return from one (R121, R122): a failing
command's error is this ending and nothing else. -/

namespace Sys2Proof.Machine

/-- The buffers of a port (R31). -/
def State.io (s : State) : Port → PortIO
  | .ctrl => s.ctrl
  | .audio => s.audio

/-- Write the buffers of a port. -/
def State.setIO (s : State) (p : Port) (b : PortIO) : State :=
  match p with
  | .ctrl => { s with ctrl := b }
  | .audio => { s with audio := b }

/-- Append words to the response buffer of the current port (R11, R34). -/
def State.respond (s : State) (ws : List Word) : State :=
  s.setIO s.port { rx := (s.io s.port).rx, resp := (s.io s.port).resp ++ ws }

/-- End the current command with a status: record it (R120), respond with the status word, then with the result words
if and only if the status is `OK` (R34, R56). -/
def State.finish (s : State) (opc : Byte) (c : Status) (ws : List Word) : State :=
  (s.recordErr opc c).respond (statusWord opc c :: (if c = .ok then ws else []))

/-- What a command that passed its checks did: the state it leaves, its status and its result words. -/
structure Reply where
  state : State
  status : Status
  words : List Word
  deriving DecidableEq, Repr

/-- The command completed with `OK`. -/
def done (s : State) (ws : List Word) : Except Status Reply := .ok { state := s, status := .ok, words := ws }

/-- End command `op` started in state `s`: with its reply, or with an error, which changes nothing but the sticky
register and the response (R11, R12). -/
def settle (op : Op) (s : State) (r : Except Status Reply) : Host.Outcome State Fault Refusal :=
  match r with
  | .ok a => .next (a.state.finish op.code a.status a.words)
  | .error c => .next (s.finish op.code c [])

/-- `WRONG_PORT` unless the command may be issued on the current port (R119, R125). -/
def checkPort (op : Op) (s : State) : Except Status Unit :=
  if op.allows s.port then .ok () else .error .wrongPort

/-- `NOT_PREPARED` while `PREPARED = 0` (R118). -/
def checkPrepared (s : State) : Except Status Unit := if s.prepared then .ok () else .error .notPrepared

/-- `BLOCK_TOO_LARGE` if the block has more than `MAXBLK` frames (R105). -/
def checkBlock (n : Nat) (s : State) : Except Status Unit :=
  if n ≤ s.maxBlk.toNat then .ok () else .error .blockTooLarge

/-- `Publish(img)`: the new image and the next generation, modulo 2^32 (R45, R25). -/
def State.publish (s : State) (img : Image) : State := { s with pub := img, genPub := s.genPub + 1 }

/-- `Latch()` (R46). -/
def State.latch (s : State) : State := { s with act := s.pub, genAct := s.genPub }

/-- Write the histories of a channel. -/
def State.setHist (s : State) (ch : Channel) (hs : ChanHist) : State :=
  match ch with
  | .left => { s with histL := hs }
  | .right => { s with histR := hs }

/-- Clear one slot's history on the channels of a mask (R92). -/
def State.clearSlot (s : State) (k : Slot) (m : Bool × Bool) : State :=
  { s with
    histL := if m.1 then s.histL.set k zeroHist else s.histL
    histR := if m.2 then s.histR.set k zeroHist else s.histR }

/-- Clear all histories of the channels of a mask (R103, R104). -/
def State.clearChannels (s : State) (m : Bool × Bool) : State :=
  { s with
    histL := if m.1 then zeroChan else s.histL
    histR := if m.2 then zeroChan else s.histR }

end Sys2Proof.Machine
end

