-- ==== Sys2Proof/Machine/CalcCommands.lean ====
section
/-! DEFINITION. The calculator commands (R79, R80): their replies under any `TRANSC` record, and the commands under the
machine's. -/

namespace Sys2Proof.Machine

/-- `CALC_PEAK` (R79). -/
def replyCalcPeak (T : Transc) (freq q gainDb fs : Word) (s : State) : Except Status Reply := do
  let c ← peakCoeffs T freq q gainDb fs
  done s c.words

/-- `CALC_CUT`: the kind is checked first, then the order, then the domain (R80). -/
def replyCalcCut (T : Transc) (kd : Nibble) (fc fs order : Word) (s : State) : Except Status Reply := do
  let k ← kindArg kd
  let od ← orderArg order
  let bank ← cutCoeffs T k fc fs od
  done s (bank.flatMap Coef.words)

/-- `CALC_PEAK` (R79). -/
def execCalcPeak (freq q gainDb fs : Word) (s : State) : Host.Outcome State Fault Refusal :=
  settle .calcPeak s (replyCalcPeak Config.transc freq q gainDb fs s)

/-- `CALC_CUT` (R80). -/
def execCalcCut (kd : Nibble) (fc fs order : Word) (s : State) : Host.Outcome State Fault Refusal :=
  settle .calcCut s (replyCalcCut Config.transc kd fc fs order s)

end Sys2Proof.Machine
end

