-- ==== Sys2Proof/Machine/CascadeCommands.lean ====
section
/-! DEFINITION. The commands that address one cut cascade (R97, R98). -/

namespace Sys2Proof.Machine

/-- The sets a `CASCADE_CONFIGURE` reads, the first `activeCount` of its four, if all of them are finite (R97). -/
def bankArg (k0 k1 k2 k3 : Coef) (slope : Nat) : Except Status (List Coef) :=
  if ([k0, k1, k2, k3].take (activeCount slope)).all coefFinite then .ok ([k0, k1, k2, k3].take (activeCount slope))
  else .error .domain

/-- `CASCADE_CONFIGURE` (R97). -/
def replyCascadeConfigure (c sc : Nibble) (k0 k1 k2 k3 : Coef) (s : State) : Except Status Reply := do
  checkPort .cascadeConfigure s
  let cas ← cascadeArg c
  let slope ← slopeArg sc
  let bank ← bankArg k0 k1 k2 k3 slope
  done (s.publish (cascadeInstall s.pub cas bank slope)) []

/-- `CASCADE_PROCESS` (R98). -/
def replyCascadeProcess (c ch : Nibble) (x : Word) (s : State) : Except Status Reply := do
  checkPort .cascadeProcess s
  let cas ← cascadeArg c
  let chan ← channelArg ch
  checkPrepared s
  let r := cascadeRun s.latch.act cas (s.histOf chan) x
  done (s.latch.setHist chan r.2) [r.1]

/-- `CASCADE_CONFIGURE` (R97). -/
def execCascadeConfigure (c sc : Nibble) (k0 k1 k2 k3 : Coef) (s : State) : Host.Outcome State Fault Refusal :=
  settle .cascadeConfigure s (replyCascadeConfigure c sc k0 k1 k2 k3 s)

/-- `CASCADE_PROCESS` (R98). -/
def execCascadeProcess (c ch : Nibble) (x : Word) (s : State) : Host.Outcome State Fault Refusal :=
  settle .cascadeProcess s (replyCascadeProcess c ch x s)

end Sys2Proof.Machine
end

