-- ==== Sys2Proof/Machine/ChainCommands.lean ====
section
/-! DEFINITION. The commands that address one channel's chain (R102, R103). -/

namespace Sys2Proof.Machine

/-- `CHAIN_PROCESS` (R102). -/
def replyChainProcess (ch : Nibble) (x : Word) (s : State) : Except Status Reply := do
  checkPort .chainProcess s
  let c ← channelArg ch
  checkPrepared s
  let r := chainRun s.latch.act (s.histOf c) x
  done (s.latch.setHist c r.2) [r.1]

/-- `CHAIN_RESET` (R103). -/
def replyChainReset (cm : Nibble) (s : State) : Except Status Reply := do
  checkPort .chainReset s
  let m ← maskArg cm
  done (s.clearChannels m) []

/-- `CHAIN_PROCESS` (R102). -/
def execChainProcess (ch : Nibble) (x : Word) (s : State) : Host.Outcome State Fault Refusal :=
  settle .chainProcess s (replyChainProcess ch x s)

/-- `CHAIN_RESET` (R103). -/
def execChainReset (cm : Nibble) (s : State) : Host.Outcome State Fault Refusal :=
  settle .chainReset s (replyChainReset cm s)

end Sys2Proof.Machine
end

