-- ==== Sys2Proof/Machine/ProcessorCommands.lean ====
section
/-! DEFINITION. The three entry points of the dual-channel processor (R104 to R108); the replies that compute
coefficients take any `TRANSC` record, the commands the machine's. -/

namespace Sys2Proof.Machine

/-- The state of a `PREPARE` that passed its checks, before its coefficients: rate, limit and flag set, all history
cleared (R104). -/
def State.prepareFor (s : State) (fs mb : Word) : State :=
  ({ s with fs := fs, maxBlk := mb, prepared := true } : State).clearChannels (true, true)

/-- The coefficients of a `PREPARE` in state `s`, already prepared: published where `PARAM` is inside the calculator's
domain at `fs`, else the image is kept and the command completes with `COEF_KEPT` (R104, R117). -/
def prepareImage (T : Transc) (fs : Word) (s : State) : Reply :=
  match chainConfigure T s.pub s.param fs with
  | .ok img => { state := s.publish img, status := .ok, words := [] }
  | .error _ => { state := s, status := .coefKept, words := [] }

/-- `PREPARE` (R104). -/
def replyPrepare (T : Transc) (fs mb : Word) (s : State) : Except Status Reply := do
  checkPort .prepare s
  let mb ← blockSizeArg mb
  let fs ← rateArg fs
  .ok (prepareImage T fs (s.prepareFor fs mb))

/-- `PROCESS_BLOCK`: one `Latch` before frame 0, then every frame on both channels (R105). -/
def replyProcessBlock (frames : List (Word × Word)) (s : State) : Except Status Reply := do
  checkPort .processBlock s
  checkPrepared s
  checkBlock frames.length s
  let r := runFrames s.latch.act frames s.histL s.histR
  done ((s.latch.setHist .left r.2.1).setHist .right r.2.2) r.1

/-- The part of `UPDATE_PARAMS` after its slope checks: prepared, the new `PARAM` and the new image are installed in one
step or not at all; unprepared, `PARAM` alone is stored (R107, R108). -/
def installParams (T : Transc) (ps : Params) (s : State) : Except Status Reply :=
  if s.prepared then do
    let img ← chainConfigure T s.pub ps s.fs
    done (({ s with param := ps } : State).publish img) []
  else if unpreparedLegal ps then done { s with param := ps } []
  else .error .domain

/-- `UPDATE_PARAMS` (R108). -/
def replyUpdateParams (T : Transc) (ps : Params) (s : State) : Except Status Reply := do
  checkPort .updateParams s
  let _ ← slopeWord ps.lcSlope
  let _ ← slopeWord ps.hcSlope
  installParams T ps s

/-- `PREPARE` (R104). -/
def execPrepare (fs mb : Word) (s : State) : Host.Outcome State Fault Refusal :=
  settle .prepare s (replyPrepare Config.transc fs mb s)

/-- `PROCESS_BLOCK` (R105). -/
def execProcessBlock (frames : List (Word × Word)) (s : State) : Host.Outcome State Fault Refusal :=
  settle .processBlock s (replyProcessBlock frames s)

/-- `UPDATE_PARAMS` (R108). -/
def execUpdateParams (ps : Params) (s : State) : Host.Outcome State Fault Refusal :=
  settle .updateParams s (replyUpdateParams Config.transc ps s)

end Sys2Proof.Machine
end

