-- ==== Sys2Proof/Machine/StageCommands.lean ====
section
/-! DEFINITION. The commands that address one stage slot (R89 to R92). -/

namespace Sys2Proof.Machine

/-- `STAGE_SET_COEFFS` (R89). -/
def replyStageSetCoeffs (sl : Nibble) (c : Coef) (s : State) : Except Status Reply := do
  checkPort .stageSetCoeffs s
  let k ← slotArg sl
  let c ← coefArg c
  done (s.publish (s.pub.set k { coef := c, byp := s.pub[k].byp })) []

/-- `STAGE_SET_BYPASS` (R90). -/
def replyStageSetBypass (sl b : Nibble) (s : State) : Except Status Reply := do
  checkPort .stageSetBypass s
  let k ← slotArg sl
  let v ← bypassArg b
  done (s.publish (s.pub.set k { coef := s.pub[k].coef, byp := v })) []

/-- `STAGE_PROCESS` (R91). -/
def replyStageProcess (sl ch : Nibble) (x : Word) (s : State) : Except Status Reply := do
  checkPort .stageProcess s
  let k ← slotArg sl
  let c ← channelArg ch
  checkPrepared s
  let r := stageOut s.latch.act[k] (s.histOf c)[k] x
  done (s.latch.setHist c ((s.histOf c).set k r.2)) [r.1]

/-- `STAGE_RESET` (R92). -/
def replyStageReset (sl cm : Nibble) (s : State) : Except Status Reply := do
  checkPort .stageReset s
  let k ← slotArg sl
  let m ← maskArg cm
  done (s.clearSlot k m) []

/-- `STAGE_SET_COEFFS` (R89). -/
def execStageSetCoeffs (sl : Nibble) (c : Coef) (s : State) : Host.Outcome State Fault Refusal :=
  settle .stageSetCoeffs s (replyStageSetCoeffs sl c s)

/-- `STAGE_SET_BYPASS` (R90). -/
def execStageSetBypass (sl b : Nibble) (s : State) : Host.Outcome State Fault Refusal :=
  settle .stageSetBypass s (replyStageSetBypass sl b s)

/-- `STAGE_PROCESS` (R91). -/
def execStageProcess (sl ch : Nibble) (x : Word) (s : State) : Host.Outcome State Fault Refusal :=
  settle .stageProcess s (replyStageProcess sl ch x s)

/-- `STAGE_RESET` (R92). -/
def execStageReset (sl cm : Nibble) (s : State) : Host.Outcome State Fault Refusal :=
  settle .stageReset s (replyStageReset sl cm s)

end Sys2Proof.Machine
end

