-- ==== Sys2Proof/Machine/System.lean ====
section
/-! DEFINITION. The system commands (R109 to R111). A command's `reply` is what it does once its packet is complete; its
`exec` ends the command with that reply. -/

namespace Sys2Proof.Machine

/-- `NOP` (R109). -/
def replyNop (s : State) : Except Status Reply := done s []

/-- `RD_REG` (R110). -/
def replyRdReg (n : Half) (s : State) : Except Status Reply := do
  let w ← s.regRead s.port n
  done s [w]

/-- `CLR_ERR` (R111). -/
def replyClrErr (s : State) : Except Status Reply := done (s.setErr s.port 0) []

/-- `NOP` (R109). -/
def execNop (s : State) : Host.Outcome State Fault Refusal := settle .nop s (replyNop s)

/-- `RD_REG` (R110). -/
def execRdReg (n : Half) (s : State) : Host.Outcome State Fault Refusal := settle .rdReg s (replyRdReg n s)

/-- `CLR_ERR` (R111). -/
def execClrErr (s : State) : Host.Outcome State Fault Refusal := settle .clrErr s (replyClrErr s)

end Sys2Proof.Machine
end

