-- ==== Sys2Proof/Machine/Dispatch.lean ====
section
/-! DEFINITION. The meaning of each command, one arm per constructor of Instr. -/

namespace Sys2Proof.Machine

/-- The meaning of a command whose packet has been taken from port `s.port`. -/
def exec (i : Instr) (s : State) : Host.Outcome State Fault Refusal :=
  match i with
  | .nop => Sys2Proof.Machine.execNop s
  | .rdReg n => Sys2Proof.Machine.execRdReg n s
  | .clrErr => Sys2Proof.Machine.execClrErr s
  | .calcPeak freq q gainDb fs => Sys2Proof.Machine.execCalcPeak freq q gainDb fs s
  | .calcCut kd fc fs order => Sys2Proof.Machine.execCalcCut kd fc fs order s
  | .stageSetCoeffs sl c => Sys2Proof.Machine.execStageSetCoeffs sl c s
  | .stageSetBypass sl b => Sys2Proof.Machine.execStageSetBypass sl b s
  | .stageProcess sl ch x => Sys2Proof.Machine.execStageProcess sl ch x s
  | .stageReset sl cm => Sys2Proof.Machine.execStageReset sl cm s
  | .cascadeConfigure c sc k0 k1 k2 k3 => Sys2Proof.Machine.execCascadeConfigure c sc k0 k1 k2 k3 s
  | .cascadeProcess c ch x => Sys2Proof.Machine.execCascadeProcess c ch x s
  | .chainProcess ch x => Sys2Proof.Machine.execChainProcess ch x s
  | .chainReset cm => Sys2Proof.Machine.execChainReset cm s
  | .prepare fs mb => Sys2Proof.Machine.execPrepare fs mb s
  | .processBlock frames => Sys2Proof.Machine.execProcessBlock frames s
  | .updateParams ps => Sys2Proof.Machine.execUpdateParams ps s

end Sys2Proof.Machine
end

