-- ==== Sys2Proof/Machine/Ports.lean ====
section
/-! DEFINITION. The two ports as agents (R32 to R34, R42 to R44): which port has a step, what its step runs, the reset
input (R131), and what the host does at the ports (R134). -/

namespace Sys2Proof.Machine

/-- A port has a step when it holds a complete packet and no unread response (R33, R34, R44). -/
def State.ready (s : State) (p : Port) : Bool :=
  (s.io p).resp.isEmpty && decide (decode (s.io p).rx ≠ .incomplete)

/-- The port that is not `p`. -/
def otherPort : Port → Port
  | .ctrl => .audio
  | .audio => .ctrl

/-- The port that runs where both are ready: the waiting one once its patience is used up, until then the other one, and
where no port waits the one freely chosen. -/
def Turn.winner (first : Nat → Port) (t : Turn) : Port :=
  match t.waiting with
  | none => first t.draws
  | some (p, 0) => p
  | some (p, _ + 1) => otherPort p

/-- The turn after a step. If both ports were ready, the one that did not run waits on, or begins to wait, with a freely
chosen patience; else no port has been passed over. -/
def Turn.next (first : Nat → Port) (patience : Nat → Nat) (tie : Bool) (t : Turn) : Turn :=
  match tie, t.waiting with
  | false, _ => { waiting := none, draws := t.draws }
  | true, some (p, k + 1) => { waiting := some (p, k), draws := t.draws }
  | true, none | true, some (_, 0) =>
    { waiting := some (otherPort (t.winner first), patience t.draws), draws := t.draws + 1 }

/-- The turn after the first `n` steps of a run, `ties` giving for each step the port that ran with both ports ready, or
none where a port ran alone or a reset was carried out. -/
def turnAt (first : Nat → Port) (patience : Nat → Nat) (ties : Nat → Option Port) : Nat → Turn
  | 0 => { waiting := none, draws := 0 }
  | n + 1 => (turnAt first patience ties n).next first patience (ties n).isSome

/-- The port whose command runs next, and the state with the turn after it: any interleaving of two ready ports in which
neither is passed over for ever is allowed (R43, R44; log entry 2). -/
def State.pick (s : State) : Option (Port × State) :=
  match s.ready .ctrl, s.ready .audio with
  | false, false => none
  | true, false => some (.ctrl, { s with turn := s.turn.next Config.firstPort Config.patience false })
  | false, true => some (.audio, { s with turn := s.turn.next Config.firstPort Config.patience false })
  | true, true =>
    some (s.turn.winner Config.firstPort, { s with turn := s.turn.next Config.firstPort Config.patience true })

/-- The packet before `rest` has been taken from port `p`, whose command is now the current one. -/
def State.issue (s : State) (p : Port) (rest : List Word) : State :=
  { s.setIO p { rx := rest, resp := (s.io p).resp } with port := p }

/-- The state after the reset step: every element at its reset value (R131); no port waits, and the count of free choices
goes on. -/
def State.afterReset (s : State) : State :=
  { State.reset with turn := s.turn.next Config.firstPort Config.patience false }

/-- What the next step does. -/
inductive Fetched where
  /-- The reset input is asserted: the state after the reset step. -/
  | reset (t : State)
  /-- No port has a step: the block idles (R33, R129). -/
  | idle
  /-- A command runs from the state given. -/
  | run (i : Instr) (t : State)
  /-- An illegal header fails with the code given from the state given (R59, R60). -/
  | reject (opc : Byte) (c : Status) (t : State)
  deriving DecidableEq, Repr

/-- What port `p` runs next (R58 to R60). -/
def State.fetchAt (s : State) (p : Port) : Fetched :=
  match decode (s.io p).rx with
  | .incomplete => .idle
  | .instr i rest => .run i (s.issue p rest)
  | .illegalOpcode opc rest => .reject opc .illegalOpcode (s.issue p rest)
  | .illegalFormat opc rest => .reject opc .illegalFormat (s.issue p rest)

/-- What the next step does; reset takes precedence over both ports (R131). -/
def State.fetch (s : State) : Fetched :=
  if s.resetIn then .reset s.afterReset
  else
    match s.pick with
    | none => .idle
    | some (p, t) => t.fetchAt p

/-- The host sends one word to a port (R33). -/
def State.send (s : State) (p : Port) (w : Word) : State :=
  s.setIO p { rx := (s.io p).rx ++ [w], resp := (s.io p).resp }

/-- The host sends a sequence of words to a port. -/
def State.sendAll (s : State) (p : Port) (ws : List Word) : State :=
  s.setIO p { rx := (s.io p).rx ++ ws, resp := (s.io p).resp }

/-- The host reads the next word of a port's response (R34). -/
def State.readWord (s : State) (p : Port) : State :=
  s.setIO p { rx := (s.io p).rx, resp := (s.io p).resp.drop 1 }

/-- The host reads the rest of a port's response (R34). -/
def State.readResponse (s : State) (p : Port) : State := s.setIO p { rx := (s.io p).rx, resp := [] }

/-- The host asserts the reset input (R131, R134). -/
def State.assertReset (s : State) : State := { s with resetIn := true }

/-- Put a packet where the next step fetches: alone on port `p`, with no response unread there, the other port's packet
buffer empty and the reset input clear. -/
def State.placePacket (s : State) (p : Port) (ws : List Word) : State :=
  match p with
  | .ctrl =>
    { s with ctrl := { rx := ws, resp := [] }, audio := { rx := [], resp := s.audio.resp }, resetIn := false }
  | .audio =>
    { s with audio := { rx := ws, resp := [] }, ctrl := { rx := [], resp := s.ctrl.resp }, resetIn := false }

end Sys2Proof.Machine
end

