-- ==== Sys2Proof/Machine/Step.lean ====
section
/-! DEFINITION. One step of the block: a reset, one command of one port, one illegal header, or nothing (R32, R43, R131);
and placing an instruction where the next step fetches. -/

namespace Sys2Proof.Machine

/-- One step (R32, R43). An illegal header ends as a failing command does (R59, R60); a block with no ready port idles in
the same state (R129). -/
def step (s : State) : Host.Outcome State Fault Refusal :=
  match s.fetch with
  | .reset t => .next t
  | .idle => .next s
  | .run i t => exec i t
  | .reject opc c t => .next (t.finish opc c [])

/-- `s` with the instruction whose first `nbits` bits are `w`, numbered as opcode_table.json numbers them and its further
bits zero, as the one packet waiting on a port that may issue it (log entry 4). -/
def State.withFetchWord (s : State) (nbits w : Nat) : State :=
  s.placePacket (homePort (BitVec.ofNat 32 (w % 2 ^ nbits))) (packetOfBits nbits w)

end Sys2Proof.Machine
end

