-- ==== Sys2Proof/Assembler.lean ====
section
/-! DEFINITION. The text form of a command (R63). No rule of the machine uses it. A field value with no name of its own
is written as a number, and a finite binary32 as its exact decimal literal. -/

namespace Sys2Proof.Machine

/-- The decimal digits after the point of `r / 2^149`, at most `fuel` of them. -/
def fracDigits : Nat → Nat → List Char
  | 0, _ => []
  | fuel + 1, r => if r = 0 then [] else Nat.digitChar (10 * r / 2 ^ 149) :: fracDigits fuel (10 * r % 2 ^ 149)

/-- A word as `0x` and eight hexadecimal digits (R9). -/
def hexText (w : Word) : String :=
  "0x" ++ String.ofList ([7, 6, 5, 4, 3, 2, 1, 0].map fun i => (Nat.digitChar (w.toNat / 16 ^ i % 16)).toUpper)

/-- An f32 operand: a decimal literal where it has one, else its word (R63). -/
def f32Text (w : Word) : String :=
  match binary32.unpack w.toNat with
  | .fin neg u =>
    let frac := fracDigits 149 (u % 2 ^ 149)
    (if neg then "-" else "") ++ toString (u / 2 ^ 149) ++ "." ++ String.ofList (if frac = [] then ['0'] else frac)
  | _ => hexText w

/-- A u32 operand (R63). -/
def u32Text (w : Word) : String := toString w.toNat

/-- A field with names for its first values. -/
def fieldText (names : List String) (v : Nat) : String := names.getD v (toString v)

/-- A channel (R63). -/
def channelText (v : Nibble) : String := fieldText ["L", "R"] v.toNat

/-- A channel mask (R63). -/
def maskText (v : Nibble) : String := fieldText ["0", "L", "R", "LR"] v.toNat

/-- A cascade (R63). -/
def cascadeText (v : Nibble) : String := fieldText ["LC", "HC"] v.toNat

/-- A slope (R63). -/
def slopeText (v : Nat) : String := fieldText ["12", "24", "36", "48"] v

/-- A kind (R63). -/
def kindText (v : Nibble) : String := fieldText ["HP", "LP"] v.toNat

/-- A list between an opening and a closing character. -/
def between (o c : Nat) (xs : List String) : String :=
  String.singleton (Char.ofNat o) ++ String.intercalate ", " xs ++ String.singleton (Char.ofNat c)

/-- A CoefficientSet in braces (R63). -/
def setText (c : Coef) : String := between 123 125 (c.words.map f32Text)

/-- The mnemonic of an opcode (R57). -/
def opText : Op → String
  | .nop => "NOP"
  | .rdReg => "RD_REG"
  | .clrErr => "CLR_ERR"
  | .calcPeak => "CALC_PEAK"
  | .calcCut => "CALC_CUT"
  | .stageSetCoeffs => "STAGE_SET_COEFFS"
  | .stageSetBypass => "STAGE_SET_BYPASS"
  | .stageProcess => "STAGE_PROCESS"
  | .stageReset => "STAGE_RESET"
  | .cascadeConfigure => "CASCADE_CONFIGURE"
  | .cascadeProcess => "CASCADE_PROCESS"
  | .chainProcess => "CHAIN_PROCESS"
  | .chainReset => "CHAIN_RESET"
  | .prepare => "PREPARE"
  | .processBlock => "PROCESS_BLOCK"
  | .updateParams => "UPDATE_PARAMS"

/-- The operands of a command in the order of R57: header fields S, A, N, then operand words (R63). -/
def operandTexts : Instr → List String
  | .nop | .clrErr => []
  | .rdReg n => [toString n.toNat]
  | .calcPeak f q g fs => [f, q, g, fs].map f32Text
  | .calcCut kd fc fs order => [kindText kd, f32Text fc, f32Text fs, u32Text order]
  | .stageSetCoeffs sl c => toString sl.toNat :: c.words.map f32Text
  | .stageSetBypass sl b => [toString sl.toNat, toString b.toNat]
  | .stageProcess sl ch x => [toString sl.toNat, channelText ch, f32Text x]
  | .stageReset sl cm => [toString sl.toNat, maskText cm]
  | .cascadeConfigure c sc k0 k1 k2 k3 =>
    cascadeText c :: slopeText sc.toNat :: ([k0, k1, k2, k3].take (sc.toNat + 1)).map setText
  | .cascadeProcess c ch x => [cascadeText c, channelText ch, f32Text x]
  | .chainProcess ch x => [channelText ch, f32Text x]
  | .chainReset cm => [maskText cm]
  | .prepare fs mb => [f32Text fs, u32Text mb]
  | .processBlock frames =>
    toString frames.length :: frames.map fun f => between 40 41 [f32Text f.1, f32Text f.2]
  | .updateParams ps =>
    [ps.peakFreq, ps.peakGain, ps.peakQ, ps.lcFreq, ps.hcFreq].map f32Text ++
      [slopeText ps.lcSlope.toNat, slopeText ps.hcSlope.toNat]

/-- The port prefix of a command's text (R63). -/
def portText : Port → String
  | .ctrl => "ctrl"
  | .audio => "audio"

/-- `port: MNEMONIC operand, operand, ...` (R63). -/
def commandText (p : Port) (i : Instr) : String :=
  portText p ++ ": " ++ opText i.op ++ (if operandTexts i = [] then "" else " ") ++
    String.intercalate ", " (operandTexts i)

end Sys2Proof.Machine
end

