-- ==== Sys2Proof/Response.lean ====
section
/-! DEFINITION. The real-number helpers of the spec, for claims only; the block computes none of them (R81): the value of
an encoding, correct rounding, the named property `TRANSC_faithful` (R67), and the magnitude response of a
CoefficientSet with the cut sections in real arithmetic (R72, R75, R76, R81, R82), and the cut formulas once for any
arithmetic, which ties the real sections to the calculator's. -/

namespace Sys2Proof.Machine

/-- The rational value of a finite encoding (R10); 0 for an infinity or a NaN. -/
def Format.value (f : Format) (w : Nat) : ℚ :=
  match f.unpack w with
  | .fin neg u => (signedUnits neg u : ℚ) / f.scale
  | _ => 0

/-- The sign bit of an encoding. -/
def Format.sign (f : Format) (w : Nat) : Bool := decide (f.signBit ≤ w)

/-- The rational value of a finite binary32 word (R10). -/
def value32 (w : Word) : ℚ := binary32.value w.toNat

/-- The rational value of a finite binary64 encoding (R10). -/
def value64 (x : Double) : ℚ := binary64.value x.toNat

/-- A NaN in binary64 (R10). -/
def isNaN64 (x : Double) : Bool := binary64.isNaN x.toNat

/-- The binary64 infinity that is negative or not. -/
def inf64 (neg : Bool) : Double := if neg then 0xFFF0000000000000#64 else 0x7FF0000000000000#64

/-- `z` is a finite encoding nearest to `r`, and has an even fraction where another value is equally near. -/
def NearestEven {n : ℕ} (finite : BitVec n → Bool) (value : BitVec n → ℚ) (r : ℚ) (z : BitVec n) : Prop :=
  finite z = true ∧
    ∀ w : BitVec n, finite w = true →
      |value z - r| ≤ |value w - r| ∧ (|value z - r| = |value w - r| → value w ≠ value z → z.toNat % 2 = 0)

/-- The binary32 overflow threshold: half a unit in the last place above the largest finite value. -/
def overflow32 : ℚ := 2 ^ 128 - 2 ^ 103

/-- `z` is `r` correctly rounded to binary32 with roundTiesToEven (R10): below the overflow threshold it is a finite word
no other finite word is nearer than, and where another finite value is equally near, `z` has an even fraction; from the
threshold on it is the infinity of `r`'s sign. -/
def RoundsTo (r : ℚ) (z : Word) : Prop :=
  if |r| < overflow32 then NearestEven finite32 value32 r z
  else z = if r < 0 then 0xFF800000#32 else 0x7F800000#32

/-- The binary64 overflow threshold: half a unit in the last place above the largest finite value. -/
def overflow64 : ℚ := 2 ^ 1024 - 2 ^ 970

/-- `z` is `r` correctly rounded to binary64 with roundTiesToEven (R10, R66). -/
def RoundsTo64 (r : ℚ) (z : Double) : Prop :=
  if |r| < overflow64 then NearestEven finite64 value64 r z else z = inf64 (decide (r < 0))

/-- One unit in the last place of a finite binary64 encoding. -/
def ulp64 (x : Double) : ℚ := 2 ^ (x.toNat % 2 ^ 63 / 2 ^ 52 - 1) / 2 ^ 1074

/-- `f` is within 1 ulp of the real function `F` for finite arguments whose real result is in binary64's range
(R67). -/
def FaithfulTo (f : Double → Double) (F : ℝ → ℝ) : Prop :=
  ∀ x : Double, finite64 x = true → |F (binary64.value x.toNat : ℝ)| < 2 ^ 1024 →
    finite64 (f x) = true ∧
      |(binary64.value (f x).toNat : ℝ) - F (binary64.value x.toNat : ℝ)| ≤ (ulp64 (f x) : ℝ)

/-- The named property `TRANSC_faithful` (R67); no machine rule depends on it. -/
def TranscFaithful (T : Transc) : Prop :=
  FaithfulTo T.sin Real.sin ∧ FaithfulTo T.cos Real.cos ∧ FaithfulTo T.tan Real.tan ∧
    FaithfulTo T.exp10 (fun x => (10 : ℝ) ^ x)

/-- A second-order section with real coefficients. -/
structure RealCoef where
  b0 : ℝ
  b1 : ℝ
  b2 : ℝ
  a1 : ℝ
  a2 : ℝ

/-- The real values of a finite CoefficientSet. -/
noncomputable def realCoef (c : Coef) : RealCoef :=
  { b0 := (value32 c.b0 : ℝ), b1 := (value32 c.b1 : ℝ), b2 := (value32 c.b2 : ℝ), a1 := (value32 c.a1 : ℝ),
    a2 := (value32 c.a2 : ℝ) }

/-- `H(z)`, with `zi` standing for the inverse of `z` (R81). DESIGN CHOICE, unsafe: R81 does not say what `H(z)` is where the
denominator is zero, a pole on the unit circle, and Lean's division answers 0 there (log entry 21). -/
noncomputable def transferAt (c : RealCoef) (zi : ℂ) : ℂ :=
  ((c.b0 : ℂ) + c.b1 * zi + c.b2 * zi ^ 2) / (1 + (c.a1 : ℂ) * zi + c.a2 * zi ^ 2)

/-- The magnitude response of a section at frequency `f` for sample rate `fs`, with `z = exp(j·2π·f/fs)` (R81);
0 at a pole (log entry 21). -/
noncomputable def magnitude (c : RealCoef) (f fs : ℝ) : ℝ :=
  ‖transferAt c (Complex.exp (-(Complex.I * (2 * Real.pi * f / fs : ℝ))))‖

/-- The response of a cascade, the product over its active stages (R81). -/
noncomputable def cascadeMagnitude (cs : List RealCoef) (f fs : ℝ) : ℝ := (cs.map fun c => magnitude c f fs).prod

/-- `Q_k` in real arithmetic (R72). -/
noncomputable def realQ (order k : ℕ) : ℝ := 1 / (2 * Real.cos ((2 * k + 1) * Real.pi / (2 * order)))

/-- A high-pass section in real arithmetic (R75). -/
noncomputable def realHp (q n : ℝ) : RealCoef :=
  let c1 := 1 / (1 + 1 / q * n + n * n)
  { b0 := c1, b1 := -2 * c1, b2 := c1, a1 := c1 * 2 * (n * n - 1), a2 := c1 * (1 - 1 / q * n + n * n) }

/-- A low-pass section in real arithmetic (R76). -/
noncomputable def realLp (q n : ℝ) : RealCoef :=
  let c1 := 1 / (1 + 1 / q * n + n * n)
  { b0 := c1, b1 := c1 * 2, b2 := c1, a1 := c1 * 2 * (1 - n * n), a2 := c1 * (1 - 1 / q * n + n * n) }

/-- The sections of a cut in real arithmetic (R72, R75, R76, R77). -/
noncomputable def realBank (kd : Kind) (fc fs : ℝ) (order : ℕ) : List RealCoef :=
  (List.range (order / 2)).map fun k =>
    match kd with
    | .hp => realHp (realQ order k) (Real.tan (Real.pi * fc / fs))
    | .lp => realLp (realQ order k) (1 / Real.tan (Real.pi * fc / fs))

/-- An arithmetic in which the cut formulas of R72, R75 and R76 can be evaluated. -/
structure Arith (α : Type) where
  add : α → α → α
  sub : α → α → α
  mul : α → α → α
  div : α → α → α
  nat : ℕ → α
  negTwo : α
  pi : α
  cos : α → α
  tan : α → α

/-- The calculator's binary64 arithmetic over a `TRANSC` record (R66, R67). -/
def Arith.binary64 (T : Transc) : Arith Double :=
  { add := dadd, sub := dsub, mul := dmul, div := ddiv, nat := natToDouble, negTwo := dNegTwo, pi := dPi, cos := T.cos,
    tan := T.tan }

/-- Real arithmetic. -/
noncomputable def Arith.real : Arith ℝ :=
  { add := fun x y => x + y, sub := fun x y => x - y, mul := fun x y => x * y, div := fun x y => x / y,
    nat := fun n => n, negTwo := -2, pi := Real.pi, cos := Real.cos, tan := Real.tan }

/-- `Q_k` in an arithmetic (R72). -/
def Arith.sectionQ {α : Type} (a : Arith α) (order k : ℕ) : α :=
  a.div (a.nat 1) (a.mul (a.nat 2) (a.cos (a.div (a.mul (a.nat (2 * k + 1)) a.pi) (a.nat (2 * order)))))

/-- Section `k` of a cut in an arithmetic, in the order and grouping of R75 and R76: (b0, b1, b2, a1, a2). -/
def Arith.cutSection {α : Type} (a : Arith α) (kd : Kind) (fc fs : α) (order k : ℕ) : α × α × α × α × α :=
  let one := a.nat 1
  let two := a.nat 2
  let t := a.tan (a.div (a.mul a.pi fc) fs)
  let n := match kd with
    | .hp => t
    | .lp => a.div one t
  let n2 := a.mul n n
  let iq := a.div one (a.sectionQ order k)
  let c1 := a.div one (a.add (a.add one (a.mul iq n)) n2)
  let a2 := a.mul c1 (a.add (a.sub one (a.mul iq n)) n2)
  match kd with
  | .hp => (c1, a.mul a.negTwo c1, c1, a.mul (a.mul c1 two) (a.sub n2 one), a2)
  | .lp => (c1, a.mul c1 two, c1, a.mul (a.mul c1 two) (a.sub one n2), a2)

end Sys2Proof.Machine
end

