-- ==== Sys2Proof/Safety.lean ====
section
/-! DEFINITION. The terms claims use: the invariant of the state, the checks of a command in the order of R119, and the
runs of the block between host moves. -/

namespace Sys2Proof.Machine

/-- Every coefficient of an image is finite (R30). -/
def imageFinite (img : Image) : Bool := img.toList.all fun e => coefFinite e.coef

/-- `PARAM` holds a legal ParameterSet: what `UPDATE_PARAMS` checks whatever the sample rate (R20, R107). -/
def paramLegal (ps : Params) : Bool :=
  unpreparedLegal ps && decide (ps.lcSlope.toNat ≤ 3) && decide (ps.hcSlope.toNat ≤ 3)

/-- `FS` and `MAXBLK` are those of a completed `PREPARE`, or both 0 before the first (R21). -/
def rateLegal (s : State) : Bool :=
  if s.prepared then finitePositive s.fs && decide (1 ≤ s.maxBlk.toNat ∧ s.maxBlk.toNat ≤ nMax)
  else decide (s.fs = 0) && decide (s.maxBlk = 0)

/-- A sticky register is 0 or holds a failing code of R116 and an opcode; its bits 31:16 are 0 (R24, R116). -/
def errLegal (w : Word) : Bool :=
  decide (w = 0) || (decide (w.toNat < 2 ^ 16) && decide (1 ≤ w.toNat % 2 ^ 8 ∧ w.toNat % 2 ^ 8 ≤ 0x0A))

/-- The invariant of the block's state (R20, R21, R24, R30). -/
def State.inv (s : State) : Bool :=
  imageFinite s.pub && imageFinite s.act && paramLegal s.param && rateLegal s && errLegal s.errCtrl &&
    errLegal s.errAudio

/-- Is a result an error? -/
def isErr {α : Type} : Except Status α → Bool
  | .ok _ => false
  | .error _ => true

/-- The condition that `RD_REG` reads a mapped `HIST` index from CTRL (R37). -/
def histFromCtrl (n : Half) (s : State) : Bool :=
  match regOfIndex n.toNat with
  | some r => !r.readableFrom s.port
  | none => false

/-- The failing conditions of a command with a legal header, each with its code, in the order of R119 and, inside
`BAD_OPERAND`, in the order of the header fields and then of the operand words. -/
def errorChecks (i : Instr) (s : State) : List (Bool × Status) :=
  (!i.op.allows s.port, .wrongPort) ::
    match i with
    | .nop | .clrErr => []
    | .rdReg n => [(histFromCtrl n s, .wrongPort), ((regOfIndex n.toNat).isNone, .badRegister)]
    | .calcPeak f q g fs => [(isErr (peakCoeffs Config.transc f q g fs), .domain)]
    | .calcCut kd fc fs order =>
      [(decide (1 < kd.toNat), .badOperand), (!orderLegal order.toNat, .badOperand),
        (isErr (cutCoeffs Config.transc (if kd = 0 then .hp else .lp) fc fs order.toNat), .domain)]
    | .stageSetCoeffs sl c => [(decide (8 < sl.toNat), .badSlot), (!coefFinite c, .domain)]
    | .stageSetBypass sl b => [(decide (8 < sl.toNat), .badSlot), (decide (1 < b.toNat), .badOperand)]
    | .stageProcess sl ch _ =>
      [(decide (8 < sl.toNat), .badSlot), (decide (1 < ch.toNat), .badOperand), (!s.prepared, .notPrepared)]
    | .stageReset sl cm =>
      [(decide (8 < sl.toNat), .badSlot), (decide (cm.toNat = 0 ∨ 3 < cm.toNat), .badOperand)]
    | .cascadeConfigure c sc k0 k1 k2 k3 =>
      [(decide (1 < c.toNat), .badSlot), (decide (3 < sc.toNat), .badOperand),
        (!([k0, k1, k2, k3].take (sc.toNat + 1)).all coefFinite, .domain)]
    | .cascadeProcess c ch _ =>
      [(decide (1 < c.toNat), .badSlot), (decide (1 < ch.toNat), .badOperand), (!s.prepared, .notPrepared)]
    | .chainProcess ch _ => [(decide (1 < ch.toNat), .badOperand), (!s.prepared, .notPrepared)]
    | .chainReset cm => [(decide (cm.toNat = 0 ∨ 3 < cm.toNat), .badOperand)]
    | .prepare fs mb => [(decide (mb.toNat = 0 ∨ 65535 < mb.toNat), .badOperand), (!finitePositive fs, .domain)]
    | .processBlock frames =>
      [(!s.prepared, .notPrepared), (decide (s.maxBlk.toNat < frames.length), .blockTooLarge)]
    | .updateParams ps =>
      [(decide (3 < ps.lcSlope.toNat), .badOperand), (decide (3 < ps.hcSlope.toNat), .badOperand),
        (if s.prepared then isErr (chainConfigure Config.transc s.pub ps s.fs) else !unpreparedLegal ps, .domain)]

/-- The code of the first failing check (R119). -/
def firstError (i : Instr) (s : State) : Option Status := ((errorChecks i s).find? (·.1)).map (·.2)

/-- The number of result words of a command that ends with `OK` (R57). -/
def resultCount : Instr → Nat
  | .rdReg _ | .stageProcess _ _ _ | .cascadeProcess _ _ _ | .chainProcess _ _ => 1
  | .calcPeak _ _ _ _ => 5
  | .calcCut _ _ _ order => 5 * (order.toNat / 2)
  | .processBlock frames => 2 * frames.length
  | .nop | .clrErr | .stageSetCoeffs _ _ | .stageSetBypass _ _ | .stageReset _ _ | .cascadeConfigure _ _ _ _ _ _
  | .chainReset _ | .prepare _ _ | .updateParams _ => 0

/-- The state an execution leaves; one that stopped would leave the state as it is. -/
def afterExec (i : Instr) (s : State) : State :=
  match exec i s with
  | .next t => t
  | _ => s

/-- The `A` field of a channel (R55). -/
def channelField : Channel → Nibble
  | .left => 0#4
  | .right => 1#4

/-- The `S` field of a cascade (R55). -/
def cascadeField : Cascade → Nibble
  | .lc => 0#4
  | .hc => 1#4

/-- The `A` field of a kind (R55). -/
def kindField : Kind → Nibble
  | .hp => 0#4
  | .lp => 1#4

/-- A sequence of `CHAIN_PROCESS` commands (R106). -/
def chainCommands : List (Channel × Word) → State → State
  | [], s => s
  | (ch, x) :: cs, s => chainCommands cs (afterExec (.chainProcess (channelField ch) x) s)

/-- The samples of a sequence that go to one channel, in order. -/
def samplesOf (ch : Channel) (cs : List (Channel × Word)) : List Word :=
  (cs.filter fun c => c.1 = ch).map (·.2)

/-- The frames of a block as a sequence of samples, left before right. -/
def frameSamples : List (Word × Word) → List (Channel × Word)
  | [] => []
  | (l, r) :: fs => (.left, l) :: (.right, r) :: frameSamples fs

/-- A sequence of samples through one stage: its outputs and its last history. -/
def stageRun (e : Entry) : Hist → List Word → List Word × Hist
  | h, [] => ([], h)
  | h, x :: xs =>
    let r := stageOut e h x
    let rest := stageRun e r.2 xs
    (r.1 :: rest.1, rest.2)

/-! Executions: the block's steps and the host's moves, interleaved -/

/-- What the outside world and the block can do next (R134). -/
inductive Move where
  | step
  | send (p : Port) (w : Word)
  | read (p : Port)
  | reset
  deriving DecidableEq, Repr

/-- A run so far: the block, and the response words the host has received on each port, oldest first (R135). -/
structure Run where
  state : State
  ctrl : List Word
  audio : List Word
  deriving DecidableEq, Repr

/-- A run that begins in a state, with nothing received yet. -/
def Run.start (s : State) : Run := { state := s, ctrl := [], audio := [] }

/-- The response words the host has received on a port (R135). -/
def Run.received (r : Run) : Port → List Word
  | .ctrl => r.ctrl
  | .audio => r.audio

/-- The state after one step; a step that stopped would leave the state as it is. -/
def afterStep (s : State) : State :=
  match step s with
  | .next t => t
  | _ => s

/-- The run after the host reads the next word of a port's response, if there is one, and keeps it (R34, R135). -/
def Run.read (r : Run) (p : Port) : Run :=
  match p with
  | .ctrl => { state := r.state.readWord .ctrl, ctrl := r.ctrl ++ r.state.ctrl.resp.take 1, audio := r.audio }
  | .audio => { state := r.state.readWord .audio, ctrl := r.ctrl, audio := r.audio ++ r.state.audio.resp.take 1 }

/-- The run after a move. -/
def Run.move (r : Run) : Move → Run
  | .step => { r with state := afterStep r.state }
  | .send p w => { r with state := r.state.send p w }
  | .read p => r.read p
  | .reset => { r with state := r.state.assertReset }

/-- The run after a sequence of moves: one finite execution (R43). -/
def Run.moves (r : Run) (ms : List Move) : Run := ms.foldl Run.move r

/-- The run after the first `n` moves of an endless execution (R43). -/
def Run.at (r : Run) (ms : Nat → Move) : Nat → Run
  | 0 => r
  | n + 1 => (r.at ms n).move (ms n)

/-- The n-th move is the step in which port `p` runs its packet: it was ready and has answered. -/
def Run.runsAt (r : Run) (ms : Nat → Move) (p : Port) (n : Nat) : Prop :=
  ms n = .step ∧ (r.at ms n).state.ready p = true ∧ ((r.at ms (n + 1)).state.io p).resp ≠ []

/-- The n-th move is a reset step, which discards every packet (R131). -/
def Run.resetsAt (r : Run) (ms : Nat → Move) (n : Nat) : Prop :=
  ms n = .step ∧ (r.at ms n).state.resetIn = true

/-- Weak fairness: a port that has a complete packet and no unread response eventually executes it (R44), unless a reset
discards the packet. -/
def Run.weaklyFair (r : Run) (ms : Nat → Move) : Prop :=
  ∀ (p : Port) (n : Nat), (r.at ms n).state.ready p = true →
    ∃ m : Nat, n ≤ m ∧ (r.runsAt ms p m ∨ r.resetsAt ms m)

/-- What is left of a port's words after its complete packets, of which there are at most as many as words. -/
def afterPackets : Nat → List Word → List Word
  | 0, ws => ws
  | n + 1, ws =>
    match decode ws with
    | .incomplete => ws
    | .instr _ rest | .illegalOpcode _ rest | .illegalFormat _ rest => afterPackets n rest

/-- A port holds a partly received packet: words are left after its complete packets (R33, R135). -/
def State.partlyReceived (s : State) (p : Port) : Bool :=
  !(afterPackets (s.io p).rx.length (s.io p).rx).isEmpty

/-- The host sends something: a word, or the reset input (R134). -/
def Move.sends : Move → Bool
  | .send _ _ | .reset => true
  | .step | .read _ => false

/-- The run has ended, the moves still to come being `later`: no partly received packet, no unread response, and the host
sends nothing more (R135). -/
def Run.ended (r : Run) (later : List Move) : Bool :=
  !r.state.partlyReceived .ctrl && !r.state.partlyReceived .audio && r.state.ctrl.resp.isEmpty &&
    r.state.audio.resp.isEmpty && later.all fun m => !m.sends

/-- The block has nothing more to do of itself: no port is ready and no reset is asked for. Of an ended run it says that
the run's state is the final one (R135; log entry 20). -/
def State.quiet (s : State) : Bool := !s.ready .ctrl && !s.ready .audio && !s.resetIn

end Sys2Proof.Machine
end

