-- ==== Sys2Proof/Certificates/Slice0/Obligations.lean ====
section
/-! DEFINITION. The statements for the provers. Numeric status words are `CODE` in bits 7:0 and the opcode in bits 15:8
(R56). -/

open Sys2Proof Sys2Proof.Machine

/-! Encoding -/

/-- Decoding the encoding of a well-formed command gives the command back, whatever follows it (R53, R57). -/
def Obligations.DecodeInvertsEncode : Prop :=
  ∀ (i : Instr) (rest : List Word), i.wellFormed = true → decode (encode i ++ rest) = .instr i rest

/-- A stream that decodes to a command begins with exactly that command's encoding, so every command has one encoding and
no header bit is ignored (R54, R60). -/
def Obligations.EncodeInvertsDecode : Prop :=
  ∀ (ws : List Word) (i : Instr) (rest : List Word),
    decode ws = .instr i rest → i.wellFormed = true ∧ ws = encode i ++ rest

/-- R54: the masks, the match, and which fields a header that matches must have zero. -/
def Obligations.HeaderFormatsReserveFields : Prop :=
  (HeaderFormat.f0.mask = 0xFFFFFFFF#32 ∧ HeaderFormat.fn.mask = 0xFFFF0000#32 ∧ HeaderFormat.fs.mask = 0xFF0FFFFF#32 ∧
    HeaderFormat.fsa.mask = 0xFF00FFFF#32 ∧ HeaderFormat.fa.mask = 0xFFF0FFFF#32) ∧
  ∀ (op : Op) (h : Word),
    (headerMatches op h = true ↔ h &&& op.format.mask = op.code.setWidth 32 <<< 24) ∧
    (headerMatches op h = true ↔
      hdrOpc h = op.code ∧
        match op.format with
        | .f0 => hdrS h = 0 ∧ hdrA h = 0 ∧ hdrN h = 0
        | .fn => hdrS h = 0 ∧ hdrA h = 0
        | .fs => hdrA h = 0 ∧ hdrN h = 0
        | .fsa => hdrN h = 0
        | .fa => hdrS h = 0 ∧ hdrN h = 0)

/-- R58: the header alone fixes the number of operand words, and a packet is consumed whole, whatever its reserved fields
and operands hold. -/
def Obligations.PacketLengthIsFixedByHeader : Prop :=
  ∀ (h : Word) (ws : List Word),
    operandWords h =
        (if hdrOpc h = 0x51#8 then 2 * (h.toNat % 2 ^ 16)
         else if hdrOpc h = 0x10#8 then 4
         else if hdrOpc h = 0x11#8 then 3
         else if hdrOpc h = 0x20#8 then 5
         else if hdrOpc h = 0x22#8 ∨ hdrOpc h = 0x31#8 ∨ hdrOpc h = 0x40#8 then 1
         else if hdrOpc h = 0x30#8 then 20
         else if hdrOpc h = 0x50#8 then 2
         else if hdrOpc h = 0x52#8 then 7
         else 0) ∧
      match decode (h :: ws) with
      | .incomplete => ws.length < operandWords h
      | .instr _ rest | .illegalOpcode _ rest | .illegalFormat _ rest =>
        operandWords h ≤ ws.length ∧ rest = ws.drop (operandWords h)

/-- R65: the worked encodings, as packets followed by nothing. -/
def Obligations.WorkedEncodingsDecode : Prop :=
  decode [0x00000000#32] = .instr .nop [] ∧
  decode [0x01000004#32] = .instr (.rdReg 0x004#16) [] ∧
  decode [0x21610000#32] = .instr (.stageSetBypass 6#4 1#4) [] ∧
  decode [0x22410000#32, 0x3F800000#32] = .instr (.stageProcess 4#4 1#4 0x3F800000#32) [] ∧
  (∀ k0 k1 k2 k3 : Coef,
    decode (0x30110000#32 :: (k0.words ++ k1.words ++ k2.words ++ k3.words)) =
      .instr (.cascadeConfigure 1#4 1#4 k0 k1 k2 k3) []) ∧
  decode [0x41030000#32] = .instr (.chainReset 3#4) [] ∧
  decode [0x50000000#32, 0x472C4400#32, 0x00000200#32] = .instr (.prepare 0x472C4400#32 0x00000200#32) [] ∧
  decode [0x51000002#32, 0x3F800000#32, 0x3F000000#32, 0x00000000#32, 0xBF000000#32] =
    .instr (.processBlock [(0x3F800000#32, 0x3F000000#32), (0x00000000#32, 0xBF000000#32)]) [] ∧
  decode [0x11010000#32, 0x447A0000#32, 0x473B8000#32, 0x00000004#32] =
    .instr (.calcCut 1#4 0x447A0000#32 0x473B8000#32 0x00000004#32) []

/-- Words carried as bytes, least significant byte first, arrive as the same words (R38). -/
def Obligations.HostLinkBytesRoundTrip : Prop :=
  ∀ (ws : List Word),
    wordsOfBytes (ws.flatMap bytesOfWord) = ws ∧
      ∀ b0 b1 b2 b3 : Byte,
        (wordOfBytes b0 b1 b2 b3).toNat =
          b0.toNat + 2 ^ 8 * b1.toNat + 2 ^ 16 * b2.toNat + 2 ^ 24 * b3.toNat

/-- R59: a header whose opcode is unassigned fails with `ILLEGAL_OPCODE`, takes only itself from the port, and changes
nothing else but the port's sticky register. -/
def Obligations.UnassignedOpcodeFails : Prop :=
  ∀ (s t : State) (p : Port) (h : Word) (ws : List Word),
    s.resetIn = false → s.pick = some (p, t) → (t.io p).rx = h :: ws →
    hdrOpc h ∉ [0x00#8, 0x01#8, 0x02#8, 0x10#8, 0x11#8, 0x20#8, 0x21#8, 0x22#8, 0x23#8, 0x30#8, 0x31#8, 0x40#8, 0x41#8,
      0x50#8, 0x51#8, 0x52#8] →
    step s =
      .next ((({ t with port := p } : State).setIO p
          { rx := ws, resp := (t.io p).resp ++ [statusWord (hdrOpc h) .illegalOpcode] }).setErr p
        (if errCode (t.err p) = 0 then statusWord (hdrOpc h) .illegalOpcode else t.err p))

/-- R60: a header with an assigned opcode and a nonzero bit in a field its format does not use fails with
`ILLEGAL_FORMAT`, takes its whole packet, and changes nothing else but the port's sticky register. -/
def Obligations.ReservedFieldFails : Prop :=
  ∀ (s t : State) (p : Port) (h : Word) (ws : List Word) (op : Op),
    s.resetIn = false → s.pick = some (p, t) → (t.io p).rx = h :: ws →
    hdrOpc h = op.code →
    (match op.format with
      | .f0 => hdrS h ≠ 0 ∨ hdrA h ≠ 0 ∨ hdrN h ≠ 0
      | .fn => hdrS h ≠ 0 ∨ hdrA h ≠ 0
      | .fs => hdrA h ≠ 0 ∨ hdrN h ≠ 0
      | .fsa => hdrN h ≠ 0
      | .fa => hdrS h ≠ 0 ∨ hdrN h ≠ 0) →
    step s =
      .next ((({ t with port := p } : State).setIO p
          { rx := ws.drop (operandWords h), resp := (t.io p).resp ++ [statusWord op.code .illegalFormat] }).setErr p
        (if errCode (t.err p) = 0 then statusWord op.code .illegalFormat else t.err p))

/-! The register space -/

/-- The decoded register of an index is the one whose index it is, and no other index maps to it (R36). -/
def Obligations.RegisterMapIsExact : Prop :=
  ∀ (i : Nat) (r : Reg), regOfIndex i = some r ↔ r.index = i

/-- R37: every mapped index reads from both ports, but `HIST` from AUDIO only; an unmapped index is `BAD_REGISTER`; a
read writes nothing. And each index of R36 reads its own element (R110): `ID` is 0x42510001, and `STATUS` is `PREPARED` in
bit 0 and 0 elsewhere (R22, R23). -/
def Obligations.RdRegReadsMappedIndices : Prop :=
  (∀ (s : State) (n : Half),
    (regOfIndex n.toNat = none → exec (.rdReg n) s = .next (s.finish 0x01#8 .badRegister [])) ∧
    ∀ r : Reg, r.index = n.toNat →
      (0x300 ≤ n.toNat ∧ n.toNat ≤ 0x363 ∧ s.port = .ctrl →
        exec (.rdReg n) s = .next (s.finish 0x01#8 .wrongPort [])) ∧
      (n.toNat < 0x300 ∨ s.port = .audio →
        exec (.rdReg n) s = .next (s.respond [0x00000100#32, s.regWord r]))) ∧
  ∀ s : State,
    exec (.rdReg 0x000#16) s = .next (s.respond [0x00000100#32, 0x42510001#32]) ∧
    exec (.rdReg 0x001#16) s = .next (s.respond [0x00000100#32, if s.prepared then 1#32 else 0#32]) ∧
    exec (.rdReg 0x002#16) s = .next (s.respond [0x00000100#32, s.errCtrl]) ∧
    exec (.rdReg 0x003#16) s = .next (s.respond [0x00000100#32, s.errAudio]) ∧
    exec (.rdReg 0x004#16) s = .next (s.respond [0x00000100#32, s.genPub]) ∧
    exec (.rdReg 0x005#16) s = .next (s.respond [0x00000100#32, s.genAct]) ∧
    exec (.rdReg 0x006#16) s = .next (s.respond [0x00000100#32, s.fs]) ∧
    exec (.rdReg 0x007#16) s = .next (s.respond [0x00000100#32, s.maxBlk]) ∧
    (∀ k : Fin 7,
      exec (.rdReg (BitVec.ofNat 16 (0x010 + k.val))) s =
        .next (s.respond [0x00000100#32,
          #v[s.param.peakFreq, s.param.peakGain, s.param.peakQ, s.param.lcFreq, s.param.hcFreq, s.param.lcSlope,
            s.param.hcSlope][k]])) ∧
    (∀ k : Slot,
      (∀ j : Fin 5,
        exec (.rdReg (BitVec.ofNat 16 (0x100 + 8 * k.val + j.val))) s =
          .next (s.respond [0x00000100#32,
            #v[s.pub[k].coef.b0, s.pub[k].coef.b1, s.pub[k].coef.b2, s.pub[k].coef.a1, s.pub[k].coef.a2][j]]) ∧
        exec (.rdReg (BitVec.ofNat 16 (0x200 + 8 * k.val + j.val))) s =
          .next (s.respond [0x00000100#32,
            #v[s.act[k].coef.b0, s.act[k].coef.b1, s.act[k].coef.b2, s.act[k].coef.a1, s.act[k].coef.a2][j]])) ∧
      exec (.rdReg (BitVec.ofNat 16 (0x100 + 8 * k.val + 5))) s =
        .next (s.respond [0x00000100#32, if s.pub[k].byp then 1#32 else 0#32]) ∧
      exec (.rdReg (BitVec.ofNat 16 (0x200 + 8 * k.val + 5))) s =
        .next (s.respond [0x00000100#32, if s.act[k].byp then 1#32 else 0#32])) ∧
    (s.port = .audio →
      ∀ (k : Slot) (j : Fin 4),
        exec (.rdReg (BitVec.ofNat 16 (0x300 + 4 * k.val + j.val))) s =
          .next (s.respond [0x00000100#32,
            #v[s.histL[k].x1, s.histL[k].x2, s.histL[k].y1, s.histL[k].y2][j]]) ∧
        exec (.rdReg (BitVec.ofNat 16 (0x340 + 4 * k.val + j.val))) s =
          .next (s.respond [0x00000100#32,
            #v[s.histR[k].x1, s.histR[k].x2, s.histR[k].y1, s.histR[k].y2][j]]))

/-! Errors and responses -/

/-- A command reports the first failing check in the order of R119 and then has no other effect; with no failing check it
ends with `OK`, or with `COEF_KEPT` for `PREPARE`, and nothing but that ending moves a port's words or response. The codes
are those of R116. -/
def Obligations.FirstFailingCheckIsReported : Prop :=
  ([Status.ok, .illegalOpcode, .illegalFormat, .wrongPort, .badSlot, .badOperand, .domain, .notPrepared, .blockTooLarge,
      .badRegister, .coefKept].map statusCode =
    [0x00#8, 0x01#8, 0x02#8, 0x03#8, 0x04#8, 0x05#8, 0x06#8, 0x07#8, 0x08#8, 0x09#8, 0x0A#8]) ∧
  ∀ (i : Instr) (s : State),
    match firstError i s with
    | some c => exec i s = .next (s.finish i.op.code c [])
    | none =>
      ∃ (t : State) (c : Status) (ws : List Word),
        exec i s = .next (t.finish i.op.code c ws) ∧ (c = .ok ∨ (c = .coefKept ∧ i.op = .prepare)) ∧
          t.port = s.port ∧ ∀ q : Port, t.io q = s.io q

/-- Every command, successful or not, adds exactly one response to its own port: the status word, then the result words
of R57 if the code is `OK` and none otherwise (R34, R56). -/
def Obligations.EveryCommandAnswersOnce : Prop :=
  ∀ (i : Instr) (s : State),
    ∃ (t : State) (c : Status) (ws : List Word),
      exec i s = .next t ∧ t.port = s.port ∧
      t.io s.port = { rx := (s.io s.port).rx, resp := (s.io s.port).resp ++ (statusWord i.op.code c :: ws) } ∧
      (statusWord i.op.code c).toNat = (statusCode c).toNat + 2 ^ 8 * i.op.code.toNat ∧
      (∀ q : Port, q ≠ s.port → t.io q = s.io q) ∧
      (if c = .ok then ws.length = resultCount i else ws = [])

/-- R12: a command that answers a code other than `OK` and `COEF_KEPT` changes no state element except the sticky error
register of its port; its response is the status word alone. -/
def Obligations.FailingCommandHasNoEffect : Prop :=
  ∀ (i : Instr) (s t : State) (c : Status) (ws : List Word),
    exec i s = .next t →
    (t.io s.port).resp = (s.io s.port).resp ++ (statusWord i.op.code c :: ws) →
    c ≠ .ok → c ≠ .coefKept →
    ws = [] ∧
      t = (s.setIO s.port
          { rx := (s.io s.port).rx, resp := (s.io s.port).resp ++ [statusWord i.op.code c] }).setErr s.port
        (t.err s.port)

/-- R120: the first failure on a port is recorded as `{16'0, OPC, CODE}`, later ones are not, and no command writes the
other port's register. -/
def Obligations.StickyRegisterKeepsFirstFailure : Prop :=
  (∀ (s : State) (opc : Byte) (c : Status) (ws : List Word),
    (c ≠ .ok → (s.err s.port).toNat % 2 ^ 8 = 0 →
      ((s.finish opc c ws).err s.port).toNat = (statusCode c).toNat + 2 ^ 8 * opc.toNat) ∧
    (c = .ok ∨ (s.err s.port).toNat % 2 ^ 8 ≠ 0 → (s.finish opc c ws).err s.port = s.err s.port)) ∧
  ∀ (i : Instr) (s t : State), exec i s = .next t →
    (∀ q : Port, q ≠ s.port → t.err q = s.err q) ∧
    (i ≠ .clrErr → (s.err s.port).toNat % 2 ^ 8 ≠ 0 → t.err s.port = s.err s.port)

/-! Who writes what -/

/-- Each element is written only by the commands R16 names, a sticky register only by `CLR_ERR` or a failing command on
its own port; none of them moves the model's own fields (log entries 2 and 3) or the reset input (log entry 7). -/
def Obligations.OnlyNamedCommandsWriteState : Prop :=
  ∀ (i : Instr) (s t : State), exec i s = .next t →
    (t.param ≠ s.param → i.op = .updateParams) ∧
    (t.fs ≠ s.fs ∨ t.maxBlk ≠ s.maxBlk ∨ t.prepared ≠ s.prepared → i.op = .prepare) ∧
    (t.pub ≠ s.pub ∨ t.genPub ≠ s.genPub →
      i.op ∈ [Op.stageSetCoeffs, .stageSetBypass, .cascadeConfigure, .updateParams, .prepare]) ∧
    (t.act ≠ s.act ∨ t.genAct ≠ s.genAct →
      i.op ∈ [Op.stageProcess, .cascadeProcess, .chainProcess, .processBlock]) ∧
    (t.histL ≠ s.histL ∨ t.histR ≠ s.histR →
      i.op ∈ [Op.stageProcess, .cascadeProcess, .chainProcess, .processBlock, .stageReset, .chainReset, .prepare]) ∧
    (∀ q : Port, t.err q ≠ s.err q →
      q = s.port ∧
        (i.op = .clrErr ∨ ∃ c : Status, c ≠ .ok ∧ (t.io q).resp = (s.io q).resp ++ [statusWord i.op.code c])) ∧
    t.resetIn = s.resetIn ∧ t.port = s.port ∧ t.turn = s.turn

/-- A CTRL command leaves history, the active image, the rate registers and the AUDIO port alone; an AUDIO command leaves
`PARAM` and the CTRL port alone, and the published image too unless it is `PREPARE` (R125). -/
def Obligations.PortsOwnTheirState : Prop :=
  ∀ (i : Instr) (s t : State), exec i s = .next t →
    (s.port = .ctrl →
      t.histL = s.histL ∧ t.histR = s.histR ∧ t.act = s.act ∧ t.genAct = s.genAct ∧ t.fs = s.fs ∧
        t.maxBlk = s.maxBlk ∧ t.prepared = s.prepared ∧ t.errAudio = s.errAudio ∧ t.audio = s.audio) ∧
    (s.port = .audio →
      t.param = s.param ∧ t.errCtrl = s.errCtrl ∧ t.ctrl = s.ctrl ∧
        (i.op ≠ .prepare → t.pub = s.pub ∧ t.genPub = s.genPub))

/-- Nothing a CTRL command does or answers depends on the history (R29, R37, R125). -/
def Obligations.HistoryInvisibleToCtrl : Prop :=
  ∀ (i : Instr) (s : State) (hl hr : ChanHist), s.port = .ctrl →
    ∃ t : State, exec i s = .next t ∧
      exec i { s with histL := hl, histR := hr } = .next { t with histL := hl, histR := hr }

/-! Publish and latch -/

/-- The published image changes only together with its generation, by one, in one of the five publishing commands, and
only when the command answers `OK` (R25, R45). -/
def Obligations.PublicationIsCountedOnce : Prop :=
  ∀ (i : Instr) (s t : State), exec i s = .next t →
    (t.pub = s.pub ∧ t.genPub = s.genPub) ∨
    (t.genPub = s.genPub + 1 ∧
      i.op ∈ [Op.stageSetCoeffs, .stageSetBypass, .cascadeConfigure, .updateParams, .prepare] ∧
      (t.io s.port).resp = (s.io s.port).resp ++ [statusWord i.op.code .ok])

/-- A processing command that answers `OK` leaves the published image and its generation as the active ones, and does not
publish; one that fails leaves the active ones alone (R46). -/
def Obligations.ProcessingLatchesPublishedImage : Prop :=
  ∀ (i : Instr) (s t : State) (c : Status) (ws : List Word),
    i.op ∈ [Op.stageProcess, .cascadeProcess, .chainProcess, .processBlock] →
    exec i s = .next t →
    (t.io s.port).resp = (s.io s.port).resp ++ (statusWord i.op.code c :: ws) →
    t.pub = s.pub ∧ t.genPub = s.genPub ∧
      (c = .ok → t.act = s.pub ∧ t.genAct = s.genPub) ∧ (c ≠ .ok → t.act = s.act ∧ t.genAct = s.genAct)

/-! System commands -/

/-- `NOP` only responds (R109). -/
def Obligations.NopOnlyResponds : Prop :=
  ∀ s : State, exec .nop s = .next (s.respond [0x00000000#32])

/-- `CLR_ERR` clears the issuing port's sticky register and nothing else (R111). -/
def Obligations.ClrErrClearsOwnRegister : Prop :=
  ∀ s : State,
    (s.port = .ctrl → exec .clrErr s = .next (({ s with errCtrl := 0 } : State).respond [0x00000200#32])) ∧
    (s.port = .audio → exec .clrErr s = .next (({ s with errAudio := 0 } : State).respond [0x00000200#32]))

/-! The calculator -/

/-- `CALC_PEAK` inside the domain answers the five delivered words of R69 if all are finite, else `DOMAIN`; outside the
domain it is `DOMAIN`. The words depend on the open `TRANSC` (log entry 1). For every `TRANSC` the delivered words are
those of R69's formula, the binary64 operations in its order and grouping, each through `r32` (R66). -/
def Obligations.CalcPeakCompletes : Prop :=
  (∀ (T : Transc) (f q g fs : Word),
    deliver (peakRaw T f q g fs) =
      (let A := T.exp10 (ddiv (to64 g) 0x4044000000000000#64)
       let w := ddiv (dmul (dmul 0x4000000000000000#64 0x400921FB54442D18#64) (to64 f)) (to64 fs)
       let alpha := ddiv (T.sin w) (dmul 0x4000000000000000#64 (to64 q))
       let c := dmul 0xC000000000000000#64 (T.cos w)
       let aA := dmul alpha A
       let aOA := ddiv alpha A
       let a0 := dadd 0x3FF0000000000000#64 aOA
       ⟨r32 (ddiv (dadd 0x3FF0000000000000#64 aA) a0), r32 (ddiv c a0),
        r32 (ddiv (dsub 0x3FF0000000000000#64 aA) a0), r32 (ddiv c a0),
        r32 (ddiv (dsub 0x3FF0000000000000#64 aOA) a0)⟩)) ∧
  ∀ (s : State) (f q g fs : Word),
    (peakDomain f q g fs = true →
      exec (.calcPeak f q g fs) s =
        .next (if coefFinite (deliver (peakRaw Config.transc f q g fs)) = true
          then s.respond (0x00001000#32 :: (deliver (peakRaw Config.transc f q g fs)).words)
          else s.finish 0x10#8 .domain [])) ∧
    (peakDomain f q g fs = false → exec (.calcPeak f q g fs) s = .next (s.finish 0x10#8 .domain []))

/-- `CALC_CUT` with a legal kind and order inside the domain answers the words of its order/2 sections in order if all are
finite, else `DOMAIN`; outside the domain it is `DOMAIN`. The words depend on the open `TRANSC` (log entry 1). For every
`TRANSC` section `k` is R75's or R76's formula over R72's `Q_k`, in binary64, each value through `r32`. -/
def Obligations.CalcCutCompletes : Prop :=
  (∀ (T : Transc) (kd : Kind) (fc fs : Word) (m : Fin 4),
    cutBank T kd fc fs (2 * (m.val + 1)) =
      (List.range (m.val + 1)).map fun k =>
        let odd := [0x3FF0000000000000#64, 0x4008000000000000#64, 0x4014000000000000#64, 0x401C000000000000#64].getD k 0
        let twiceOrder := #v[0x4010000000000000#64, 0x4020000000000000#64, 0x4028000000000000#64, 0x4030000000000000#64][m]
        let q := ddiv 0x3FF0000000000000#64
          (dmul 0x4000000000000000#64 (T.cos (ddiv (dmul odd 0x400921FB54442D18#64) twiceOrder)))
        let t := T.tan (ddiv (dmul 0x400921FB54442D18#64 (to64 fc)) (to64 fs))
        let n := match kd with
          | .hp => t
          | .lp => ddiv 0x3FF0000000000000#64 t
        let n2 := dmul n n
        let iq := ddiv 0x3FF0000000000000#64 q
        let c1 := ddiv 0x3FF0000000000000#64 (dadd (dadd 0x3FF0000000000000#64 (dmul iq n)) n2)
        let a2 := dmul c1 (dadd (dsub 0x3FF0000000000000#64 (dmul iq n)) n2)
        match kd with
        | .hp =>
          ⟨r32 c1, r32 (dmul 0xC000000000000000#64 c1), r32 c1,
            r32 (dmul (dmul c1 0x4000000000000000#64) (dsub n2 0x3FF0000000000000#64)), r32 a2⟩
        | .lp =>
          ⟨r32 c1, r32 (dmul c1 0x4000000000000000#64), r32 c1,
            r32 (dmul (dmul c1 0x4000000000000000#64) (dsub 0x3FF0000000000000#64 n2)), r32 a2⟩) ∧
  ∀ (s : State) (k : Kind) (m : Fin 4) (fc fs : Word),
    (cutDomain fc fs (2 * (m.val + 1)) = true →
      exec (.calcCut (kindField k) fc fs (BitVec.ofNat 32 (2 * (m.val + 1)))) s =
        .next (if (cutBank Config.transc k fc fs (2 * (m.val + 1))).all coefFinite = true
          then s.respond (0x00001100#32 :: (cutBank Config.transc k fc fs (2 * (m.val + 1))).flatMap Coef.words)
          else s.finish 0x11#8 .domain [])) ∧
    (cutDomain fc fs (2 * (m.val + 1)) = false →
      exec (.calcCut (kindField k) fc fs (BitVec.ofNat 32 (2 * (m.val + 1)))) s = .next (s.finish 0x11#8 .domain []))

/-- The binary64 domain checks decide exactly the domains of R68 and R74, and the checks of R107 that need no sample rate,
over the rational values of the operands. -/
def Obligations.CalculatorDomainIsExact : Prop :=
  (∀ (f q g fs : Word) (order : Nat),
    (peakDomain f q g fs = true ↔
      (finite32 fs = true ∧ 0 < value32 fs) ∧ (finite32 f = true ∧ 0 < value32 f ∧ value32 f < value32 fs / 2) ∧
        (finite32 q = true ∧ 0 < value32 q) ∧ finite32 g = true) ∧
    (cutDomain f fs order = true ↔
      order ∈ [2, 4, 6, 8] ∧ (finite32 fs = true ∧ 0 < value32 fs) ∧
        (finite32 f = true ∧ 0 < value32 f ∧ value32 f < value32 fs / 2))) ∧
  ∀ ps : Params,
    unpreparedLegal ps = true ↔
      (finite32 ps.peakFreq = true ∧ 0 < value32 ps.peakFreq) ∧ (finite32 ps.lcFreq = true ∧ 0 < value32 ps.lcFreq) ∧
        (finite32 ps.hcFreq = true ∧ 0 < value32 ps.hcFreq) ∧ (finite32 ps.peakQ = true ∧ 0 < value32 ps.peakQ) ∧
          finite32 ps.peakGain = true

/-- At a gain of either zero the peak set is (1.0, v, u, v, u) whenever the calculator delivers one (R70), for every
`TRANSC` with property 2 of R67. -/
def Obligations.UnityPeakAtZeroGain : Prop :=
  ∀ (T : Transc) (f q g fs : Word) (c : Coef),
    T.Exp10Unit → g = 0x00000000#32 ∨ g = 0x80000000#32 → peakCoeffs T f q g fs = .ok c →
    c.b0 = 0x3F800000#32 ∧ c.b1 = c.a1 ∧ c.b2 = c.a2

/-- `ChainConfigure` installs the peak set, keeping the peak slot's bypass bit, and both banks, with exactly the first
slope code + 1 stages of each cascade running (R94, R96, R100). It answers an image exactly when all three computations
succeed: if any fails there is none. -/
def Obligations.ChainConfigureInstallsWholeImage : Prop :=
  ∀ (T : Transc) (img : Image) (ps : Params) (fs : Word),
    (∀ out : Image, chainConfigure T img ps fs = .ok out →
      ∃ (pk : Coef) (lc hc : List Coef),
        peakCoeffs T ps.peakFreq ps.peakQ ps.peakGain fs = .ok pk ∧
        cutCoeffs T .hp ps.lcFreq fs (2 * (ps.lcSlope.toNat + 1)) = .ok lc ∧
        cutCoeffs T .lp ps.hcFreq fs (2 * (ps.hcSlope.toNat + 1)) = .ok hc ∧
        out[(4 : Slot)] = { coef := pk, byp := img[(4 : Slot)].byp } ∧
        ∀ i : Fin 4,
          (if i.val ≤ ps.lcSlope.toNat
            then lc[i.val]? = some out[cascadeSlot .lc i].coef ∧ out[cascadeSlot .lc i].byp = false
            else out[cascadeSlot .lc i] = { coef := img[cascadeSlot .lc i].coef, byp := true }) ∧
          (if i.val ≤ ps.hcSlope.toNat
            then hc[i.val]? = some out[cascadeSlot .hc i].coef ∧ out[cascadeSlot .hc i].byp = false
            else out[cascadeSlot .hc i] = { coef := img[cascadeSlot .hc i].coef, byp := true })) ∧
    (isErr (peakCoeffs T ps.peakFreq ps.peakQ ps.peakGain fs) = true ∨
        isErr (cutCoeffs T .hp ps.lcFreq fs (2 * (ps.lcSlope.toNat + 1))) = true ∨
        isErr (cutCoeffs T .lp ps.hcFreq fs (2 * (ps.hcSlope.toNat + 1))) = true →
      chainConfigure T img ps fs = .error .domain) ∧
    ((∃ pk : Coef, peakCoeffs T ps.peakFreq ps.peakQ ps.peakGain fs = .ok pk) →
      (∃ lc : List Coef, cutCoeffs T .hp ps.lcFreq fs (2 * (ps.lcSlope.toNat + 1)) = .ok lc) →
      (∃ hc : List Coef, cutCoeffs T .lp ps.hcFreq fs (2 * (ps.hcSlope.toNat + 1)) = .ok hc) →
      ∃ out : Image, chainConfigure T img ps fs = .ok out)

/-- Configuring twice with the same ParameterSet and sample rate gives the same image (R78, R104, R108). -/
def Obligations.ConfigureTwiceGivesSameImage : Prop :=
  ∀ (T : Transc) (img out : Image) (ps : Params) (fs : Word),
    chainConfigure T img ps fs = .ok out → chainConfigure T out ps fs = .ok out

/-- R93, and R71's orders: slope codes 0 to 3 have 1 to 4 active stages and orders 2, 4, 6, 8, whose banks have as many
sections as there are active stages. -/
def Obligations.OrderAndActiveCountOfSlope : Prop :=
  [0, 1, 2, 3].map activeCount = [1, 2, 3, 4] ∧ [0, 1, 2, 3].map orderOfSlope = [2, 4, 6, 8] ∧
  ∀ (T : Transc) (kd : Kind) (fc fs : Word) (sc : Fin 4),
    (cutBank T kd fc fs (orderOfSlope sc.val)).length = activeCount sc.val

/-! One stage -/

/-- `STAGE_SET_COEFFS` on CTRL with a slot and a finite set publishes the image with that slot's set replaced, its bypass
bit kept (R89). -/
def Obligations.StageSetCoeffsCompletes : Prop :=
  ∀ (s : State) (k : Slot) (c : Coef), s.port = .ctrl → coefFinite c = true →
    exec (.stageSetCoeffs (BitVec.ofNat 4 k.val) c) s =
      .next (({ s with pub := s.pub.set k { coef := c, byp := s.pub[k].byp }, genPub := s.genPub + 1 } : State).respond
        [0x00002000#32])

/-- `STAGE_SET_BYPASS` on CTRL publishes the image with that slot's bypass bit replaced, its coefficients kept (R90). -/
def Obligations.StageSetBypassCompletes : Prop :=
  ∀ (s : State) (k : Slot) (b : Bool), s.port = .ctrl →
    exec (.stageSetBypass (BitVec.ofNat 4 k.val) (if b then 1#4 else 0#4)) s =
      .next (({ s with pub := s.pub.set k { coef := s.pub[k].coef, byp := b }, genPub := s.genPub + 1 } : State).respond
        [0x00002100#32])

/-- `STAGE_PROCESS` on AUDIO, once prepared, latches, runs the sample through the one slot on the one channel, and writes
that slot's history alone (R91). -/
def Obligations.StageProcessCompletes : Prop :=
  ∀ (s : State) (k : Slot) (ch : Channel) (x : Word), s.port = .audio → s.prepared = true →
    exec (.stageProcess (BitVec.ofNat 4 k.val) (channelField ch) x) s =
      .next ((({ s with act := s.pub, genAct := s.genPub } : State).setHist ch
          ((s.histOf ch).set k (stageOut s.pub[k] (s.histOf ch)[k] x).2)).respond
        [0x00002200#32, (stageOut s.pub[k] (s.histOf ch)[k] x).1])

/-- `STAGE_RESET` on AUDIO clears the one slot's history on the channels of its mask (R92); `PREPARED` is not
required. -/
def Obligations.StageResetCompletes : Prop :=
  ∀ (s : State) (k : Slot), s.port = .audio →
    exec (.stageReset (BitVec.ofNat 4 k.val) 1#4) s =
      .next (({ s with histL := s.histL.set k ⟨0, 0, 0, 0⟩ } : State).respond [0x00002300#32]) ∧
    exec (.stageReset (BitVec.ofNat 4 k.val) 2#4) s =
      .next (({ s with histR := s.histR.set k ⟨0, 0, 0, 0⟩ } : State).respond [0x00002300#32]) ∧
    exec (.stageReset (BitVec.ofNat 4 k.val) 3#4) s =
      .next (({ s with histL := s.histL.set k ⟨0, 0, 0, 0⟩, histR := s.histR.set k ⟨0, 0, 0, 0⟩ } : State).respond
        [0x00002300#32])

/-- R83: the difference equation in its fixed order of rounded operations, and the new history. -/
def Obligations.StageStepIsDirectFormI : Prop :=
  ∀ (b0 b1 b2 a1 a2 x x1 x2 y1 y2 : Word),
    stageStep ⟨b0, b1, b2, a1, a2⟩ ⟨x1, x2, y1, y2⟩ x =
      (let p0 := fmul b0 x
       let p1 := fmul b1 x1
       let p2 := fmul b2 x2
       let p3 := fmul a1 y1
       let p4 := fmul a2 y2
       let s := fsub (fsub (fadd (fadd p0 p1) p2) p3) p4
       let y := if isNaN32 s = true then 0x7FC00000#32 else s
       (y, ⟨x, x1, y, y1⟩))

/-- R86: a bypassed stage emits its input word bit for bit, an active one its recursion's output, and both update the
history with the recursion. -/
def Obligations.BypassedStageTracks : Prop :=
  ∀ (c : Coef) (h : Hist) (x : Word),
    stageOut { coef := c, byp := false } h x = stageStep c h x ∧
    stageOut { coef := c, byp := true } h x = (x, (stageStep c h x).2)

/-- R84: a NaN the recursion produces is `QNAN32` in the output and in the history, the input word is stored unchanged,
and a NaN operand always gives one. -/
def Obligations.ArithmeticNaNIsCanonical : Prop :=
  ∀ (c : Coef) (h : Hist) (x : Word),
    (stageStep c h x).2.x1 = x ∧ (stageStep c h x).2.y1 = (stageStep c h x).1 ∧
    (isNaN32 (stageStep c h x).1 = true → (stageStep c h x).1 = 0x7FC00000#32) ∧
    (isNaN32 x = true → (stageStep c h x).1 = 0x7FC00000#32) ∧
    (stageOut { coef := c, byp := true } h x).1 = x

/-- A NaN anywhere in a stage's history makes every later output of its recursion `QNAN32`, whatever its coefficients
(R88). -/
def Obligations.NaNHistoryPoisonsLaterOutputs : Prop :=
  ∀ (c : Coef) (h : Hist) (xs : List Word),
    isNaN32 h.x1 = true ∨ isNaN32 h.x2 = true ∨ isNaN32 h.y1 = true ∨ isNaN32 h.y2 = true →
    ∀ y ∈ (stageRun { coef := c, byp := false } h xs).1, y = 0x7FC00000#32

/-- The reset set passes a finite sample other than -0.0 through unchanged from a finite history, and answers `QNAN32`
from a history that holds a NaN or an infinity (R87). -/
def Obligations.IdentitySetPassesFiniteSamples : Prop :=
  ∀ (h : Hist) (x : Word),
    (finite32 x = true → x ≠ 0x80000000#32 →
      finite32 h.x1 = true ∧ finite32 h.x2 = true ∧ finite32 h.y1 = true ∧ finite32 h.y2 = true →
      (stageStep ⟨0x3F800000#32, 0, 0, 0, 0⟩ h x).1 = x) ∧
    (finite32 h.x1 = false ∨ finite32 h.x2 = false ∨ finite32 h.y1 = false ∨ finite32 h.y2 = false →
      (stageStep ⟨0x3F800000#32, 0, 0, 0, 0⟩ h x).1 = 0x7FC00000#32)

/-- The datapath's sum, difference and product of finite words are the exact rational result correctly rounded, ties to
even, subnormals kept, overflow to an infinity; an exact zero sum is -0 only where both terms are, a product has the
exclusive or of the signs, and infinities and NaNs follow IEEE 754: Inf - Inf and 0 × Inf are NaN (R10, R85). R10 and R85
do not say which NaN one operation gives: that each NaN result is the word 0x7FC00000 is the model's (log entry 10), R84
making the recursion's result that word in any case. -/
def Obligations.BinaryOperationsRoundCorrectly : Prop :=
  (∀ x y : Word, finite32 x = true → finite32 y = true →
    RoundsTo (value32 x + value32 y) (fadd x y) ∧ RoundsTo (value32 x - value32 y) (fsub x y) ∧
      RoundsTo (value32 x * value32 y) (fmul x y) ∧
    (value32 x + value32 y = 0 →
      fadd x y = if x = 0x80000000#32 ∧ y = 0x80000000#32 then 0x80000000#32 else 0x00000000#32) ∧
    (value32 x - value32 y = 0 →
      fsub x y = if x = 0x80000000#32 ∧ y = 0x00000000#32 then 0x80000000#32 else 0x00000000#32) ∧
    (fmul x y).msb = (x.msb ^^ y.msb)) ∧
  (∀ x y : Word, isNaN32 x = true ∨ isNaN32 y = true →
    fadd x y = 0x7FC00000#32 ∧ fsub x y = 0x7FC00000#32 ∧ fmul x y = 0x7FC00000#32) ∧
  (∀ i x : Word, i = 0x7F800000#32 ∨ i = 0xFF800000#32 → finite32 x = true →
    fadd i x = i ∧ fadd x i = i ∧ fsub i x = i ∧ fsub x i = i ^^^ 0x80000000#32 ∧
      (value32 x = 0 → fmul i x = 0x7FC00000#32 ∧ fmul x i = 0x7FC00000#32) ∧
      (value32 x ≠ 0 →
        fmul i x = (if (i.msb ^^ x.msb) = true then 0xFF800000#32 else 0x7F800000#32) ∧ fmul x i = fmul i x)) ∧
  (∀ i j : Word, i = 0x7F800000#32 ∨ i = 0xFF800000#32 → j = 0x7F800000#32 ∨ j = 0xFF800000#32 →
    fadd i j = (if i = j then i else 0x7FC00000#32) ∧ fsub i j = (if i = j then 0x7FC00000#32 else i) ∧
      fmul i j = if i = j then 0x7F800000#32 else 0xFF800000#32)

/-- The calculator's binary64 sum, difference, product and quotient of finite operands are the exact rational result
correctly rounded, ties to even, subnormals kept, overflow to an infinity; zeros have IEEE 754's signs, a product and a
quotient the exclusive or of theirs; a nonzero value over zero is an infinity and 0/0, Inf - Inf, 0 × Inf and Inf/Inf are
NaN (R10, R66). `r32` rounds the same way to binary32, `to64` is exact, NaN stays NaN, and `<` compares the values and is
false for a NaN. Which NaN an operation gives is not said (log entry 10). -/
def Obligations.CalculatorArithmeticRoundsCorrectly : Prop :=
  (∀ x y : Double, finite64 x = true → finite64 y = true →
    RoundsTo64 (value64 x + value64 y) (dadd x y) ∧ RoundsTo64 (value64 x - value64 y) (dsub x y) ∧
      RoundsTo64 (value64 x * value64 y) (dmul x y) ∧
    (value64 y ≠ 0 → RoundsTo64 (value64 x / value64 y) (ddiv x y)) ∧
    (value64 x + value64 y = 0 →
      dadd x y = if x = 0x8000000000000000#64 ∧ y = 0x8000000000000000#64 then 0x8000000000000000#64 else 0#64) ∧
    (value64 x - value64 y = 0 →
      dsub x y = if x = 0x8000000000000000#64 ∧ y = 0#64 then 0x8000000000000000#64 else 0#64) ∧
    (dmul x y).msb = (x.msb ^^ y.msb) ∧
    (value64 y ≠ 0 → (ddiv x y).msb = (x.msb ^^ y.msb)) ∧
    (value64 y = 0 → value64 x ≠ 0 → ddiv x y = inf64 (x.msb ^^ y.msb)) ∧
    (value64 y = 0 → value64 x = 0 → isNaN64 (ddiv x y) = true) ∧
    (dlt x y = true ↔ value64 x < value64 y)) ∧
  (∀ x y : Double, isNaN64 x = true ∨ isNaN64 y = true →
    isNaN64 (dadd x y) = true ∧ isNaN64 (dsub x y) = true ∧ isNaN64 (dmul x y) = true ∧ isNaN64 (ddiv x y) = true ∧
      dlt x y = false) ∧
  (∀ (n : Bool) (x : Double), finite64 x = true →
    dadd (inf64 n) x = inf64 n ∧ dadd x (inf64 n) = inf64 n ∧ dsub (inf64 n) x = inf64 n ∧
      dsub x (inf64 n) = inf64 (!n) ∧
    (value64 x = 0 → isNaN64 (dmul (inf64 n) x) = true ∧ isNaN64 (dmul x (inf64 n)) = true) ∧
    (value64 x ≠ 0 → dmul (inf64 n) x = inf64 (n ^^ x.msb) ∧ dmul x (inf64 n) = inf64 (n ^^ x.msb)) ∧
    ddiv (inf64 n) x = inf64 (n ^^ x.msb) ∧
    ddiv x (inf64 n) = (if (n ^^ x.msb) = true then 0x8000000000000000#64 else 0#64) ∧
    dlt (inf64 n) x = n ∧ dlt x (inf64 n) = !n) ∧
  (∀ n : Bool,
    dadd (inf64 n) (inf64 n) = inf64 n ∧ isNaN64 (dadd (inf64 n) (inf64 (!n))) = true ∧
      isNaN64 (dsub (inf64 n) (inf64 n)) = true ∧ dsub (inf64 n) (inf64 (!n)) = inf64 n ∧
    ∀ m : Bool,
      dmul (inf64 n) (inf64 m) = inf64 (n ^^ m) ∧ isNaN64 (ddiv (inf64 n) (inf64 m)) = true ∧
        dlt (inf64 n) (inf64 m) = (n && !m)) ∧
  (∀ x : Double,
    (finite64 x = true → RoundsTo (value64 x) (r32 x) ∧ (r32 x).msb = x.msb) ∧
      (isNaN64 x = true → isNaN32 (r32 x) = true)) ∧
  r32 (inf64 false) = 0x7F800000#32 ∧ r32 (inf64 true) = 0xFF800000#32 ∧
  (∀ x : Word,
    (finite32 x = true → finite64 (to64 x) = true ∧ value64 (to64 x) = value32 x ∧ (to64 x).msb = x.msb) ∧
      (isNaN32 x = true → isNaN64 (to64 x) = true)) ∧
  to64 0x7F800000#32 = inf64 false ∧ to64 0xFF800000#32 = inf64 true

/-! Cascades and chains -/

/-- `CASCADE_CONFIGURE` on CTRL whose active sets are finite publishes an image in which the stages below the active count
hold the bank's sets and run, the others of the cascade keep their sets and are bypassed, and every other slot is
unchanged, the unread sets holding anything (R94, R97). -/
def Obligations.CascadeConfigureCompletes : Prop :=
  ∀ (s : State) (c : Cascade) (sc : Fin 4) (k0 k1 k2 k3 : Coef), s.port = .ctrl →
    (∀ i : Fin 4, i ≤ sc → coefFinite #v[k0, k1, k2, k3][i] = true) →
    ∃ img : Image,
      exec (.cascadeConfigure (cascadeField c) (BitVec.ofNat 4 sc.val) k0 k1 k2 k3) s =
        .next (({ s with pub := img, genPub := s.genPub + 1 } : State).respond [0x00003000#32]) ∧
      (∀ i : Fin 4,
        img[cascadeSlot c i] =
          if i ≤ sc then { coef := #v[k0, k1, k2, k3][i], byp := false }
          else { coef := s.pub[cascadeSlot c i].coef, byp := true }) ∧
      ∀ k : Slot, (∀ i : Fin 4, cascadeSlot c i ≠ k) → img[k] = s.pub[k]

/-- `CASCADE_PROCESS` on AUDIO, once prepared, latches and threads the sample through the cascade's four slots in index
order on the one channel: four `StageOut` steps, each stage's output the next one's input and each slot's history its own
(R95, R98). -/
def Obligations.CascadeProcessCompletes : Prop :=
  ∀ (s : State) (c : Cascade) (ch : Channel) (x : Word), s.port = .audio → s.prepared = true →
    ∀ k0 k1 k2 k3 : Slot,
      [k0, k1, k2, k3] = (match c with
        | .lc => [0, 1, 2, 3]
        | .hc => [5, 6, 7, 8]) →
      let h := s.histOf ch
      let r0 := stageOut s.pub[k0] h[k0] x
      let r1 := stageOut s.pub[k1] h[k1] r0.1
      let r2 := stageOut s.pub[k2] h[k2] r1.1
      let r3 := stageOut s.pub[k3] h[k3] r2.1
      let h' := (((h.set k0 r0.2).set k1 r1.2).set k2 r2.2).set k3 r3.2
      runSlots s.pub [k0, k1, k2, k3] h x = (r3.1, h') ∧
      exec (.cascadeProcess (cascadeField c) (channelField ch) x) s =
        .next ((({ s with act := s.pub, genAct := s.genPub } : State).setHist ch h').respond [0x00003100#32, r3.1])

/-- `CHAIN_PROCESS` on AUDIO, once prepared, latches and threads the sample through the nine slots of the one channel
(R99, R102). -/
def Obligations.ChainProcessCompletes : Prop :=
  ∀ (s : State) (ch : Channel) (x : Word), s.port = .audio → s.prepared = true →
    exec (.chainProcess (channelField ch) x) s =
      .next ((({ s with act := s.pub, genAct := s.genPub } : State).setHist ch
          (chainRun s.pub (s.histOf ch) x).2).respond [0x00004000#32, (chainRun s.pub (s.histOf ch) x).1])

/-- `CHAIN_RESET` on AUDIO clears all nine histories of the channels of its mask (R103); `PREPARED` is not required. -/
def Obligations.ChainResetCompletes : Prop :=
  ∀ (s : State), s.port = .audio →
    exec (.chainReset 1#4) s =
      .next (({ s with histL := Vector.replicate 9 ⟨0, 0, 0, 0⟩ } : State).respond [0x00004100#32]) ∧
    exec (.chainReset 2#4) s =
      .next (({ s with histR := Vector.replicate 9 ⟨0, 0, 0, 0⟩ } : State).respond [0x00004100#32]) ∧
    exec (.chainReset 3#4) s =
      .next (({ s with histL := Vector.replicate 9 ⟨0, 0, 0, 0⟩, histR := Vector.replicate 9 ⟨0, 0, 0, 0⟩ }
        : State).respond [0x00004100#32])

/-- Low cut, peak, high cut is the same as slots 0 to 8 in order: nine `StageOut` steps, each stage's output the next
one's input and each slot's history its own (R99). -/
def Obligations.ChainRunIsNineStagesInOrder : Prop :=
  ∀ (img : Image) (hs : ChanHist) (x : Word),
    chainRun img hs x = runSlots img [0, 1, 2, 3, 4, 5, 6, 7, 8] hs x ∧
    chainRun img hs x =
      (let r0 := stageOut img[0] hs[0] x
       let r1 := stageOut img[1] hs[1] r0.1
       let r2 := stageOut img[2] hs[2] r1.1
       let r3 := stageOut img[3] hs[3] r2.1
       let r4 := stageOut img[4] hs[4] r3.1
       let r5 := stageOut img[5] hs[5] r4.1
       let r6 := stageOut img[6] hs[6] r5.1
       let r7 := stageOut img[7] hs[7] r6.1
       let r8 := stageOut img[8] hs[8] r7.1
       (r8.1, #v[r0.2, r1.2, r2.2, r3.2, r4.2, r5.2, r6.2, r7.2, r8.2]))

/-! The processor -/

/-- `PREPARE` on AUDIO with a legal limit and rate sets them, clears all history, and publishes the image of `PARAM` at
that rate, or keeps the image and answers `COEF_KEPT` where there is none (R104, R117). Which of the two may depend on
the open `TRANSC` (log entry 1). -/
def Obligations.PrepareCompletes : Prop :=
  ∀ (s : State) (fs mb : Word), s.port = .audio → 1 ≤ mb.toNat → mb.toNat ≤ 65535 →
    finitePositive fs = true →
    exec (.prepare fs mb) s =
      .next (
        let u : State := { s with fs := fs, maxBlk := mb, prepared := true, histL := zeroChan, histR := zeroChan }
        match chainConfigure Config.transc s.pub s.param fs with
        | .ok img => ({ u with pub := img, genPub := s.genPub + 1 } : State).respond [0x00005000#32]
        | .error _ => u.finish 0x50#8 .coefKept [])

/-- `PREPARE` at a rate that a frequency of `PARAM` does not lie below half of completes with `COEF_KEPT`, keeping the
image and its generation (R117, R140). -/
def Obligations.PrepareKeepsImageOutsideDomain : Prop :=
  ∀ (s : State) (fs mb : Word), s.port = .audio → 1 ≤ mb.toNat → mb.toNat ≤ 65535 →
    finitePositive fs = true →
    freqLegal s.param.peakFreq fs = false ∨ freqLegal s.param.lcFreq fs = false ∨ freqLegal s.param.hcFreq fs = false →
    exec (.prepare fs mb) s =
      .next (({ s with fs := fs, maxBlk := mb, prepared := true, histL := zeroChan, histR := zeroChan } :
        State).finish 0x50#8 .coefKept [])

/-- `PROCESS_BLOCK` on AUDIO, once prepared, of at most `MAXBLK` frames, 0 included, latches once and answers two words
a frame (R105). -/
def Obligations.ProcessBlockCompletes : Prop :=
  ∀ (s : State) (frames : List (Word × Word)), s.port = .audio → s.prepared = true →
    frames.length ≤ s.maxBlk.toNat →
    exec (.processBlock frames) s =
      .next (
        let r := runFrames s.pub frames s.histL s.histR
        ({ s with act := s.pub, genAct := s.genPub, histL := r.2.1, histR := r.2.2 } : State).respond
          (0x00005100#32 :: r.1))

/-- The left channel's outputs and history do not depend on the right channel's samples or history, nor the other way
round (R99, R105). -/
def Obligations.ChannelsShareNoHistory : Prop :=
  ∀ (img : Image) (L R L' R' : List Word) (hl hr hl' hr' : ChanHist),
    L.length = R.length → L'.length = L.length → R'.length = R.length →
    (runFrames img (L.zip R) hl hr).2.1 = (runFrames img (L.zip R') hl hr').2.1 ∧
    (runFrames img (L.zip R) hl hr).2.2 = (runFrames img (L'.zip R) hl' hr).2.2 ∧
    ∀ k : Nat,
      (runFrames img (L.zip R) hl hr).1[2 * k]? = (runFrames img (L.zip R') hl hr').1[2 * k]? ∧
      (runFrames img (L.zip R) hl hr).1[2 * k + 1]? = (runFrames img (L'.zip R) hl' hr).1[2 * k + 1]?

/-- A block of at least one frame gives the outputs and leaves the state of one `CHAIN_PROCESS` a sample, with no
publication between them, in every interleaving that keeps each channel's order, left before right in each frame among
them (R106). That the responses of the commands stand one after the other, none read in between, is the model's choice
(log entry 16); the port would wait for each to be read (R34). -/
def Obligations.BlockEqualsChainCommands : Prop :=
  ∀ (s : State) (frames : List (Word × Word)), s.port = .audio → s.prepared = true →
    frames.length ≤ s.maxBlk.toNat → frames ≠ [] →
    ∃ (hl hr : ChanHist) (out : List (Word × Word)),
      exec (.processBlock frames) s =
        .next (({ s with act := s.pub, genAct := s.genPub, histL := hl, histR := hr } : State).respond
          (0x00005100#32 :: frameWords out)) ∧
      chainCommands (frameSamples frames) s =
        ({ s with act := s.pub, genAct := s.genPub, histL := hl, histR := hr } : State).respond
          ((frameWords out).flatMap fun y => [0x00004000#32, y]) ∧
      ∀ cs : List (Channel × Word),
        samplesOf .left cs = frames.map (·.1) → samplesOf .right cs = frames.map (·.2) →
        ∃ res : List (Channel × Word),
          res.map (·.1) = cs.map (·.1) ∧
          samplesOf .left res = out.map (·.1) ∧ samplesOf .right res = out.map (·.2) ∧
          chainCommands cs s =
            ({ s with act := s.pub, genAct := s.genPub, histL := hl, histR := hr } : State).respond
              (res.flatMap fun r => [0x00004000#32, r.2])

/-- `UPDATE_PARAMS` on CTRL with legal slopes: before the first `PREPARE` it stores a legal ParameterSet and publishes
nothing, and rejects another; once prepared it stores the set and publishes its image in one step, or fails with
`DOMAIN`, which may depend on the open `TRANSC` (R107, R108; log entry 1). -/
def Obligations.UpdateParamsCompletes : Prop :=
  ∀ (s : State) (ps : Params), s.port = .ctrl → ps.lcSlope.toNat ≤ 3 → ps.hcSlope.toNat ≤ 3 →
    (s.prepared = false → unpreparedLegal ps = true →
      exec (.updateParams ps) s = .next (({ s with param := ps } : State).respond [0x00005200#32])) ∧
    (s.prepared = false → unpreparedLegal ps = false →
      exec (.updateParams ps) s = .next (s.finish 0x52#8 .domain [])) ∧
    (s.prepared = true →
      exec (.updateParams ps) s =
        .next (match chainConfigure Config.transc s.pub ps s.fs with
          | .ok img =>
            ({ s with param := ps, pub := img, genPub := s.genPub + 1 } : State).respond [0x00005200#32]
          | .error _ => s.finish 0x52#8 .domain []))

/-! Ports and steps -/

/-- A step runs the command its chosen port's words decode to, taken from the port, with that port as the issuing one
(R32, R33, R42; the issuing port is held as log entry 3 says). -/
def Obligations.StepRunsDecodedCommand : Prop :=
  ∀ (s t : State) (p : Port) (i : Instr) (rest : List Word),
    s.resetIn = false → s.pick = some (p, t) → decode (t.io p).rx = .instr i rest →
    step s = exec i (({ t with port := p } : State).setIO p { rx := rest, resp := (t.io p).resp })

/-- A port has a step exactly when it holds a complete packet and no unread response; the port that runs is such a port,
the only one if there is only one, and the choice changes nothing but the model's turn; with no such port the block stays
as it is (R33, R34, R43, R129), which is the model's idle step: the spec says such a port has no step (log entry 5). Which
of two ready ports runs is open (log entry 2): every endless sequence of steps, some with both ports ready and the one
that ran given, the others running a port alone or resetting, is a run of the turn, if only no port is passed over for
ever (R43, R44). -/
def Obligations.PickedPortIsReady : Prop :=
  (∀ s : State,
    (∀ p : Port, s.ready p = true ↔
      (s.io p).resp = [] ∧ ∃ (h : Word) (ws : List Word), (s.io p).rx = h :: ws ∧ operandWords h ≤ ws.length) ∧
    (∀ (p : Port) (t : State), s.pick = some (p, t) → s.ready p = true ∧ ({ t with turn := s.turn } : State) = s) ∧
    (∀ p q : Port, p ≠ q → s.ready p = true → s.ready q = false →
      s.pick = some (p, { s with turn := s.turn.next Config.firstPort Config.patience false })) ∧
    (s.ready .ctrl = true → s.ready .audio = true →
      s.pick =
        some (s.turn.winner Config.firstPort, { s with turn := s.turn.next Config.firstPort Config.patience true })) ∧
    (s.resetIn = false → s.ready .ctrl = false → s.ready .audio = false → step s = .next s)) ∧
  ∀ ties : Nat → Option Port,
    (∀ (n : Nat) (p : Port), ties n = some p → ∃ m : Nat, n < m ∧ ties m ≠ some p) →
    ∃ (first : Nat → Port) (patience : Nat → Nat),
      ∀ (n : Nat) (p : Port), ties n = some p → (turnAt first patience ties n).winner first = p

/-- In a step that is no reset each port either holds, its words and its response untouched, or takes its first packet
whole from its words and answers, which needs an empty response buffer; and at most one port moves (R33, R34, R42). -/
def Obligations.PortHoldsOrRunsOnePacket : Prop :=
  ∀ (s t : State), s.resetIn = false → step s = .next t →
    (t.ctrl = s.ctrl ∨ t.audio = s.audio) ∧
    ∀ p : Port,
      t.io p = s.io p ∨
      ∃ (h : Word) (ws : List Word),
        (s.io p).rx = h :: ws ∧ operandWords h ≤ ws.length ∧ (s.io p).resp = [] ∧
        (t.io p).rx = ws.drop (operandWords h) ∧ (t.io p).resp ≠ []

/-- Every execution with endlessly many steps is weakly fair: a port with a complete packet and no unread response
eventually executes it, whatever the host sends and reads in between, unless a reset discards the packet (R34, R44). That
rests on the model's turn (log entry 2), and so does the other clause: with no host move between them, two steps are
enough. R44 itself gives no bound; the second of the two steps may be the model's idle step (log entry 5). -/
def Obligations.ReadyPortRunsWithinTwoSteps : Prop :=
  (∀ (s : State) (p : Port), s.resetIn = false → s.ready p = true →
    ∃ t u : State, step s = .next t ∧ step t = .next u ∧ (u.io p).resp ≠ []) ∧
  ∀ (ms : Nat → Move) (r : Run), (∀ n : Nat, ∃ m : Nat, n ≤ m ∧ ms m = .step) → r.weaklyFair ms

/-- No step stops with a fault or a refusal: "Every command, with every operand word, has one defined outcome"
(93_implementation_defined.md) and there is no trap (R121), from which the model concludes that nothing stops it (log
entry 9); with no command to run it idles (log entry 5). -/
def Obligations.StepNeverStops : Prop :=
  ∀ s : State, ∃ t : State, step s = .next t

/-! Reset and invariants -/

/-- A step with the reset input asserted sets every element to its reset value, whatever the ports hold (R131). That the
request is held until then and cleared by the step, and that no port then waits in the model's turn while its count of
free choices goes on, are the model's choices (log entries 7 and 2). -/
def Obligations.ResetSetsEveryElement : Prop :=
  ∀ s : State, s.resetIn = true →
    ∃ t : State, step s = .next t ∧
      t.param = ⟨0x443B8000#32, 0x00000000#32, 0x3F800000#32, 0x41A00000#32, 0x469C4000#32, 0#32, 0#32⟩ ∧
      t.fs = 0 ∧ t.maxBlk = 0 ∧ t.prepared = false ∧ t.errCtrl = 0 ∧ t.errAudio = 0 ∧ t.genPub = 0 ∧ t.genAct = 0 ∧
      (∀ k : Slot,
        t.pub[k] = { coef := ⟨0x3F800000#32, 0, 0, 0, 0⟩, byp := !(k == 0 || k == 4 || k == 5) } ∧
        t.act[k] = t.pub[k] ∧ t.histL[k] = ⟨0, 0, 0, 0⟩ ∧ t.histR[k] = ⟨0, 0, 0, 0⟩) ∧
      t.ctrl = { rx := [], resp := [] } ∧ t.audio = { rx := [], resp := [] } ∧ t.regWord .id = 0x42510001#32 ∧
      t.resetIn = false ∧ t.turn = { waiting := none, draws := s.turn.draws }

/-- The reset state meets the invariant (R20, R21, R24, R30). -/
def Obligations.ResetStateMeetsInvariant : Prop := State.reset.inv = true

/-- Every step keeps the invariant: finite coefficients in both images, a legal ParameterSet, a legal rate and limit once
prepared, and well-formed sticky registers (R20, R21, R24, R30). The legal ParameterSet leaves out R20's "< FS/2 when
prepared", which a `PREPARE` that ends with COEF_KEPT does not keep (log entry 12). -/
def Obligations.StepKeepsInvariant : Prop :=
  ∀ s t : State, s.inv = true → step s = .next t → t.inv = true

/-- Every execution keeps the invariant, whatever words the host sends, reads and resets in between (R30, R43). And
without a reset no response word is lost: what the host has received on a port, with what it has still to read there,
only grows, at its end, so that the final state of R135 has every response (R34). -/
def Obligations.ExecutionsKeepInvariant : Prop :=
  ∀ (ms : List Move) (r : Run),
    (r.state.inv = true → (r.moves ms).state.inv = true) ∧
    (r.state.resetIn = false → Move.reset ∉ ms →
      ∀ p : Port, ∃ ws : List Word,
        (r.moves ms).received p ++ ((r.moves ms).state.io p).resp = r.received p ++ (r.state.io p).resp ++ ws)

/-! The real filters -/

/-- The cut sections of the calculator and those of the real-number helpers are one formula, R72's, R75's and R76's, in
binary64 over `TRANSC` and in real arithmetic (R66). In real arithmetic each Butterworth section has magnitude `Q_k` at
its cutoff, and the cascade of either kind and of every order has 1/√2 there (R82). -/
def Obligations.ButterworthCutoffMagnitude : Prop :=
  (∀ (T : Transc) (kd : Kind) (fc fs : Word) (order k : ℕ),
    let c := cutRaw T kd fc fs order k
    (c.b0, c.b1, c.b2, c.a1, c.a2) = (Arith.binary64 T).cutSection kd (to64 fc) (to64 fs) order k) ∧
  (∀ (kd : Kind) (order k : ℕ) (fc fs : ℝ), k < order / 2 →
    let c := (realBank kd fc fs order).getD k (realHp 1 1)
    (c.b0, c.b1, c.b2, c.a1, c.a2) = Arith.real.cutSection kd fc fs order k) ∧
  ∀ (kd : Kind) (order : ℕ) (fc fs : ℝ), order ∈ [2, 4, 6, 8] → 0 < fc → fc < fs / 2 →
    (∀ k : ℕ, k < order / 2 →
      magnitude ((realBank kd fc fs order).getD k (realHp 1 1)) fc fs = realQ order k) ∧
    cascadeMagnitude (realBank kd fc fs order) fc fs = 1 / Real.sqrt 2
end

