-- ==== Sys2Proof/Laws/Datapath.lean ====
section
/-! SUPPORT. Images and histories slot by slot: what installing a bank leaves in each slot, and which histories a run
through some slots leaves alone. -/

namespace Sys2Proof.Machine

theorem tabulate_getElem {α : Type} (f : Slot → α) (k : Slot) : (tabulate f)[k] = f k := by
  revert k
  simp only [Fin.forall_fin_succ]
  refine ⟨rfl, rfl, rfl, rfl, rfl, rfl, rfl, rfl, rfl, ?_⟩
  exact fun i => i.elim0

theorem stageIndex_cascadeSlot (c : Cascade) (i : Fin 4) : stageIndex c (cascadeSlot c i) = some i.val := by
  revert i; cases c <;> decide

theorem stageIndex_none {c : Cascade} {k : Slot} : stageIndex c k = none ↔ ∀ i, cascadeSlot c i ≠ k := by
  revert k; cases c <;> decide

/-- Every slot after an installation (R94). -/
theorem cascadeInstall_getElem (img : Image) (c : Cascade) (bank : List Coef) (sc : Nat) (k : Slot) :
    (cascadeInstall img c bank sc)[k] =
      match stageIndex c k with
      | none => img[k]
      | some i =>
        if i < activeCount sc then { coef := bank.getD i img[k].coef, byp := false }
        else { coef := img[k].coef, byp := true } :=
  tabulate_getElem _ k

/-- One of a cascade's slots after an installation in it (R94). -/
theorem cascadeInstall_own (img : Image) (c : Cascade) (bank : List Coef) (sc : Nat) (i : Fin 4) :
    (cascadeInstall img c bank sc)[cascadeSlot c i] =
      if i.val < activeCount sc then { coef := bank.getD i img[cascadeSlot c i].coef, byp := false }
      else { coef := img[cascadeSlot c i].coef, byp := true } := by
  rw [cascadeInstall_getElem, stageIndex_cascadeSlot]

/-- The other slots after an installation (R94). -/
theorem cascadeInstall_other (img : Image) {c : Cascade} (bank : List Coef) (sc : Nat) {k : Slot}
    (h : ∀ i, cascadeSlot c i ≠ k) : (cascadeInstall img c bank sc)[k] = img[k] := by
  rw [cascadeInstall_getElem, stageIndex_none.mpr h]

theorem runSlots_append (img : Image) (ks ls : List Slot) (hs : ChanHist) (x : Word) :
    runSlots img (ks ++ ls) hs x = runSlots img ls (runSlots img ks hs x).2 (runSlots img ks hs x).1 := by
  induction ks generalizing hs x with
  | nil => rfl
  | cons k ks ih => simp [runSlots, ih]

/-- A run leaves the histories of the slots it does not pass through (R95). -/
theorem runSlots_other (img : Image) {ks : List Slot} {k : Slot} (h : k ∉ ks) (hs : ChanHist) (x : Word) :
    (runSlots img ks hs x).2[k] = hs[k] := by
  induction ks generalizing hs x with
  | nil => rfl
  | cons l ks ih =>
    simp only [List.mem_cons, not_or] at h
    rw [runSlots, ih h.2]
    have : l.val ≠ k.val := fun e => h.1 (Fin.ext e.symm)
    simp [Fin.getElem_fin, Vector.getElem_set_ne, this]

/-- A block's outputs are two words a frame (R105). -/
@[simp] theorem runFrames_length (img : Image) (frames : List (Word × Word)) (hl hr : ChanHist) :
    (runFrames img frames hl hr).1.length = 2 * frames.length := by
  induction frames generalizing hl hr with
  | nil => rfl
  | cons f fs ih => obtain ⟨l, r⟩ := f; simp [runFrames, ih]; omega

end Sys2Proof.Machine
end

