-- ==== Sys2Proof/Laws/Decode.lean ====
section
/-! SUPPORT. Header fields, opcodes, operand lists and packets: how they are put together and taken apart. -/

namespace Sys2Proof

@[simp] theorem hdrOpc_mkHeader (opc : Byte) (s a : Nibble) (n : Half) : hdrOpc (mkHeader opc s a n) = opc := by
  unfold hdrOpc mkHeader; ext i hi; simp; grind

@[simp] theorem hdrS_mkHeader (opc : Byte) (s a : Nibble) (n : Half) : hdrS (mkHeader opc s a n) = s := by
  unfold hdrS mkHeader; ext i hi; simp; grind

@[simp] theorem hdrA_mkHeader (opc : Byte) (s a : Nibble) (n : Half) : hdrA (mkHeader opc s a n) = a := by
  unfold hdrA mkHeader; ext i hi; simp; grind

@[simp] theorem hdrN_mkHeader (opc : Byte) (s a : Nibble) (n : Half) : hdrN (mkHeader opc s a n) = n := by
  unfold hdrN mkHeader; ext i hi; simp; grind

/-- A header is its four fields (R53). -/
theorem mkHeader_fields (h : Word) : mkHeader (hdrOpc h) (hdrS h) (hdrA h) (hdrN h) = h := by
  unfold hdrOpc hdrS hdrA hdrN mkHeader
  ext i hi; simp; grind

theorem mkHeader_inj {o p : Byte} {s t a b : Nibble} {n m : Half} :
    mkHeader o s a n = mkHeader p t b m ↔ o = p ∧ s = t ∧ a = b ∧ n = m := by
  constructor
  · intro h
    refine ⟨?_, ?_, ?_, ?_⟩
    · simpa using congrArg hdrOpc h
    · simpa using congrArg hdrS h
    · simpa using congrArg hdrA h
    · simpa using congrArg hdrN h
  · rintro ⟨rfl, rfl, rfl, rfl⟩; rfl

/-- Masking a header masks its fields one by one (R54). -/
theorem mkHeader_and (o : Byte) (s a : Nibble) (n : Half) (m : Word) :
    mkHeader o s a n &&& m = mkHeader (o &&& hdrOpc m) (s &&& hdrS m) (a &&& hdrA m) (n &&& hdrN m) := by
  conv => lhs; rw [← mkHeader_fields m]
  unfold mkHeader
  rw [BitVec.and_append, BitVec.and_append, BitVec.and_append]

@[simp] theorem ofCode_code (op : Op) : Op.ofCode op.code = some op := by cases op <;> decide

theorem code_of_ofCode {b : Byte} {op : Op} (h : Op.ofCode b = some op) : op.code = b := by
  simpa using List.find?_some h

theorem takeFrames_frameWords (fs : List (Word × Word)) (rest : List Word) :
    takeFrames fs.length (frameWords fs ++ rest) = fs := by
  induction fs with
  | nil => simp [takeFrames, frameWords]
  | cons f fs ih => obtain ⟨l, r⟩ := f; simp [takeFrames, frameWords, ih]

@[simp] theorem frameWords_length (fs : List (Word × Word)) : (frameWords fs).length = 2 * fs.length := by
  induction fs with
  | nil => simp [frameWords]
  | cons f fs ih => obtain ⟨l, r⟩ := f; simp [frameWords, ih]; omega

theorem takeFrames_length {n : Nat} {ws : List Word} (h : 2 * n ≤ ws.length) : (takeFrames n ws).length = n := by
  induction n generalizing ws with
  | zero => simp [takeFrames]
  | succ n ih =>
    match ws, h with
    | l :: r :: ws, h => simp [takeFrames, ih (ws := ws) (by simp at h; omega)]

theorem frameWords_takeFrames {n : Nat} {ws : List Word} (h : 2 * n ≤ ws.length) :
    frameWords (takeFrames n ws) = ws.take (2 * n) := by
  induction n generalizing ws with
  | zero => simp [takeFrames, frameWords]
  | succ n ih =>
    match ws, h with
    | l :: r :: ws, h => simp [takeFrames, frameWords, Nat.mul_succ, ih (ws := ws) (by simp at h; omega)]

end Sys2Proof
end

