-- ==== Sys2Proof/Laws/Flags.lean ====
section
/-! SUPPORT. The status word and the sticky register's `CODE` field as numbers. -/

namespace Sys2Proof.Machine

theorem statusCode_injective {c d : Status} (h : statusCode c = statusCode d) : c = d := by
  revert h; cases c <;> cases d <;> decide

theorem statusWord_toNat (b : Byte) (c : Status) :
    (statusWord b c).toNat = (statusCode c).toNat + 2 ^ 8 * b.toNat := by
  have hc := (statusCode c).isLt
  unfold statusWord
  generalize statusCode c = e at *
  simp only [BitVec.toNat_append, BitVec.toNat_ofNat, Nat.zero_mod, Nat.zero_shiftLeft, Nat.zero_or]
  rw [← Nat.shiftLeft_add_eq_or_of_lt hc, Nat.shiftLeft_eq]
  omega

theorem errCode_statusWord (b : Byte) (c : Status) : errCode (statusWord b c) = statusCode c := by
  apply BitVec.eq_of_toNat_eq
  have := (statusCode c).isLt
  simp only [errCode, BitVec.extractLsb'_toNat, statusWord_toNat, Nat.shiftRight_zero]
  omega

/-- The status is read back from a status word (R56). -/
theorem statusWord_injective {b : Byte} {c d : Status} (h : statusWord b c = statusWord b d) : c = d := by
  apply statusCode_injective
  rw [← errCode_statusWord b c, h, errCode_statusWord]

theorem errCode_eq_zero {w : Word} : errCode w = 0 ↔ w.toNat % 2 ^ 8 = 0 := by
  rw [← BitVec.toNat_inj]
  simp [errCode, BitVec.extractLsb'_toNat]

/-- The status word of each command that ends with `OK` (R56, R57). -/
theorem statusWord_ok (op : Op) :
    statusWord op.code .ok =
      match op with
      | .nop => 0x00000000#32
      | .rdReg => 0x00000100#32
      | .clrErr => 0x00000200#32
      | .calcPeak => 0x00001000#32
      | .calcCut => 0x00001100#32
      | .stageSetCoeffs => 0x00002000#32
      | .stageSetBypass => 0x00002100#32
      | .stageProcess => 0x00002200#32
      | .stageReset => 0x00002300#32
      | .cascadeConfigure => 0x00003000#32
      | .cascadeProcess => 0x00003100#32
      | .chainProcess => 0x00004000#32
      | .chainReset => 0x00004100#32
      | .prepare => 0x00005000#32
      | .processBlock => 0x00005100#32
      | .updateParams => 0x00005200#32 := by
  cases op <;> decide

end Sys2Proof.Machine
end

