-- ==== Sys2Proof/Laws/Float.lean ====
section
/-! SUPPORT. The rounding function and the encodings: rounding depends on the ratio alone, a representable number of
units rounds to itself, packing and unpacking, and NaN operands. -/

namespace Sys2Proof.Machine

variable (f : Format)

/-- The position of the leading bit of a nonzero number with its hidden bit set. -/
theorem log2_significand {frac m e : Nat} (h : m < 2 ^ frac) : ((2 ^ frac + m) * 2 ^ e).log2 = frac + e := by
  have hp : 0 < 2 ^ e := by positivity
  have h0 : (2 ^ frac + m) * 2 ^ e ≠ 0 := by positivity
  rw [Nat.log2_eq_iff h0]
  constructor
  · rw [pow_add]; exact Nat.mul_le_mul_right _ (by omega)
  · rw [show frac + e + 1 = (frac + 1) + e by omega, pow_add]
    exact Nat.mul_lt_mul_of_pos_right (by rw [pow_succ]; omega) hp

/-- Rounding depends on the ratio only. -/
theorem Format.roundMag_mul (num den k : Nat) (hk : 0 < k) :
    f.roundMag (num * k) (den * k) = f.roundMag num den := by
  unfold Format.roundMag
  simp only [Nat.mul_div_mul_right _ _ hk]
  generalize (num / den).log2 - f.frac = e
  rw [show den * k * 2 ^ e = den * 2 ^ e * k by ring, Nat.mul_div_mul_right _ _ hk, Nat.mul_mod_mul_right]
  generalize den * 2 ^ e = d
  generalize num / d = q
  generalize num % d = r
  have h1 : d * k < 2 * (r * k) ↔ d < 2 * r := by
    rw [← Nat.mul_assoc]; exact Nat.mul_lt_mul_right hk
  have h2 : 2 * (r * k) = d * k ↔ 2 * r = d := by
    rw [← Nat.mul_assoc]; exact Nat.mul_left_inj (by omega)
  simp only [h1, h2]

/-- A representable number of units rounds to its own magnitude field. -/
theorem Format.roundMag_unitsOf {mag : Nat} (h : mag < f.infMag) : f.roundMag (f.unitsOf mag) 1 = mag := by
  unfold Format.roundMag Format.unitsOf
  have hdm := Nat.div_add_mod mag (2 ^ f.frac)
  have hm := Nat.mod_lt mag (show 0 < 2 ^ f.frac by positivity)
  generalize hE : mag / 2 ^ f.frac = E at *
  generalize mag % 2 ^ f.frac = m at *
  by_cases hz : E = 0
  · subst hz
    simp only [Nat.mul_zero, Nat.zero_add] at hdm
    subst hdm
    have he : Nat.log2 m - f.frac = 0 := by
      by_cases h0 : m = 0
      · subst h0; simp
      · have := (Nat.log2_lt h0).mpr hm; omega
    simp [he, Nat.mod_one, Nat.min_eq_left h.le]
  · obtain ⟨e, rfl⟩ := Nat.exists_eq_succ_of_ne_zero hz
    have hp : 0 < 2 ^ e := by positivity
    simp only [if_neg hz, Nat.succ_eq_add_one, Nat.add_sub_cancel, Nat.div_one, log2_significand hm, Nat.one_mul,
      Nat.add_sub_cancel_left, Nat.mul_div_cancel _ hp, Nat.mul_mod_left, Nat.mul_zero]
    rw [if_neg (by omega), Nat.add_zero, Nat.min_eq_left]
    · rw [← hdm, Nat.succ_eq_add_one]; ring
    · rw [show e * 2 ^ f.frac + (2 ^ f.frac + m) = mag by rw [← hdm, Nat.succ_eq_add_one]; ring]
      exact h.le

/-- What an encoding reads as, by its magnitude field. -/
theorem Format.unpack_pack {neg : Bool} {mag : Nat} (h : mag < f.signBit) :
    f.unpack (f.pack neg mag) =
      if mag < f.infMag then .fin neg (f.unitsOf mag) else if mag = f.infMag then .inf neg else .nan := by
  unfold Format.unpack Format.pack
  cases neg
  · simp [Nat.mod_eq_of_lt h, Nat.not_le.mpr h]
  · simp [Nat.add_mod_left, Nat.mod_eq_of_lt h]

theorem Format.unpack_nan {x : Nat} (h : f.isNaN x = true) : f.unpack x = .nan := by
  simp only [Format.isNaN, decide_eq_true_eq] at h
  simp [Format.unpack, Nat.not_lt.mpr h.le, Nat.ne_of_gt h]

theorem Format.unpack_finite {x : Nat} (h : f.finite x = true) :
    f.unpack x = .fin (decide (f.signBit ≤ x)) (f.unitsOf (x % f.signBit)) := by
  simp only [Format.finite, decide_eq_true_eq] at h
  simp [Format.unpack, h]

theorem Format.add_nan_left {x : Nat} (h : f.isNaN x = true) (y : Nat) : f.add x y = f.qnan := by
  simp [Format.add, f.unpack_nan h]

theorem Format.add_nan_right {y : Nat} (h : f.isNaN y = true) (x : Nat) : f.add x y = f.qnan := by
  unfold Format.add
  rw [f.unpack_nan h]
  cases f.unpack x <;> rfl

theorem Format.mul_nan_left {x : Nat} (h : f.isNaN x = true) (y : Nat) : f.mul x y = f.qnan := by
  simp [Format.mul, f.unpack_nan h]

theorem Format.mul_nan_right {y : Nat} (h : f.isNaN y = true) (x : Nat) : f.mul x y = f.qnan := by
  unfold Format.mul
  rw [f.unpack_nan h]
  cases f.unpack x <;> rfl

theorem binary32_qnan : binary32.qnan = 0x7FC00000 := by decide

end Sys2Proof.Machine
end

