-- ==== Sys2Proof/Laws/Operands.lean ====
section
/-! SUPPORT. The checks and operand forms, each said once: which values pass and what they become. -/

namespace Sys2Proof.Machine

variable {α β : Type}

@[simp] theorem ok_bind (a : α) (f : α → Except Status β) : (Except.ok a >>= f) = f a := rfl
@[simp] theorem error_bind (c : Status) (f : α → Except Status β) :
    ((Except.error c : Except Status α) >>= f) = .error c := rfl
@[simp] theorem pure_eq_ok (a : α) : (pure a : Except Status α) = .ok a := rfl

theorem bind_eq_ok {x : Except Status α} {f : α → Except Status β} {b : β} :
    (x >>= f) = .ok b ↔ ∃ a, x = .ok a ∧ f a = .ok b := by
  cases x <;> simp

theorem bind_eq_error {x : Except Status α} {f : α → Except Status β} {c : Status} :
    (x >>= f) = .error c ↔ x = .error c ∨ ∃ a, x = .ok a ∧ f a = .error c := by
  cases x <;> simp

theorem ite_eq_ok {p : Prop} [Decidable p] {a b : α} {c : Status} :
    (if p then Except.ok a else .error c) = .ok b ↔ b = a ∧ p := by
  by_cases h : p <;> simp [h, eq_comm]

theorem done_eq_ok {s : State} {ws : List Word} {a : Reply} :
    done s ws = .ok a ↔ a = { state := s, status := .ok, words := ws } := by
  simp [done, eq_comm]

@[simp] theorem checkPort_ok {op : Op} {s : State} {u : Unit} : checkPort op s = .ok u ↔ op.allows s.port = true := by
  unfold checkPort; split <;> simp_all

@[simp] theorem checkPrepared_ok {s : State} {u : Unit} : checkPrepared s = .ok u ↔ s.prepared = true := by
  unfold checkPrepared; split <;> simp_all

@[simp] theorem checkBlock_ok {n : Nat} {s : State} {u : Unit} : checkBlock n s = .ok u ↔ n ≤ s.maxBlk.toNat := by
  unfold checkBlock; split <;> simp_all

/-- A slot field passes exactly when it is the encoding of a slot (R55). -/
theorem slotArg_ok {sl : Nibble} {k : Slot} : slotArg sl = .ok k ↔ sl = BitVec.ofNat 4 k.val := by
  revert k; revert sl; decide

theorem cascadeArg_ok {n : Nibble} {c : Cascade} :
    cascadeArg n = .ok c ↔ n = match c with | .lc => 0#4 | .hc => 1#4 := by
  cases c <;> (revert n; decide)

theorem channelArg_ok {n : Nibble} {c : Channel} :
    channelArg n = .ok c ↔ n = match c with | .left => 0#4 | .right => 1#4 := by
  cases c <;> (revert n; decide)

theorem maskArg_ok {n : Nibble} {m : Bool × Bool} :
    maskArg n = .ok m ↔ n ≠ 0#4 ∧ n = (if m.1 then 1#4 else 0#4) + (if m.2 then 2#4 else 0#4) := by
  obtain ⟨l, r⟩ := m
  revert n; cases l <;> cases r <;> decide

theorem bypassArg_ok {n : Nibble} {b : Bool} : bypassArg n = .ok b ↔ n = if b then 1#4 else 0#4 := by
  cases b <;> (revert n; decide)

theorem slopeArg_ok {n : Nibble} {k : Nat} : slopeArg n = .ok k ↔ k = n.toNat ∧ n.toNat ≤ 3 :=
  ite_eq_ok

theorem kindArg_ok {n : Nibble} {c : Kind} : kindArg n = .ok c ↔ n = match c with | .hp => 0#4 | .lp => 1#4 := by
  cases c <;> (revert n; decide)

theorem orderArg_ok {w : Word} {n : Nat} : orderArg w = .ok n ↔ n = w.toNat ∧ orderLegal w.toNat = true :=
  ite_eq_ok

theorem slopeWord_ok {w : Word} {n : Nat} : slopeWord w = .ok n ↔ n = w.toNat ∧ w.toNat ≤ 3 :=
  ite_eq_ok

theorem blockSizeArg_ok {w v : Word} : blockSizeArg w = .ok v ↔ v = w ∧ 1 ≤ w.toNat ∧ w.toNat ≤ nMax :=
  ite_eq_ok

theorem coefArg_ok {c d : Coef} : coefArg c = .ok d ↔ d = c ∧ coefFinite c = true :=
  ite_eq_ok

theorem rateArg_ok {w v : Word} : rateArg w = .ok v ↔ v = w ∧ finitePositive w = true :=
  ite_eq_ok

theorem bankArg_ok {k0 k1 k2 k3 : Coef} {n : Nat} {bank : List Coef} :
    bankArg k0 k1 k2 k3 n = .ok bank ↔
      bank = [k0, k1, k2, k3].take (activeCount n) ∧
        ([k0, k1, k2, k3].take (activeCount n)).all coefFinite = true :=
  ite_eq_ok

theorem peakCoeffs_ok {T : Transc} {f q g fs : Word} {c : Coef} :
    peakCoeffs T f q g fs = .ok c ↔
      c = deliver (peakRaw T f q g fs) ∧ peakDomain f q g fs = true ∧ coefFinite c = true := by
  unfold peakCoeffs
  constructor
  · intro h
    split at h
    · simp only [Except.ok.injEq] at h
      subst h
      simp_all
    · simp at h
  · rintro ⟨rfl, h1, h2⟩
    simp [h1, h2]

theorem cutCoeffs_ok {T : Transc} {kd : Kind} {fc fs : Word} {order : Nat} {bank : List Coef} :
    cutCoeffs T kd fc fs order = .ok bank ↔
      bank = cutBank T kd fc fs order ∧ cutDomain fc fs order = true ∧ bank.all coefFinite = true := by
  unfold cutCoeffs
  constructor
  · intro h
    split at h
    · simp only [Except.ok.injEq] at h
      subst h
      simp_all
    · simp at h
  · rintro ⟨rfl, h1, h2⟩
    rw [h1, h2]; rfl

@[simp] theorem cutBank_length (T : Transc) (kd : Kind) (fc fs : Word) (order : Nat) :
    (cutBank T kd fc fs order).length = order / 2 := by
  simp [cutBank]

/-- `ChainConfigure` answers an image exactly when all three computations do (R100). -/
theorem chainConfigure_ok {T : Transc} {img out : Image} {ps : Params} {fs : Word} :
    chainConfigure T img ps fs = .ok out ↔
      ∃ pk lc hc, peakCoeffs T ps.peakFreq ps.peakQ ps.peakGain fs = .ok pk ∧
        cutCoeffs T .hp ps.lcFreq fs (orderOfSlope ps.lcSlope.toNat) = .ok lc ∧
        cutCoeffs T .lp ps.hcFreq fs (orderOfSlope ps.hcSlope.toNat) = .ok hc ∧
        out = chainInstall img pk lc hc ps.lcSlope.toNat ps.hcSlope.toNat := by
  unfold chainConfigure
  simp only [bind_eq_ok, pure_eq_ok, Except.ok.injEq]
  constructor
  · rintro ⟨pk, hp, lc, hl, hc, hh, rfl⟩
    exact ⟨pk, lc, hc, hp, hl, hh, rfl⟩
  · rintro ⟨pk, lc, hc, hp, hl, hh, rfl⟩
    exact ⟨pk, hp, lc, hl, hc, hh, rfl⟩

/-! The calculator fails with `DOMAIN` only (R68, R77, R100). -/

theorem peakCoeffs_error {T : Transc} {f q g fs : Word} {c : Status} (h : peakCoeffs T f q g fs = .error c) :
    c = .domain := by
  unfold peakCoeffs at h; split at h <;> simp_all

theorem cutCoeffs_error {T : Transc} {kd : Kind} {fc fs : Word} {n : Nat} {c : Status}
    (h : cutCoeffs T kd fc fs n = .error c) : c = .domain := by
  unfold cutCoeffs at h; split at h <;> simp_all

theorem chainConfigure_error {T : Transc} {img : Image} {ps : Params} {fs : Word} {c : Status}
    (h : chainConfigure T img ps fs = .error c) : c = .domain := by
  unfold chainConfigure at h
  simp only [bind_eq_error, pure_eq_ok, reduceCtorEq, and_false, exists_const, or_false] at h
  rcases h with h | ⟨_, _, h | ⟨_, _, h⟩⟩
  · exact peakCoeffs_error h
  · exact cutCoeffs_error h
  · exact cutCoeffs_error h

end Sys2Proof.Machine
end

