-- ==== Sys2Proof/Laws/PerInstr.lean ====
section
/-! SUPPORT. The per-instruction family `EncodeLength`: a well-formed command's packet is a header with the command's
opcode and exactly as many operand words as that header announces (R33, R57, R58). -/

namespace Sys2Proof.Laws.EncodeLength

open Sys2Proof

/-- The packet of the command has the length its header announces. -/
def Statement (i : Instr) : Prop :=
  i.wellFormed = true →
    ∃ (h : Word) (ws : List Word), encode i = h :: ws ∧ hdrOpc h = i.op.code ∧ ws.length = operandWords h

/-- A packet built from its opcode, its fields and as many words as the opcode has operands. -/
theorem of_header {i : Instr} (op : Op) (s a : Nibble) (n : Half) (ws : List Word) (ho : i.op = op)
    (he : encode i = mkHeader op.code s a n :: ws) (hl : ws.length = op.operandCount n.toNat) : Statement i :=
  fun _ => ⟨_, ws, he, by simp [ho], by simp [operandWords, hl]⟩

theorem nop : Statement .nop :=
  of_header .nop _ _ _ _ rfl rfl rfl

theorem rdReg (n : Half) : Statement (.rdReg n) :=
  of_header .rdReg _ _ _ _ rfl rfl rfl

theorem clrErr : Statement .clrErr :=
  of_header .clrErr _ _ _ _ rfl rfl rfl

theorem calcPeak (f : Word) (q : Word) (g : Word) (fs : Word) : Statement (.calcPeak f q g fs) :=
  of_header .calcPeak _ _ _ _ rfl rfl rfl

theorem calcCut (kd : Nibble) (fc : Word) (fs : Word) (od : Word) : Statement (.calcCut kd fc fs od) :=
  of_header .calcCut _ _ _ _ rfl rfl rfl

theorem stageSetCoeffs (sl : Nibble) (c : Coef) : Statement (.stageSetCoeffs sl c) :=
  of_header .stageSetCoeffs _ _ _ _ rfl rfl rfl

theorem stageSetBypass (sl : Nibble) (b : Nibble) : Statement (.stageSetBypass sl b) :=
  of_header .stageSetBypass _ _ _ _ rfl rfl rfl

theorem stageProcess (sl : Nibble) (ch : Nibble) (x : Word) : Statement (.stageProcess sl ch x) :=
  of_header .stageProcess _ _ _ _ rfl rfl rfl

theorem stageReset (sl : Nibble) (cm : Nibble) : Statement (.stageReset sl cm) :=
  of_header .stageReset _ _ _ _ rfl rfl rfl

theorem cascadeConfigure (c : Nibble) (sc : Nibble) (k0 : Coef) (k1 : Coef) (k2 : Coef) (k3 : Coef) : Statement (.cascadeConfigure c sc k0 k1 k2 k3) :=
  of_header .cascadeConfigure _ _ _ _ rfl rfl rfl

theorem cascadeProcess (c : Nibble) (ch : Nibble) (x : Word) : Statement (.cascadeProcess c ch x) :=
  of_header .cascadeProcess _ _ _ _ rfl rfl rfl

theorem chainProcess (ch : Nibble) (x : Word) : Statement (.chainProcess ch x) :=
  of_header .chainProcess _ _ _ _ rfl rfl rfl

theorem chainReset (cm : Nibble) : Statement (.chainReset cm) :=
  of_header .chainReset _ _ _ _ rfl rfl rfl

theorem prepare (fs : Word) (mb : Word) : Statement (.prepare fs mb) :=
  of_header .prepare _ _ _ _ rfl rfl rfl

theorem processBlock (frames : List (Word × Word)) : Statement (.processBlock frames) := by
  intro hw
  have hl : frames.length < 65536 := by
    have := of_decide_eq_true (p := frames.length ≤ nMax) hw
    unfold nMax at this; omega
  exact of_header .processBlock _ _ _ _ rfl rfl (by simp [Op.operandCount, Nat.mod_eq_of_lt hl]) hw

theorem updateParams (ps : Params) : Statement (.updateParams ps) :=
  of_header .updateParams _ _ _ _ rfl rfl rfl

end Sys2Proof.Laws.EncodeLength
end

