-- ==== Sys2Proof/Laws/State.lean ====
section
/-! SUPPORT. What each update of the state leaves in each field, so that no later proof unfolds a record update; and the
state equations of the compound updates. -/

namespace Sys2Proof.Machine

variable (s : State)


/-! `State.setErr` -/

@[simp] theorem State.setErr_param (p : Port) (w : Word) : (s.setErr p w).param = s.param := by cases p <;> rfl
@[simp] theorem State.setErr_fs (p : Port) (w : Word) : (s.setErr p w).fs = s.fs := by cases p <;> rfl
@[simp] theorem State.setErr_maxBlk (p : Port) (w : Word) : (s.setErr p w).maxBlk = s.maxBlk := by cases p <;> rfl
@[simp] theorem State.setErr_prepared (p : Port) (w : Word) : (s.setErr p w).prepared = s.prepared := by cases p <;> rfl
@[simp] theorem State.setErr_errCtrl (p : Port) (w : Word) : (s.setErr p w).errCtrl = if p = .ctrl then w else s.errCtrl := by cases p <;> rfl
@[simp] theorem State.setErr_errAudio (p : Port) (w : Word) : (s.setErr p w).errAudio = if p = .audio then w else s.errAudio := by cases p <;> rfl
@[simp] theorem State.setErr_pub (p : Port) (w : Word) : (s.setErr p w).pub = s.pub := by cases p <;> rfl
@[simp] theorem State.setErr_genPub (p : Port) (w : Word) : (s.setErr p w).genPub = s.genPub := by cases p <;> rfl
@[simp] theorem State.setErr_act (p : Port) (w : Word) : (s.setErr p w).act = s.act := by cases p <;> rfl
@[simp] theorem State.setErr_genAct (p : Port) (w : Word) : (s.setErr p w).genAct = s.genAct := by cases p <;> rfl
@[simp] theorem State.setErr_histL (p : Port) (w : Word) : (s.setErr p w).histL = s.histL := by cases p <;> rfl
@[simp] theorem State.setErr_histR (p : Port) (w : Word) : (s.setErr p w).histR = s.histR := by cases p <;> rfl
@[simp] theorem State.setErr_ctrl (p : Port) (w : Word) : (s.setErr p w).ctrl = s.ctrl := by cases p <;> rfl
@[simp] theorem State.setErr_audio (p : Port) (w : Word) : (s.setErr p w).audio = s.audio := by cases p <;> rfl
@[simp] theorem State.setErr_resetIn (p : Port) (w : Word) : (s.setErr p w).resetIn = s.resetIn := by cases p <;> rfl
@[simp] theorem State.setErr_port (p : Port) (w : Word) : (s.setErr p w).port = s.port := by cases p <;> rfl
@[simp] theorem State.setErr_turn (p : Port) (w : Word) : (s.setErr p w).turn = s.turn := by cases p <;> rfl

/-! `State.setIO` -/

@[simp] theorem State.setIO_param (p : Port) (b : PortIO) : (s.setIO p b).param = s.param := by cases p <;> rfl
@[simp] theorem State.setIO_fs (p : Port) (b : PortIO) : (s.setIO p b).fs = s.fs := by cases p <;> rfl
@[simp] theorem State.setIO_maxBlk (p : Port) (b : PortIO) : (s.setIO p b).maxBlk = s.maxBlk := by cases p <;> rfl
@[simp] theorem State.setIO_prepared (p : Port) (b : PortIO) : (s.setIO p b).prepared = s.prepared := by cases p <;> rfl
@[simp] theorem State.setIO_errCtrl (p : Port) (b : PortIO) : (s.setIO p b).errCtrl = s.errCtrl := by cases p <;> rfl
@[simp] theorem State.setIO_errAudio (p : Port) (b : PortIO) : (s.setIO p b).errAudio = s.errAudio := by cases p <;> rfl
@[simp] theorem State.setIO_pub (p : Port) (b : PortIO) : (s.setIO p b).pub = s.pub := by cases p <;> rfl
@[simp] theorem State.setIO_genPub (p : Port) (b : PortIO) : (s.setIO p b).genPub = s.genPub := by cases p <;> rfl
@[simp] theorem State.setIO_act (p : Port) (b : PortIO) : (s.setIO p b).act = s.act := by cases p <;> rfl
@[simp] theorem State.setIO_genAct (p : Port) (b : PortIO) : (s.setIO p b).genAct = s.genAct := by cases p <;> rfl
@[simp] theorem State.setIO_histL (p : Port) (b : PortIO) : (s.setIO p b).histL = s.histL := by cases p <;> rfl
@[simp] theorem State.setIO_histR (p : Port) (b : PortIO) : (s.setIO p b).histR = s.histR := by cases p <;> rfl
@[simp] theorem State.setIO_ctrl (p : Port) (b : PortIO) : (s.setIO p b).ctrl = if p = .ctrl then b else s.ctrl := by cases p <;> rfl
@[simp] theorem State.setIO_audio (p : Port) (b : PortIO) : (s.setIO p b).audio = if p = .audio then b else s.audio := by cases p <;> rfl
@[simp] theorem State.setIO_resetIn (p : Port) (b : PortIO) : (s.setIO p b).resetIn = s.resetIn := by cases p <;> rfl
@[simp] theorem State.setIO_port (p : Port) (b : PortIO) : (s.setIO p b).port = s.port := by cases p <;> rfl
@[simp] theorem State.setIO_turn (p : Port) (b : PortIO) : (s.setIO p b).turn = s.turn := by cases p <;> rfl

/-! `State.setHist` -/

@[simp] theorem State.setHist_param (ch : Channel) (hs : ChanHist) : (s.setHist ch hs).param = s.param := by cases ch <;> rfl
@[simp] theorem State.setHist_fs (ch : Channel) (hs : ChanHist) : (s.setHist ch hs).fs = s.fs := by cases ch <;> rfl
@[simp] theorem State.setHist_maxBlk (ch : Channel) (hs : ChanHist) : (s.setHist ch hs).maxBlk = s.maxBlk := by cases ch <;> rfl
@[simp] theorem State.setHist_prepared (ch : Channel) (hs : ChanHist) : (s.setHist ch hs).prepared = s.prepared := by cases ch <;> rfl
@[simp] theorem State.setHist_errCtrl (ch : Channel) (hs : ChanHist) : (s.setHist ch hs).errCtrl = s.errCtrl := by cases ch <;> rfl
@[simp] theorem State.setHist_errAudio (ch : Channel) (hs : ChanHist) : (s.setHist ch hs).errAudio = s.errAudio := by cases ch <;> rfl
@[simp] theorem State.setHist_pub (ch : Channel) (hs : ChanHist) : (s.setHist ch hs).pub = s.pub := by cases ch <;> rfl
@[simp] theorem State.setHist_genPub (ch : Channel) (hs : ChanHist) : (s.setHist ch hs).genPub = s.genPub := by cases ch <;> rfl
@[simp] theorem State.setHist_act (ch : Channel) (hs : ChanHist) : (s.setHist ch hs).act = s.act := by cases ch <;> rfl
@[simp] theorem State.setHist_genAct (ch : Channel) (hs : ChanHist) : (s.setHist ch hs).genAct = s.genAct := by cases ch <;> rfl
@[simp] theorem State.setHist_histL (ch : Channel) (hs : ChanHist) : (s.setHist ch hs).histL = if ch = .left then hs else s.histL := by cases ch <;> rfl
@[simp] theorem State.setHist_histR (ch : Channel) (hs : ChanHist) : (s.setHist ch hs).histR = if ch = .right then hs else s.histR := by cases ch <;> rfl
@[simp] theorem State.setHist_ctrl (ch : Channel) (hs : ChanHist) : (s.setHist ch hs).ctrl = s.ctrl := by cases ch <;> rfl
@[simp] theorem State.setHist_audio (ch : Channel) (hs : ChanHist) : (s.setHist ch hs).audio = s.audio := by cases ch <;> rfl
@[simp] theorem State.setHist_resetIn (ch : Channel) (hs : ChanHist) : (s.setHist ch hs).resetIn = s.resetIn := by cases ch <;> rfl
@[simp] theorem State.setHist_port (ch : Channel) (hs : ChanHist) : (s.setHist ch hs).port = s.port := by cases ch <;> rfl
@[simp] theorem State.setHist_turn (ch : Channel) (hs : ChanHist) : (s.setHist ch hs).turn = s.turn := by cases ch <;> rfl

/-! `State.publish` -/

@[simp] theorem State.publish_param (img : Image) : (s.publish img).param = s.param := rfl
@[simp] theorem State.publish_fs (img : Image) : (s.publish img).fs = s.fs := rfl
@[simp] theorem State.publish_maxBlk (img : Image) : (s.publish img).maxBlk = s.maxBlk := rfl
@[simp] theorem State.publish_prepared (img : Image) : (s.publish img).prepared = s.prepared := rfl
@[simp] theorem State.publish_errCtrl (img : Image) : (s.publish img).errCtrl = s.errCtrl := rfl
@[simp] theorem State.publish_errAudio (img : Image) : (s.publish img).errAudio = s.errAudio := rfl
@[simp] theorem State.publish_pub (img : Image) : (s.publish img).pub = img := rfl
@[simp] theorem State.publish_genPub (img : Image) : (s.publish img).genPub = s.genPub + 1 := rfl
@[simp] theorem State.publish_act (img : Image) : (s.publish img).act = s.act := rfl
@[simp] theorem State.publish_genAct (img : Image) : (s.publish img).genAct = s.genAct := rfl
@[simp] theorem State.publish_histL (img : Image) : (s.publish img).histL = s.histL := rfl
@[simp] theorem State.publish_histR (img : Image) : (s.publish img).histR = s.histR := rfl
@[simp] theorem State.publish_ctrl (img : Image) : (s.publish img).ctrl = s.ctrl := rfl
@[simp] theorem State.publish_audio (img : Image) : (s.publish img).audio = s.audio := rfl
@[simp] theorem State.publish_resetIn (img : Image) : (s.publish img).resetIn = s.resetIn := rfl
@[simp] theorem State.publish_port (img : Image) : (s.publish img).port = s.port := rfl
@[simp] theorem State.publish_turn (img : Image) : (s.publish img).turn = s.turn := rfl

/-! `State.latch` -/

@[simp] theorem State.latch_param : (s.latch).param = s.param := rfl
@[simp] theorem State.latch_fs : (s.latch).fs = s.fs := rfl
@[simp] theorem State.latch_maxBlk : (s.latch).maxBlk = s.maxBlk := rfl
@[simp] theorem State.latch_prepared : (s.latch).prepared = s.prepared := rfl
@[simp] theorem State.latch_errCtrl : (s.latch).errCtrl = s.errCtrl := rfl
@[simp] theorem State.latch_errAudio : (s.latch).errAudio = s.errAudio := rfl
@[simp] theorem State.latch_pub : (s.latch).pub = s.pub := rfl
@[simp] theorem State.latch_genPub : (s.latch).genPub = s.genPub := rfl
@[simp] theorem State.latch_act : (s.latch).act = s.pub := rfl
@[simp] theorem State.latch_genAct : (s.latch).genAct = s.genPub := rfl
@[simp] theorem State.latch_histL : (s.latch).histL = s.histL := rfl
@[simp] theorem State.latch_histR : (s.latch).histR = s.histR := rfl
@[simp] theorem State.latch_ctrl : (s.latch).ctrl = s.ctrl := rfl
@[simp] theorem State.latch_audio : (s.latch).audio = s.audio := rfl
@[simp] theorem State.latch_resetIn : (s.latch).resetIn = s.resetIn := rfl
@[simp] theorem State.latch_port : (s.latch).port = s.port := rfl
@[simp] theorem State.latch_turn : (s.latch).turn = s.turn := rfl

/-! `State.clearSlot` -/

@[simp] theorem State.clearSlot_param (k : Slot) (m : Bool × Bool) : (s.clearSlot k m).param = s.param := rfl
@[simp] theorem State.clearSlot_fs (k : Slot) (m : Bool × Bool) : (s.clearSlot k m).fs = s.fs := rfl
@[simp] theorem State.clearSlot_maxBlk (k : Slot) (m : Bool × Bool) : (s.clearSlot k m).maxBlk = s.maxBlk := rfl
@[simp] theorem State.clearSlot_prepared (k : Slot) (m : Bool × Bool) : (s.clearSlot k m).prepared = s.prepared := rfl
@[simp] theorem State.clearSlot_errCtrl (k : Slot) (m : Bool × Bool) : (s.clearSlot k m).errCtrl = s.errCtrl := rfl
@[simp] theorem State.clearSlot_errAudio (k : Slot) (m : Bool × Bool) : (s.clearSlot k m).errAudio = s.errAudio := rfl
@[simp] theorem State.clearSlot_pub (k : Slot) (m : Bool × Bool) : (s.clearSlot k m).pub = s.pub := rfl
@[simp] theorem State.clearSlot_genPub (k : Slot) (m : Bool × Bool) : (s.clearSlot k m).genPub = s.genPub := rfl
@[simp] theorem State.clearSlot_act (k : Slot) (m : Bool × Bool) : (s.clearSlot k m).act = s.act := rfl
@[simp] theorem State.clearSlot_genAct (k : Slot) (m : Bool × Bool) : (s.clearSlot k m).genAct = s.genAct := rfl
@[simp] theorem State.clearSlot_histL (k : Slot) (m : Bool × Bool) : (s.clearSlot k m).histL = if m.1 then s.histL.set k zeroHist else s.histL := rfl
@[simp] theorem State.clearSlot_histR (k : Slot) (m : Bool × Bool) : (s.clearSlot k m).histR = if m.2 then s.histR.set k zeroHist else s.histR := rfl
@[simp] theorem State.clearSlot_ctrl (k : Slot) (m : Bool × Bool) : (s.clearSlot k m).ctrl = s.ctrl := rfl
@[simp] theorem State.clearSlot_audio (k : Slot) (m : Bool × Bool) : (s.clearSlot k m).audio = s.audio := rfl
@[simp] theorem State.clearSlot_resetIn (k : Slot) (m : Bool × Bool) : (s.clearSlot k m).resetIn = s.resetIn := rfl
@[simp] theorem State.clearSlot_port (k : Slot) (m : Bool × Bool) : (s.clearSlot k m).port = s.port := rfl
@[simp] theorem State.clearSlot_turn (k : Slot) (m : Bool × Bool) : (s.clearSlot k m).turn = s.turn := rfl

/-! `State.clearChannels` -/

@[simp] theorem State.clearChannels_param (m : Bool × Bool) : (s.clearChannels m).param = s.param := rfl
@[simp] theorem State.clearChannels_fs (m : Bool × Bool) : (s.clearChannels m).fs = s.fs := rfl
@[simp] theorem State.clearChannels_maxBlk (m : Bool × Bool) : (s.clearChannels m).maxBlk = s.maxBlk := rfl
@[simp] theorem State.clearChannels_prepared (m : Bool × Bool) : (s.clearChannels m).prepared = s.prepared := rfl
@[simp] theorem State.clearChannels_errCtrl (m : Bool × Bool) : (s.clearChannels m).errCtrl = s.errCtrl := rfl
@[simp] theorem State.clearChannels_errAudio (m : Bool × Bool) : (s.clearChannels m).errAudio = s.errAudio := rfl
@[simp] theorem State.clearChannels_pub (m : Bool × Bool) : (s.clearChannels m).pub = s.pub := rfl
@[simp] theorem State.clearChannels_genPub (m : Bool × Bool) : (s.clearChannels m).genPub = s.genPub := rfl
@[simp] theorem State.clearChannels_act (m : Bool × Bool) : (s.clearChannels m).act = s.act := rfl
@[simp] theorem State.clearChannels_genAct (m : Bool × Bool) : (s.clearChannels m).genAct = s.genAct := rfl
@[simp] theorem State.clearChannels_histL (m : Bool × Bool) : (s.clearChannels m).histL = if m.1 then zeroChan else s.histL := rfl
@[simp] theorem State.clearChannels_histR (m : Bool × Bool) : (s.clearChannels m).histR = if m.2 then zeroChan else s.histR := rfl
@[simp] theorem State.clearChannels_ctrl (m : Bool × Bool) : (s.clearChannels m).ctrl = s.ctrl := rfl
@[simp] theorem State.clearChannels_audio (m : Bool × Bool) : (s.clearChannels m).audio = s.audio := rfl
@[simp] theorem State.clearChannels_resetIn (m : Bool × Bool) : (s.clearChannels m).resetIn = s.resetIn := rfl
@[simp] theorem State.clearChannels_port (m : Bool × Bool) : (s.clearChannels m).port = s.port := rfl
@[simp] theorem State.clearChannels_turn (m : Bool × Bool) : (s.clearChannels m).turn = s.turn := rfl

/-! `State.prepareFor` -/

@[simp] theorem State.prepareFor_param (x mb : Word) : (s.prepareFor x mb).param = s.param := rfl
@[simp] theorem State.prepareFor_fs (x mb : Word) : (s.prepareFor x mb).fs = x := rfl
@[simp] theorem State.prepareFor_maxBlk (x mb : Word) : (s.prepareFor x mb).maxBlk = mb := rfl
@[simp] theorem State.prepareFor_prepared (x mb : Word) : (s.prepareFor x mb).prepared = true := rfl
@[simp] theorem State.prepareFor_errCtrl (x mb : Word) : (s.prepareFor x mb).errCtrl = s.errCtrl := rfl
@[simp] theorem State.prepareFor_errAudio (x mb : Word) : (s.prepareFor x mb).errAudio = s.errAudio := rfl
@[simp] theorem State.prepareFor_pub (x mb : Word) : (s.prepareFor x mb).pub = s.pub := rfl
@[simp] theorem State.prepareFor_genPub (x mb : Word) : (s.prepareFor x mb).genPub = s.genPub := rfl
@[simp] theorem State.prepareFor_act (x mb : Word) : (s.prepareFor x mb).act = s.act := rfl
@[simp] theorem State.prepareFor_genAct (x mb : Word) : (s.prepareFor x mb).genAct = s.genAct := rfl
@[simp] theorem State.prepareFor_histL (x mb : Word) : (s.prepareFor x mb).histL = zeroChan := rfl
@[simp] theorem State.prepareFor_histR (x mb : Word) : (s.prepareFor x mb).histR = zeroChan := rfl
@[simp] theorem State.prepareFor_ctrl (x mb : Word) : (s.prepareFor x mb).ctrl = s.ctrl := rfl
@[simp] theorem State.prepareFor_audio (x mb : Word) : (s.prepareFor x mb).audio = s.audio := rfl
@[simp] theorem State.prepareFor_resetIn (x mb : Word) : (s.prepareFor x mb).resetIn = s.resetIn := rfl
@[simp] theorem State.prepareFor_port (x mb : Word) : (s.prepareFor x mb).port = s.port := rfl
@[simp] theorem State.prepareFor_turn (x mb : Word) : (s.prepareFor x mb).turn = s.turn := rfl

/-! The accessors by port and by channel -/

@[simp] theorem State.err_ctrl : s.err .ctrl = s.errCtrl := rfl
@[simp] theorem State.err_audio : s.err .audio = s.errAudio := rfl
@[simp] theorem State.io_ctrl : s.io .ctrl = s.ctrl := rfl
@[simp] theorem State.io_audio : s.io .audio = s.audio := rfl
@[simp] theorem State.histOf_left : s.histOf .left = s.histL := rfl
@[simp] theorem State.histOf_right : s.histOf .right = s.histR := rfl

@[simp] theorem State.setErr_err (p q : Port) (w : Word) : (s.setErr p w).err q = if q = p then w else s.err q := by
  cases p <;> cases q <;> rfl
@[simp] theorem State.setIO_io (p q : Port) (b : PortIO) : (s.setIO p b).io q = if q = p then b else s.io q := by
  cases p <;> cases q <;> rfl
@[simp] theorem State.setIO_err (p q : Port) (b : PortIO) : (s.setIO p b).err q = s.err q := by
  cases p <;> cases q <;> rfl
@[simp] theorem State.setErr_io (p q : Port) (w : Word) : (s.setErr p w).io q = s.io q := by
  cases p <;> cases q <;> rfl
@[simp] theorem State.setHist_histOf (c d : Channel) (hs : ChanHist) :
    (s.setHist c hs).histOf d = if d = c then hs else s.histOf d := by
  cases c <;> cases d <;> rfl
@[simp] theorem State.latch_histOf (c : Channel) : s.latch.histOf c = s.histOf c := by cases c <;> rfl
@[simp] theorem State.publish_histOf (img : Image) (c : Channel) : (s.publish img).histOf c = s.histOf c := by
  cases c <;> rfl
@[simp] theorem State.setIO_histOf (p : Port) (b : PortIO) (c : Channel) : (s.setIO p b).histOf c = s.histOf c := by
  cases p <;> cases c <;> rfl
@[simp] theorem State.setErr_histOf (p : Port) (w : Word) (c : Channel) : (s.setErr p w).histOf c = s.histOf c := by
  cases p <;> cases c <;> rfl

@[simp] theorem State.publish_io (img : Image) (q : Port) : (s.publish img).io q = s.io q := by cases q <;> rfl
@[simp] theorem State.latch_io (q : Port) : s.latch.io q = s.io q := by cases q <;> rfl
@[simp] theorem State.setHist_io (c : Channel) (hs : ChanHist) (q : Port) : (s.setHist c hs).io q = s.io q := by
  cases c <;> cases q <;> rfl
@[simp] theorem State.clearSlot_io (k : Slot) (m : Bool × Bool) (q : Port) : (s.clearSlot k m).io q = s.io q := by
  cases q <;> rfl
@[simp] theorem State.clearChannels_io (m : Bool × Bool) (q : Port) : (s.clearChannels m).io q = s.io q := by
  cases q <;> rfl
@[simp] theorem State.prepareFor_io (x mb : Word) (q : Port) : (s.prepareFor x mb).io q = s.io q := by
  cases q <;> rfl
@[simp] theorem State.param_io (ps : Params) (q : Port) : ({ s with param := ps } : State).io q = s.io q := by
  cases q <;> rfl

@[simp] theorem State.publish_err (img : Image) (q : Port) : (s.publish img).err q = s.err q := by cases q <;> rfl
@[simp] theorem State.latch_err (q : Port) : s.latch.err q = s.err q := by cases q <;> rfl
@[simp] theorem State.setHist_err (c : Channel) (hs : ChanHist) (q : Port) : (s.setHist c hs).err q = s.err q := by
  cases c <;> cases q <;> rfl
@[simp] theorem State.clearSlot_err (k : Slot) (m : Bool × Bool) (q : Port) : (s.clearSlot k m).err q = s.err q := by
  cases q <;> rfl
@[simp] theorem State.clearChannels_err (m : Bool × Bool) (q : Port) : (s.clearChannels m).err q = s.err q := by
  cases q <;> rfl
@[simp] theorem State.prepareFor_err (x mb : Word) (q : Port) : (s.prepareFor x mb).err q = s.err q := by
  cases q <;> rfl
@[simp] theorem State.param_err (ps : Params) (q : Port) : ({ s with param := ps } : State).err q = s.err q := by
  cases q <;> rfl

/-- Ending a command as one record: the sticky register of the current port, then its response buffer; nothing else
(R34, R120). -/
theorem State.finish_eq (opc : Byte) (c : Status) (ws : List Word) :
    s.finish opc c ws =
      (s.setErr s.port (if c ≠ .ok ∧ errCode (s.err s.port) = 0 then statusWord opc c else s.err s.port)).setIO s.port
        { rx := (s.io s.port).rx
          resp := (s.io s.port).resp ++ (statusWord opc c :: if c = .ok then ws else []) } := by
  unfold State.finish State.respond State.recordErr
  split
  · cases h : s.port <;> simp [h]
  · obtain ⟨p⟩ := s
    rename_i port _ _
    cases port <;> rfl

/-- A command that ends with `OK` only responds (R34, R120). -/
theorem State.finish_ok (opc : Byte) (ws : List Word) :
    s.finish opc .ok ws = s.respond (statusWord opc .ok :: ws) := by
  simp [State.finish, State.recordErr]

/-! `State.respond` -/

@[simp] theorem State.respond_param (ws : List Word) : (s.respond ws).param = s.param := by simp [State.respond]
@[simp] theorem State.respond_fs (ws : List Word) : (s.respond ws).fs = s.fs := by simp [State.respond]
@[simp] theorem State.respond_maxBlk (ws : List Word) : (s.respond ws).maxBlk = s.maxBlk := by simp [State.respond]
@[simp] theorem State.respond_prepared (ws : List Word) : (s.respond ws).prepared = s.prepared := by simp [State.respond]
@[simp] theorem State.respond_errCtrl (ws : List Word) : (s.respond ws).errCtrl = s.errCtrl := by simp [State.respond]
@[simp] theorem State.respond_errAudio (ws : List Word) : (s.respond ws).errAudio = s.errAudio := by simp [State.respond]
@[simp] theorem State.respond_pub (ws : List Word) : (s.respond ws).pub = s.pub := by simp [State.respond]
@[simp] theorem State.respond_genPub (ws : List Word) : (s.respond ws).genPub = s.genPub := by simp [State.respond]
@[simp] theorem State.respond_act (ws : List Word) : (s.respond ws).act = s.act := by simp [State.respond]
@[simp] theorem State.respond_genAct (ws : List Word) : (s.respond ws).genAct = s.genAct := by simp [State.respond]
@[simp] theorem State.respond_histL (ws : List Word) : (s.respond ws).histL = s.histL := by simp [State.respond]
@[simp] theorem State.respond_histR (ws : List Word) : (s.respond ws).histR = s.histR := by simp [State.respond]
@[simp] theorem State.respond_ctrl (ws : List Word) : (s.respond ws).ctrl = if s.port = .ctrl then { rx := s.ctrl.rx, resp := s.ctrl.resp ++ ws } else s.ctrl := by
  unfold State.respond; cases s.port <;> simp
@[simp] theorem State.respond_audio (ws : List Word) : (s.respond ws).audio = if s.port = .audio then { rx := s.audio.rx, resp := s.audio.resp ++ ws } else s.audio := by
  unfold State.respond; cases s.port <;> simp
@[simp] theorem State.respond_resetIn (ws : List Word) : (s.respond ws).resetIn = s.resetIn := by simp [State.respond]
@[simp] theorem State.respond_port (ws : List Word) : (s.respond ws).port = s.port := by simp [State.respond]
@[simp] theorem State.respond_turn (ws : List Word) : (s.respond ws).turn = s.turn := by simp [State.respond]

/-! `State.recordErr` and `State.finish`: the fields they leave alone -/

@[simp] theorem State.finish_param (opc : Byte) (c : Status) (ws : List Word) : (s.finish opc c ws).param = s.param := by
  simp [State.finish_eq]
@[simp] theorem State.finish_fs (opc : Byte) (c : Status) (ws : List Word) : (s.finish opc c ws).fs = s.fs := by
  simp [State.finish_eq]
@[simp] theorem State.finish_maxBlk (opc : Byte) (c : Status) (ws : List Word) : (s.finish opc c ws).maxBlk = s.maxBlk := by
  simp [State.finish_eq]
@[simp] theorem State.finish_prepared (opc : Byte) (c : Status) (ws : List Word) : (s.finish opc c ws).prepared = s.prepared := by
  simp [State.finish_eq]
@[simp] theorem State.finish_pub (opc : Byte) (c : Status) (ws : List Word) : (s.finish opc c ws).pub = s.pub := by
  simp [State.finish_eq]
@[simp] theorem State.finish_genPub (opc : Byte) (c : Status) (ws : List Word) : (s.finish opc c ws).genPub = s.genPub := by
  simp [State.finish_eq]
@[simp] theorem State.finish_act (opc : Byte) (c : Status) (ws : List Word) : (s.finish opc c ws).act = s.act := by
  simp [State.finish_eq]
@[simp] theorem State.finish_genAct (opc : Byte) (c : Status) (ws : List Word) : (s.finish opc c ws).genAct = s.genAct := by
  simp [State.finish_eq]
@[simp] theorem State.finish_histL (opc : Byte) (c : Status) (ws : List Word) : (s.finish opc c ws).histL = s.histL := by
  simp [State.finish_eq]
@[simp] theorem State.finish_histR (opc : Byte) (c : Status) (ws : List Word) : (s.finish opc c ws).histR = s.histR := by
  simp [State.finish_eq]
@[simp] theorem State.finish_resetIn (opc : Byte) (c : Status) (ws : List Word) : (s.finish opc c ws).resetIn = s.resetIn := by
  simp [State.finish_eq]
@[simp] theorem State.finish_port (opc : Byte) (c : Status) (ws : List Word) : (s.finish opc c ws).port = s.port := by
  simp [State.finish_eq]
@[simp] theorem State.finish_turn (opc : Byte) (c : Status) (ws : List Word) : (s.finish opc c ws).turn = s.turn := by
  simp [State.finish_eq]

@[simp] theorem State.finish_err (opc : Byte) (c : Status) (ws : List Word) (q : Port) :
    (s.finish opc c ws).err q =
      if q = s.port ∧ c ≠ .ok ∧ errCode (s.err s.port) = 0 then statusWord opc c else s.err q := by
  rw [State.finish_eq]
  by_cases h : q = s.port <;> simp [h]

@[simp] theorem State.finish_io (opc : Byte) (c : Status) (ws : List Word) (q : Port) :
    (s.finish opc c ws).io q =
      if q = s.port then
        { rx := (s.io q).rx, resp := (s.io q).resp ++ (statusWord opc c :: if c = .ok then ws else []) }
      else s.io q := by
  rw [State.finish_eq]
  by_cases h : q = s.port <;> simp [h]

end Sys2Proof.Machine
end

