-- ==== Sys2Proof/Laws/Reply.lean ====
section
/-! SUPPORT. Every command said once: `exec` ends command `i` with its reply (`exec_eq_settle`), and a reply without an
error is one of the effects listed in `Effect`, each with the conditions it needs (`replyOf_ok`). Later proofs take an
effect apart instead of unfolding meanings. -/

namespace Sys2Proof.Machine

/-- The reply of a command under a `TRANSC` record. -/
def replyOf (T : Transc) (s : State) : Instr → Except Status Reply
  | .nop => replyNop s
  | .rdReg n => replyRdReg n s
  | .clrErr => replyClrErr s
  | .calcPeak freq q gainDb fs => replyCalcPeak T freq q gainDb fs s
  | .calcCut kd fc fs order => replyCalcCut T kd fc fs order s
  | .stageSetCoeffs sl c => replyStageSetCoeffs sl c s
  | .stageSetBypass sl b => replyStageSetBypass sl b s
  | .stageProcess sl ch x => replyStageProcess sl ch x s
  | .stageReset sl cm => replyStageReset sl cm s
  | .cascadeConfigure c sc k0 k1 k2 k3 => replyCascadeConfigure c sc k0 k1 k2 k3 s
  | .cascadeProcess c ch x => replyCascadeProcess c ch x s
  | .chainProcess ch x => replyChainProcess ch x s
  | .chainReset cm => replyChainReset cm s
  | .prepare fs mb => replyPrepare T fs mb s
  | .processBlock frames => replyProcessBlock frames s
  | .updateParams ps => replyUpdateParams T ps s

/-- `exec` ends the command with its reply. -/
theorem exec_eq_settle (i : Instr) (s : State) : exec i s = settle i.op s (replyOf Config.transc s i) := by
  cases i <;> rfl

/-- The effects of the commands that complete. -/
inductive Effect (T : Transc) (s : State) : Instr → Reply → Prop where
  | nop : Effect T s .nop ⟨s, .ok, []⟩
  | rdReg {n : Half} {w : Word} (h : s.regRead s.port n = .ok w) : Effect T s (.rdReg n) ⟨s, .ok, [w]⟩
  | clrErr : Effect T s .clrErr ⟨s.setErr s.port 0, .ok, []⟩
  | calcPeak {f q g fs : Word} {c : Coef} (h : peakCoeffs T f q g fs = .ok c) :
    Effect T s (.calcPeak f q g fs) ⟨s, .ok, c.words⟩
  | calcCut {kd : Nibble} {k : Kind} {fc fs order : Word} {bank : List Coef} (hk : kindArg kd = .ok k)
    (ho : orderLegal order.toNat = true) (h : cutCoeffs T k fc fs order.toNat = .ok bank) :
    Effect T s (.calcCut kd fc fs order) ⟨s, .ok, bank.flatMap Coef.words⟩
  | stageSetCoeffs {k : Slot} {c : Coef} (hp : s.port = .ctrl) (hf : coefFinite c = true) :
    Effect T s (.stageSetCoeffs (BitVec.ofNat 4 k.val) c)
      ⟨s.publish (s.pub.set k { coef := c, byp := s.pub[k].byp }), .ok, []⟩
  | stageSetBypass {k : Slot} {b : Nibble} {v : Bool} (hp : s.port = .ctrl) (hb : bypassArg b = .ok v) :
    Effect T s (.stageSetBypass (BitVec.ofNat 4 k.val) b)
      ⟨s.publish (s.pub.set k { coef := s.pub[k].coef, byp := v }), .ok, []⟩
  | stageProcess {k : Slot} {ch : Nibble} {c : Channel} {x : Word} (hp : s.port = .audio)
    (hc : channelArg ch = .ok c) (hr : s.prepared = true) :
    Effect T s (.stageProcess (BitVec.ofNat 4 k.val) ch x)
      ⟨s.latch.setHist c ((s.histOf c).set k (stageOut s.pub[k] (s.histOf c)[k] x).2), .ok,
        [(stageOut s.pub[k] (s.histOf c)[k] x).1]⟩
  | stageReset {k : Slot} {cm : Nibble} {m : Bool × Bool} (hp : s.port = .audio) (hm : maskArg cm = .ok m) :
    Effect T s (.stageReset (BitVec.ofNat 4 k.val) cm) ⟨s.clearSlot k m, .ok, []⟩
  | cascadeConfigure {c sc : Nibble} {cas : Cascade} {k0 k1 k2 k3 : Coef} {bank : List Coef} (hp : s.port = .ctrl)
    (hc : cascadeArg c = .ok cas) (hs : sc.toNat ≤ 3) (hb : bankArg k0 k1 k2 k3 sc.toNat = .ok bank) :
    Effect T s (.cascadeConfigure c sc k0 k1 k2 k3) ⟨s.publish (cascadeInstall s.pub cas bank sc.toNat), .ok, []⟩
  | cascadeProcess {c ch : Nibble} {cas : Cascade} {chan : Channel} {x : Word} (hp : s.port = .audio)
    (hc : cascadeArg c = .ok cas) (hch : channelArg ch = .ok chan) (hr : s.prepared = true) :
    Effect T s (.cascadeProcess c ch x)
      ⟨s.latch.setHist chan (cascadeRun s.pub cas (s.histOf chan) x).2, .ok,
        [(cascadeRun s.pub cas (s.histOf chan) x).1]⟩
  | chainProcess {ch : Nibble} {chan : Channel} {x : Word} (hp : s.port = .audio)
    (hch : channelArg ch = .ok chan) (hr : s.prepared = true) :
    Effect T s (.chainProcess ch x)
      ⟨s.latch.setHist chan (chainRun s.pub (s.histOf chan) x).2, .ok, [(chainRun s.pub (s.histOf chan) x).1]⟩
  | chainReset {cm : Nibble} {m : Bool × Bool} (hp : s.port = .audio) (hm : maskArg cm = .ok m) :
    Effect T s (.chainReset cm) ⟨s.clearChannels m, .ok, []⟩
  | prepareOk {fs mb : Word} {img : Image} (hp : s.port = .audio) (hm : 1 ≤ mb.toNat ∧ mb.toNat ≤ nMax)
    (hf : finitePositive fs = true) (h : chainConfigure T s.pub s.param fs = .ok img) :
    Effect T s (.prepare fs mb) ⟨(s.prepareFor fs mb).publish img, .ok, []⟩
  | prepareKept {fs mb : Word} {c : Status} (hp : s.port = .audio) (hm : 1 ≤ mb.toNat ∧ mb.toNat ≤ nMax)
    (hf : finitePositive fs = true) (h : chainConfigure T s.pub s.param fs = .error c) :
    Effect T s (.prepare fs mb) ⟨s.prepareFor fs mb, .coefKept, []⟩
  | processBlock {frames : List (Word × Word)} (hp : s.port = .audio) (hr : s.prepared = true)
    (hn : frames.length ≤ s.maxBlk.toNat) :
    Effect T s (.processBlock frames)
      ⟨(s.latch.setHist .left (runFrames s.pub frames s.histL s.histR).2.1).setHist .right
          (runFrames s.pub frames s.histL s.histR).2.2, .ok, (runFrames s.pub frames s.histL s.histR).1⟩
  | updatePrepared {ps : Params} {img : Image} (hp : s.port = .ctrl) (hl : ps.lcSlope.toNat ≤ 3)
    (hh : ps.hcSlope.toNat ≤ 3) (hr : s.prepared = true) (h : chainConfigure T s.pub ps s.fs = .ok img) :
    Effect T s (.updateParams ps) ⟨({ s with param := ps } : State).publish img, .ok, []⟩
  | updateUnprepared {ps : Params} (hp : s.port = .ctrl) (hl : ps.lcSlope.toNat ≤ 3)
    (hh : ps.hcSlope.toNat ≤ 3) (hr : s.prepared = false) (h : unpreparedLegal ps = true) :
    Effect T s (.updateParams ps) ⟨{ s with param := ps }, .ok, []⟩

/-- A command completes exactly with one of its effects. -/
theorem replyOf_ok {T : Transc} {s : State} {i : Instr} {a : Reply} (h : replyOf T s i = .ok a) : Effect T s i a := by
  cases i <;>
    simp only [replyOf, replyNop, replyRdReg, replyClrErr, replyCalcPeak, replyCalcCut, replyStageSetCoeffs,
      replyStageSetBypass, replyStageProcess, replyStageReset, replyCascadeConfigure, replyCascadeProcess,
      replyChainProcess, replyChainReset, replyPrepare, replyProcessBlock, replyUpdateParams, bind_eq_ok, done_eq_ok,
      checkPort_ok, checkPrepared_ok, checkBlock_ok, slotArg_ok, coefArg_ok, slopeArg_ok, orderArg_ok, slopeWord_ok,
      blockSizeArg_ok, rateArg_ok, exists_const, Op.allows, decide_eq_true_eq, State.latch_act] at h
  case nop => subst h; exact .nop
  case rdReg => obtain ⟨w, hw, rfl⟩ := h; exact .rdReg hw
  case clrErr => subst h; exact .clrErr
  case calcPeak => obtain ⟨c, hc, rfl⟩ := h; exact .calcPeak hc
  case calcCut => obtain ⟨k, hk, _, ⟨rfl, ho⟩, bank, hb, rfl⟩ := h; exact .calcCut hk ho hb
  case stageSetCoeffs => obtain ⟨hp, k, rfl, _, ⟨rfl, hf⟩, rfl⟩ := h; exact .stageSetCoeffs hp hf
  case stageSetBypass => obtain ⟨hp, k, rfl, v, hb, rfl⟩ := h; exact .stageSetBypass hp hb
  case stageProcess => obtain ⟨hp, k, rfl, c, hc, hr, rfl⟩ := h; exact .stageProcess hp hc hr
  case stageReset => obtain ⟨hp, k, rfl, m, hm, rfl⟩ := h; exact .stageReset hp hm
  case cascadeConfigure =>
    obtain ⟨hp, cas, hc, _, ⟨rfl, hs⟩, bank, hb, rfl⟩ := h; exact .cascadeConfigure hp hc hs hb
  case cascadeProcess => obtain ⟨hp, cas, hc, chan, hch, hr, rfl⟩ := h; exact .cascadeProcess hp hc hch hr
  case chainProcess => obtain ⟨hp, chan, hch, hr, rfl⟩ := h; exact .chainProcess hp hch hr
  case chainReset => obtain ⟨hp, m, hm, rfl⟩ := h; exact .chainReset hp hm
  case prepare =>
    obtain ⟨hp, _, ⟨rfl, hm⟩, _, ⟨rfl, hf⟩, ha⟩ := h
    simp only [prepareImage, State.prepareFor_pub, State.prepareFor_param, Except.ok.injEq] at ha
    subst ha
    split
    · exact .prepareOk hp hm hf ‹_›
    · exact .prepareKept hp hm hf ‹_›
  case processBlock => obtain ⟨hp, hr, hn, rfl⟩ := h; exact .processBlock hp hr hn
  case updateParams =>
    obtain ⟨hp, _, ⟨rfl, hl⟩, _, ⟨rfl, hh⟩, ha⟩ := h
    unfold installParams at ha
    split at ha
    · obtain ⟨img, hi, ha⟩ := bind_eq_ok.mp ha
      rw [done_eq_ok.mp ha]
      exact .updatePrepared hp hl hh ‹_› hi
    · split at ha
      · rw [done_eq_ok.mp ha]
        exact .updateUnprepared hp hl hh (by simpa using ‹¬s.prepared = true›) ‹_›
      · simp at ha

/-- A command whose reply is `OK` only responds, in the state of its reply (R34, R120). -/
theorem exec_of_ok {i : Instr} {s t : State} {ws : List Word}
    (h : replyOf Config.transc s i = .ok ⟨t, .ok, ws⟩) : exec i s = .next (t.respond (statusWord i.op.code .ok :: ws)) := by
  rw [exec_eq_settle, h, settle, State.finish_ok]

/-- A command whose checks fail ends with their code and no effect (R11, R12). -/
theorem exec_of_error {i : Instr} {s : State} {c : Status} (h : replyOf Config.transc s i = .error c) :
    exec i s = .next (s.finish i.op.code c []) := by
  rw [exec_eq_settle, h, settle]

/-- A command that fails does so with one of the codes of a legal packet, never with `OK` or `COEF_KEPT` (R116). -/
theorem replyOf_error {T : Transc} {s : State} {i : Instr} {c : Status} (h : replyOf T s i = .error c) :
    c ≠ .ok ∧ c ≠ .coefKept ∧ c ≠ .illegalOpcode ∧ c ≠ .illegalFormat := by
  have peak := @peakCoeffs_error
  have cut := @cutCoeffs_error
  have chain := @chainConfigure_error
  cases i <;>
    simp only [replyOf, replyNop, replyRdReg, replyClrErr, replyCalcPeak, replyCalcCut, replyStageSetCoeffs,
      replyStageSetBypass, replyStageProcess, replyStageReset, replyCascadeConfigure, replyCascadeProcess,
      replyChainProcess, replyChainReset, replyPrepare, replyProcessBlock, replyUpdateParams, installParams,
      State.regRead, checkPort, checkPrepared, checkBlock, slotArg, cascadeArg, channelArg, maskArg, bypassArg, slopeArg, kindArg, orderArg,
      slopeWord, blockSizeArg, coefArg, rateArg, bankArg, done, bind_eq_error] at h
  case updateParams ps =>
    have upd : ∀ c : Status, (do
        let img ← chainConfigure T s.pub ps s.fs
        Except.ok (⟨({ s with param := ps } : State).publish img, .ok, []⟩ : Reply)) = .error c → c = .domain := by
      intro c hc
      rcases bind_eq_error.mp hc with hc | ⟨_, _, hc⟩
      · exact chain hc
      · cases hc
    grind
  all_goals grind
/-- What an execution does: it ends with the command's effect, or with an error and no effect (R11, R12). -/
theorem exec_cases (i : Instr) (s : State) :
    (∃ a, replyOf Config.transc s i = .ok a ∧ Effect Config.transc s i a ∧
        exec i s = .next (a.state.finish i.op.code a.status a.words)) ∨
      ∃ c, replyOf Config.transc s i = .error c ∧ exec i s = .next (s.finish i.op.code c []) := by
  rw [exec_eq_settle]
  cases h : replyOf Config.transc s i with
  | ok a => exact .inl ⟨a, rfl, replyOf_ok h, rfl⟩
  | error c => exact .inr ⟨c, rfl, rfl⟩

/-- Two responses in a row are one (R34). -/
theorem State.respond_respond (s : State) (v w : List Word) : (s.respond v).respond w = s.respond (v ++ w) := by
  obtain ⟨p⟩ := s
  rename_i port _
  cases port <;> simp [State.respond, State.setIO, State.io]

/-- No effect moves the current port. -/
theorem Effect.port {T : Transc} {s : State} {i : Instr} {a : Reply} (h : Effect T s i a) : a.state.port = s.port := by
  cases h <;> simp

/-- No effect touches a port's buffers: the response is the ending's (R34). -/
theorem Effect.io {T : Transc} {s : State} {i : Instr} {a : Reply} (h : Effect T s i a) (q : Port) :
    a.state.io q = s.io q := by
  cases h <;> simp

/-- No effect touches a sticky register but that of `CLR_ERR`, on its own port (R24, R111). -/
theorem Effect.err {T : Transc} {s : State} {i : Instr} {a : Reply} (h : Effect T s i a) (q : Port) :
    a.state.err q = if i = .clrErr ∧ q = s.port then 0 else s.err q := by
  cases h <;> simp

/-- A command completes with `OK`, or with `COEF_KEPT` for `PREPARE`, and then with no result word (R116, R117). -/
theorem Effect.status {T : Transc} {s : State} {i : Instr} {a : Reply} (h : Effect T s i a) :
    a.status = .ok ∨ a.status = .coefKept ∧ i.op = .prepare ∧ a.words = [] := by
  cases h <;> simp [Instr.op]

end Sys2Proof.Machine
end

