-- ==== Sys2Proof/Laws/Step.lean ====
section
/-! SUPPORT. What a step can do, said once (`step_cases`), with what a ready port holds, which port is picked, and what
taking a packet leaves. -/

namespace Sys2Proof.Machine

variable (s : State)

/-- An incomplete packet is an empty buffer or a header with too few words after it (R33). -/
theorem decode_eq_incomplete {ws : List Word} :
    decode ws = .incomplete ↔ ∀ h t, ws = h :: t → t.length < operandWords h := by
  cases ws with
  | nil => simp [decode]
  | cons h t =>
    simp only [decode, List.cons.injEq]
    constructor
    · rintro hd a b ⟨rfl, rfl⟩
      split at hd
      · assumption
      · split at hd
        · cases hd
        · split at hd <;> cases hd
    · intro hl
      rw [if_pos (hl h t ⟨rfl, rfl⟩)]

theorem State.ready_iff {p : Port} :
    s.ready p = true ↔
      (s.io p).resp = [] ∧ ∃ h ws, (s.io p).rx = h :: ws ∧ operandWords h ≤ ws.length := by
  unfold State.ready
  simp only [Bool.and_eq_true, List.isEmpty_iff, decide_eq_true_eq, ne_eq, decode_eq_incomplete]
  push Not
  rfl

/-- The words after the first packet of a stream that holds one whole (R58). -/
theorem decode_rest {h : Word} {ws : List Word} (hl : operandWords h ≤ ws.length) :
    (∃ i, decode (h :: ws) = .instr i (ws.drop (operandWords h))) ∨
      decode (h :: ws) = .illegalOpcode (hdrOpc h) (ws.drop (operandWords h)) ∨
        decode (h :: ws) = .illegalFormat (hdrOpc h) (ws.drop (operandWords h)) := by
  simp only [decode, Nat.not_lt.mpr hl, if_false]
  split
  · exact .inr (.inl rfl)
  · split
    · exact .inl ⟨_, rfl⟩
    · exact .inr (.inr rfl)

theorem State.pick_some {p : Port} {t : State} (h : s.pick = some (p, t)) :
    s.ready p = true ∧
      t = { s with turn := s.turn.next Config.firstPort Config.patience (s.ready .ctrl && s.ready .audio) } ∧
        (s.ready (otherPort p) = true → s.turn.winner Config.firstPort = p) := by
  unfold State.pick at h
  split at h
  · cases h
  · cases h; simp_all [otherPort]
  · cases h; simp_all [otherPort]
  · rename_i hc ha
    obtain ⟨rfl, rfl⟩ : s.turn.winner Config.firstPort = p ∧ _ = t := by simpa using h
    refine ⟨?_, by rw [hc, ha]; rfl, fun _ => rfl⟩
    cases s.turn.winner Config.firstPort
    · exact hc
    · exact ha

theorem State.pick_none (h : s.pick = none) : s.ready .ctrl = false ∧ s.ready .audio = false := by
  unfold State.pick at h
  split at h
  · exact ⟨‹_›, ‹_›⟩
  all_goals cases h

theorem State.pick_of_ready {p q : Port} (hpq : p ≠ q) (hp : s.ready p = true) (hq : s.ready q = false) :
    s.pick = some (p, { s with turn := s.turn.next Config.firstPort Config.patience false }) := by
  unfold State.pick
  cases p <;> cases q <;> simp_all

theorem State.pick_io {p : Port} {t : State} (h : s.pick = some (p, t)) (q : Port) : t.io q = s.io q := by
  obtain ⟨_, rfl, _⟩ := s.pick_some h
  cases q <;> rfl

@[simp] theorem State.issue_port (p : Port) (rest : List Word) : (s.issue p rest).port = p := rfl

@[simp] theorem State.issue_resetIn (p : Port) (rest : List Word) : (s.issue p rest).resetIn = s.resetIn := by
  cases p <;> rfl

@[simp] theorem State.issue_turn (p : Port) (rest : List Word) : (s.issue p rest).turn = s.turn := by
  cases p <;> rfl

@[simp] theorem State.issue_io (p q : Port) (rest : List Word) :
    (s.issue p rest).io q = if q = p then { rx := rest, resp := (s.io p).resp } else s.io q := by
  cases p <;> cases q <;> rfl

@[simp] theorem State.issue_err (p q : Port) (rest : List Word) : (s.issue p rest).err q = s.err q := by
  cases p <;> cases q <;> rfl

/-- Taking a packet changes the port's words and the current port, and nothing else. -/
theorem State.issue_eq (p : Port) (rest : List Word) :
    s.issue p rest = ({ s with port := p } : State).setIO p { rx := rest, resp := (s.io p).resp } := by
  cases p <;> rfl

/-- What a step is: a reset, nothing, the chosen port's command, or the chosen port's illegal header. -/
theorem step_cases :
    (s.resetIn = true ∧ step s = .next s.afterReset) ∨
      (s.resetIn = false ∧ s.pick = none ∧ step s = .next s) ∨
        ∃ p t h ws, s.resetIn = false ∧ s.pick = some (p, t) ∧ (t.io p).rx = h :: ws ∧ operandWords h ≤ ws.length ∧
          (s.io p).resp = [] ∧
          ((∃ i, decode (h :: ws) = .instr i (ws.drop (operandWords h)) ∧
              step s = exec i (t.issue p (ws.drop (operandWords h)))) ∨
            (decode (h :: ws) = .illegalOpcode (hdrOpc h) (ws.drop (operandWords h)) ∧
              step s = .next ((t.issue p (ws.drop (operandWords h))).finish (hdrOpc h) .illegalOpcode [])) ∨
            (decode (h :: ws) = .illegalFormat (hdrOpc h) (ws.drop (operandWords h)) ∧
              step s = .next ((t.issue p (ws.drop (operandWords h))).finish (hdrOpc h) .illegalFormat []))) := by
  cases hr : s.resetIn
  case true => exact .inl ⟨rfl, by simp [step, State.fetch, hr]⟩
  case false =>
    cases hp : s.pick with
    | none => exact .inr (.inl ⟨rfl, rfl, by simp [step, State.fetch, hr, hp]⟩)
    | some pt =>
      obtain ⟨p, t⟩ := pt
      obtain ⟨hrd, _⟩ := s.pick_some hp
      obtain ⟨he, h, ws, hx, hl⟩ := s.ready_iff.mp hrd
      rw [← s.pick_io hp p] at hx
      refine .inr (.inr ⟨p, t, h, ws, rfl, rfl, hx, hl, he, ?_⟩)
      rcases decode_rest hl with ⟨i, hd⟩ | hd | hd
      · exact .inl ⟨i, hd, by simp [step, State.fetch, State.fetchAt, hr, hp, hx, hd]⟩
      · exact .inr (.inl ⟨hd, by simp [step, State.fetch, State.fetchAt, hr, hp, hx, hd]⟩)
      · exact .inr (.inr ⟨hd, by simp [step, State.fetch, State.fetchAt, hr, hp, hx, hd]⟩)

end Sys2Proof.Machine
end

