-- ==== Sys2Proof/Laws/Schedule.lean ====
section
/-! SUPPORT. The turn between two ready ports: every run in which neither is passed over for ever is one of its runs
(R43, R44); and what a step, or a move of the host, does to a port that is ready. -/

namespace Sys2Proof.Machine

@[simp] theorem otherPort_otherPort (p : Port) : otherPort (otherPort p) = p := by cases p <;> rfl

theorem eq_otherPort_of_ne {p q : Port} (h : p ≠ q) : p = otherPort q := by cases p <;> cases q <;> simp_all [otherPort]

@[simp] theorem Turn.next_false (first : Nat → Port) (patience : Nat → Nat) (t : Turn) :
    t.next first patience false = { waiting := none, draws := t.draws } := rfl

/-- Where a port waits with patience left, the other one runs and the patience is one less. -/
theorem Turn.next_waiting (first : Nat → Port) (patience : Nat → Nat) {t : Turn} {p : Port} {k : Nat}
    (h : t.waiting = some (p, k + 1)) :
    t.winner first = otherPort p ∧ t.next first patience true = { waiting := some (p, k), draws := t.draws } := by
  simp [Turn.winner, Turn.next, h]

/-- Where no port waits, or one has no patience left, the loser begins to wait. -/
theorem Turn.next_draw (first : Nat → Port) (patience : Nat → Nat) {t : Turn} (h : ∀ p k, t.waiting ≠ some (p, k + 1)) :
    t.next first patience true =
      { waiting := some (otherPort (t.winner first), patience t.draws), draws := t.draws + 1 } := by
  unfold Turn.next
  split <;> simp_all

/-- Every run in which no port is passed over for ever is a run of the turn (R43, R44). -/
theorem turnAt_any (ties : Nat → Option Port) (fair : ∀ n p, ties n = some p → ∃ m, n < m ∧ ties m ≠ some p) :
    ∃ first patience, ∀ n p, ties n = some p → (turnAt first patience ties n).winner first = p := by
  classical
  have ends : ∀ n p, ∃ j, ties (n + j) ≠ some p := fun n p => by
    by_cases h : ties n = some p
    · obtain ⟨m, hm, hp⟩ := fair n p h
      exact ⟨m - n, by rwa [Nat.add_sub_cancel' hm.le]⟩
    · exact ⟨0, h⟩
  -- how many steps in a row from `n` on are won by `p` with both ports ready
  let len : Nat → Port → Nat := fun n p => Nat.find (ends n p)
  have len_zero : ∀ n p, len n p = 0 ↔ ties n ≠ some p := fun n p => Nat.find_eq_zero _
  have len_succ : ∀ n p k, len n p = k + 1 → len (n + 1) p = k := fun n p k h => by
    obtain ⟨h1, h2⟩ := (Nat.find_eq_iff _).mp h
    refine (Nat.find_eq_iff _).mpr ⟨by rwa [show n + 1 + k = n + (k + 1) by omega], fun j hj => ?_⟩
    rw [show n + 1 + j = n + (j + 1) by omega]
    exact h2 _ (by omega)
  -- the steps that make a free choice
  let draw : Nat → Prop := fun n => ∃ p, ties n = some p ∧ ∀ m, n = m + 1 → ties m ≠ some p
  let first : Nat → Port := fun k => (ties (Nat.nth draw k)).getD .ctrl
  let patience : Nat → Nat := fun k => len (Nat.nth draw k + 1) (first k)
  have first_draw : ∀ n p, draw n → ties n = some p → first (Nat.count draw n) = p := fun n p h hp => by
    simp only [first, Nat.nth_count h, hp, Option.getD_some]
  -- who waits before step `n`, and for how long
  let waits : Nat → Option (Port × Nat) := fun n =>
    match n with
    | 0 => none
    | m + 1 => (ties m).map fun p => (otherPort p, len (m + 1) p)
  have waits_zero : ∀ n q k, waits n = some (q, k + 1) → ties n = some (otherPort q) ∧ len (n + 1) (otherPort q) = k ∧
      ¬draw n := fun n q k h => by
    cases n with
    | zero => cases h
    | succ m =>
      obtain ⟨p, hp, hq⟩ := Option.map_eq_some_iff.mp h
      obtain ⟨rfl, hk⟩ := Prod.mk.inj hq
      have hn : ties (m + 1) = some p := by
        by_contra hn
        rw [(len_zero _ _).mpr hn] at hk
        cases hk
      rw [otherPort_otherPort]
      refine ⟨hn, len_succ _ _ _ hk, fun ⟨r, hr, hm⟩ => hm m rfl ?_⟩
      rw [hp, ← hn, hr]
  have waits_draw : ∀ n p, ties n = some p → (∀ q k, waits n ≠ some (q, k + 1)) →
      draw n ∧ ∀ q, waits n = some (q, 0) → p = q := fun n p hp h => by
    cases n with
    | zero => exact ⟨⟨p, hp, fun m hm => by cases hm⟩, fun q hq => by cases hq⟩
    | succ m =>
      have hne : ties m ≠ some p := fun hm => by
        rcases hk : len (m + 1) p with _ | k
        · exact (len_zero _ _).mp hk hp
        · exact h (otherPort p) k (by simp only [waits, hm, Option.map_some, hk])
      refine ⟨⟨p, hp, fun l hl => by obtain rfl := Nat.succ.inj hl; exact hne⟩, fun q hq => ?_⟩
      obtain ⟨r, hr, hrq⟩ := Option.map_eq_some_iff.mp hq
      obtain ⟨rfl, _⟩ := Prod.mk.inj hrq
      exact eq_otherPort_of_ne fun e => hne (e ▸ hr)
  have win : ∀ n p, ties n = some p → ∀ t : Turn, t.draws = Nat.count draw n → t.waiting = waits n →
      t.winner first = p := fun n p hp t hd hw => by
    rcases hwn : waits n with _ | ⟨q, k⟩
    · rw [Turn.winner, hw, hwn, hd]
      exact first_draw n p (waits_draw n p hp (by simp [hwn])).1 hp
    · cases k with
      | zero => simpa [Turn.winner, hw, hwn] using ((waits_draw n p hp (by simp [hwn])).2 q hwn).symm
      | succ k => simpa [Turn.winner, hw, hwn, hp] using (waits_zero n q k hwn).1.symm
  have inv : ∀ n, (turnAt first patience ties n).draws = Nat.count draw n ∧
      (turnAt first patience ties n).waiting = waits n := fun n => by
    induction n with
    | zero => exact ⟨by simp [turnAt], rfl⟩
    | succ n ih =>
      obtain ⟨hd, hw⟩ := ih
      rw [turnAt, Nat.count_succ]
      by_cases hs : ∃ p, ties n = some p
      case neg =>
        have hn : ties n = none := Option.eq_none_iff_forall_ne_some.mpr fun p hp => hs ⟨p, hp⟩
        have : ¬draw n := fun ⟨p, hp, _⟩ => hs ⟨p, hp⟩
        simp [waits, hn, hd, this]
      case pos =>
        obtain ⟨p, hn⟩ := hs
        have hsome : (ties n).isSome = true := by rw [hn]; rfl
        have hwin := win n p hn _ hd hw
        by_cases h : ∀ q k, waits n ≠ some (q, k + 1)
        · have hdr := (waits_draw n p hn h).1
          rw [hsome, Turn.next_draw first patience (by rwa [hw]), hwin, hd]
          have hf := first_draw n p hdr hn
          simp only [waits, hn, hdr, patience, hf, Nat.nth_count hdr, if_true, Option.map_some, and_self]
        · push Not at h
          obtain ⟨q, k, h⟩ := h
          obtain ⟨h1, h2, h3⟩ := waits_zero n q k h
          obtain rfl : p = otherPort q := by simpa [hn] using h1
          rw [hsome, (Turn.next_waiting first patience (hw.trans h)).2]
          simp [waits, hn, hd, h2, h3]
  exact ⟨first, patience, fun n p hp => win n p hp _ (inv n).1 (inv n).2⟩

/-- An execution leaves the model's own fields and the reset input, and appends to its own port's response. -/
theorem exec_ending {i : Instr} {s t : State} (h : exec i s = .next t) :
    t.resetIn = s.resetIn ∧ t.turn = s.turn ∧
      ∃ w ws, ∀ q, t.io q = if q = s.port then { rx := (s.io q).rx, resp := (s.io q).resp ++ w :: ws } else s.io q := by
  rcases exec_cases i s with ⟨a, _, he, hx⟩ | ⟨c, _, hx⟩ <;> rw [hx] at h <;> cases h
  · refine ⟨?_, ?_, statusWord i.op.code a.status, if a.status = .ok then a.words else [], fun q => ?_⟩
    · cases he <;> simp
    · cases he <;> simp
    · rw [State.finish_io, he.port, he.io]
  · exact ⟨by simp, by simp, statusWord i.op.code c, [], fun q => by simp⟩

/-- A step that is no reset and has a port to run answers on that port and leaves the other's buffers (R34, R42). -/
theorem step_ending {s t u : State} {p : Port} (hr : s.resetIn = false) (hp : s.pick = some (p, u)) (h : step s = .next t) :
    t.resetIn = false ∧ t.turn = u.turn ∧ (t.io p).resp ≠ [] ∧ ∀ q ≠ p, t.io q = s.io q := by
  have hur : u.resetIn = false := by obtain ⟨_, rfl, _⟩ := s.pick_some hp; exact hr
  rcases step_cases s with ⟨h1, _⟩ | ⟨_, h1, _⟩ | ⟨q, v, hd, ws, _, hq, _, _, _, hs⟩
  · simp [hr] at h1
  · simp [hp] at h1
  · obtain ⟨rfl, rfl⟩ : p = q ∧ u = v := by simpa [hp] using hq
    have frame : ∀ q ≠ p, (u.issue p (ws.drop (operandWords hd))).io q = s.io q := fun q hqp => by
      rw [State.issue_io, if_neg hqp, s.pick_io hp]
    rcases hs with ⟨i, _, hs⟩ | ⟨_, hs⟩ | ⟨_, hs⟩ <;> rw [hs] at h
    · obtain ⟨h1, h2, w, ws', hio⟩ := exec_ending h
      refine ⟨h1.trans (by simpa using hur), by simpa using h2, by simp [hio], fun q hqp => ?_⟩
      rw [hio, State.issue_port, if_neg hqp, frame q hqp]
    all_goals
      cases h
      refine ⟨by simpa using hur, by simp, by simp [State.finish_io], fun q hqp => ?_⟩
      rw [State.finish_io, State.issue_port, if_neg hqp, frame q hqp]

/-- A step that is no reset runs a ready port's packet, which answers, or leaves the port ready and waiting, with its
patience one less if it was waiting before. -/
theorem step_ready {s t : State} {p : Port} (hr : s.resetIn = false) (hp : s.ready p = true) (h : step s = .next t) :
    (t.io p).resp ≠ [] ∨
      t.ready p = true ∧ ∃ k, t.turn.waiting = some (p, k) ∧ ∀ j, s.turn.waiting = some (p, j) → j = k + 1 := by
  cases hq : s.pick with
  | none => have := s.pick_none hq; cases p <;> simp_all
  | some qu =>
    obtain ⟨q, u⟩ := qu
    obtain ⟨_, hd, hn, hf⟩ := step_ending hr hq h
    by_cases hpq : p = q
    · exact .inl (hpq ▸ hn)
    · obtain ⟨hrq, rfl, hw⟩ := s.pick_some hq
      obtain rfl := eq_otherPort_of_ne hpq
      have hw := hw hp
      refine .inr ⟨by simpa [State.ready, hf _ hpq] using hp, ?_⟩
      have hboth : (s.ready .ctrl && s.ready .audio) = true := by cases q <;> simp_all [otherPort]
      rw [hd, hboth]
      rcases hwt : s.turn.waiting with _ | ⟨r, k⟩
      · rw [Turn.next_draw _ _ (by simp [hwt]), hw]
        exact ⟨_, rfl, by simp⟩
      · cases k with
        | zero =>
          obtain rfl : r = q := by simpa [Turn.winner, hwt] using hw
          rw [Turn.next_draw _ _ (by simp [hwt]), hw]
          exact ⟨_, rfl, fun j hj => by cases r <;> simp [otherPort] at hj⟩
        | succ k =>
          obtain ⟨h1, h2⟩ := Turn.next_waiting Config.firstPort Config.patience hwt
          rw [h2]
          exact ⟨k, by rw [← hw, h1]; simp, by simp⟩

/-- Every move of the host leaves a ready port ready (R33, R34). -/
theorem State.ready_send {s : State} {p : Port} (h : s.ready p = true) (q : Port) (w : Word) :
    (s.send q w).ready p = true := by
  rw [State.ready_iff] at h ⊢
  obtain ⟨he, hd, ws, hx, hl⟩ := h
  unfold State.send
  by_cases hpq : p = q
  · subst hpq; exact ⟨by simpa using he, hd, ws ++ [w], by simp [hx], by simp; omega⟩
  · exact ⟨by simpa [hpq] using he, hd, ws, by simpa [hpq] using hx, hl⟩

theorem State.ready_readWord {s : State} {p : Port} (h : s.ready p = true) (q : Port) :
    (s.readWord q).ready p = true := by
  rw [State.ready_iff] at h ⊢
  obtain ⟨he, hd, ws, hx, hl⟩ := h
  unfold State.readWord
  by_cases hpq : p = q
  · subst hpq; exact ⟨by simp [he], hd, ws, by simpa using hx, hl⟩
  · exact ⟨by simpa [hpq] using he, hd, ws, by simpa [hpq] using hx, hl⟩

@[simp] theorem State.ready_assertReset (s : State) (p : Port) : s.assertReset.ready p = s.ready p := by
  cases p <;> rfl

@[simp] theorem Run.read_state (r : Run) (p : Port) : (r.read p).state = r.state.readWord p := by cases p <;> rfl

end Sys2Proof.Machine
end

