-- ==== Sys2Proof/Tests/Slice0.lean ====
section
/-! SUPPORT. Tests whose expected words are copied from the tables of 95_test_vectors.md and of the rules, and, after
them, a witness for every obligation that has hypotheses (`witness_O<n>`, the number being its id in OBLIGATIONS.json). -/

namespace Sys2Proof.Tests

open Sys2Proof Sys2Proof.Machine

set_option Elab.async false

/-! Helpers -/

/-- The reset state with AUDIO issuing, prepared at 48000 Hz for blocks of at most 4 frames. -/
def audioReady : State := { State.reset with port := .audio, prepared := true, fs := 0x473B8000#32, maxBlk := 4 }

/-- The reset state with AUDIO issuing. -/
def audioReset : State := { State.reset with port := .audio }

/-- The reset state prepared at 48000 Hz, with CTRL issuing. -/
def ctrlReady : State := { audioReady with port := .ctrl }

/-- The reset state with words waiting on one port. -/
def waiting (p : Port) (ws : List Word) : State := State.reset.sendAll p ws

/-- What a command answers on the port that issued it. -/
def answer (i : Instr) (s : State) : List Word :=
  match exec i s with
  | .next t => (t.io s.port).resp
  | _ => []

/-- What a step answers on a port. -/
def stepAnswer (p : Port) (s : State) : List Word :=
  match step s with
  | .next t => (t.io p).resp
  | _ => []

/-- A `TRANSC` record of constant functions: sin 0.5, cos 0.5, tan 1.0, exp10 1.0. -/
def constTransc : Transc :=
  { sin := fun _ => 0x3FE0000000000000#64, cos := fun _ => 0x3FE0000000000000#64,
    tan := fun _ => 0x3FF0000000000000#64, exp10 := fun _ => 0x3FF0000000000000#64 }

/-- The set C1 of 95_test_vectors.md: (0.5, 0.25, 0.125, -0.5, 0.25). -/
def c1 : Coef := ⟨0x3F000000#32, 0x3E800000#32, 0x3E000000#32, 0xBF000000#32, 0x3E800000#32⟩

/-- A set of five NaNs. -/
def nanSet : Coef := ⟨0x7FC00000#32, 0x7FC00000#32, 0x7FC00000#32, 0x7FC00000#32, 0x7FC00000#32⟩

/-! WellFormed: its one check, N_MAX of R7 and R62 -/

theorem test_wellFormed_block_at_nMax :
    (Instr.processBlock (List.replicate 65535 (0#32, 0#32))).wellFormed = true := by
  simp only [Instr.wellFormed, List.length_replicate, nMax]; decide

theorem test_illFormed_block_above_nMax :
    (Instr.processBlock (List.replicate 65536 (0#32, 0#32))).wellFormed = false := by
  simp only [Instr.wellFormed, List.length_replicate, nMax]; decide

/-! Decoding: the header words of V-ENC-1, one for each constructor -/

theorem test_decode_nop : decode [0x00000000#32] = .instr .nop [] := by decide

theorem test_decode_rdReg : decode [0x01000145#32] = .instr (.rdReg 0x145#16) [] := by decide

theorem test_decode_clrErr : decode [0x02000000#32] = .instr .clrErr [] := by decide

theorem test_decode_calcPeak :
    decode [0x10000000#32, 0x443B8000#32, 0x3F800000#32, 0x00000000#32, 0x472C4400#32] =
      .instr (.calcPeak 0x443B8000#32 0x3F800000#32 0x00000000#32 0x472C4400#32) [] := by decide

theorem test_decode_calcCut :
    decode [0x11000000#32, 0x41A00000#32, 0x472C4400#32, 0x00000002#32] =
      .instr (.calcCut 0#4 0x41A00000#32 0x472C4400#32 0x00000002#32) [] := by decide

theorem test_decode_stageSetCoeffs :
    decode [0x20800000#32, 0x3F800000#32, 1#32, 2#32, 3#32, 4#32] =
      .instr (.stageSetCoeffs 8#4 ⟨0x3F800000#32, 1#32, 2#32, 3#32, 4#32⟩) [] := by decide

theorem test_decode_stageSetBypass : decode [0x21010000#32] = .instr (.stageSetBypass 0#4 1#4) [] := by decide

theorem test_decode_stageProcess :
    decode [0x22400000#32, 0x3F800000#32] = .instr (.stageProcess 4#4 0#4 0x3F800000#32) [] := by decide

theorem test_decode_stageReset : decode [0x23320000#32] = .instr (.stageReset 3#4 2#4) [] := by decide

theorem test_decode_cascadeConfigure :
    decode (0x30030000#32 :: (List.range 20).map (BitVec.ofNat 32)) =
      .instr (.cascadeConfigure 0#4 3#4 ⟨0, 1, 2, 3, 4⟩ ⟨5, 6, 7, 8, 9⟩ ⟨10, 11, 12, 13, 14⟩ ⟨15, 16, 17, 18, 19⟩)
        [] := by decide

theorem test_decode_cascadeProcess :
    decode [0x31110000#32, 0x3F000000#32] = .instr (.cascadeProcess 1#4 1#4 0x3F000000#32) [] := by decide

theorem test_decode_chainProcess :
    decode [0x40010000#32, 0xBF800000#32] = .instr (.chainProcess 1#4 0xBF800000#32) [] := by decide

theorem test_decode_chainReset : decode [0x41010000#32] = .instr (.chainReset 1#4) [] := by decide

theorem test_decode_prepare :
    decode [0x50000000#32, 0x473B8000#32, 0x00000004#32] = .instr (.prepare 0x473B8000#32 4#32) [] := by decide

theorem test_decode_processBlock :
    decode [0x51000003#32, 1#32, 2#32, 3#32, 4#32, 5#32, 6#32] = .instr (.processBlock [(1, 2), (3, 4), (5, 6)]) [] := by
  decide

theorem test_decode_updateParams :
    decode [0x52000000#32, 0x447A0000#32, 0x41400000#32, 0x40000000#32, 0x41A00000#32, 0x469C4000#32, 3#32, 1#32] =
      .instr (.updateParams ⟨0x447A0000#32, 0x41400000#32, 0x40000000#32, 0x41A00000#32, 0x469C4000#32, 3, 1⟩) [] := by
  decide

/-- The illegal headers of V-ENC-2, each followed by the next packet, a NOP: the words consumed are those of the table. -/
theorem test_decode_illegal_headers :
    decode [0x03000000#32, 0] = .illegalOpcode 0x03#8 [0] ∧
    decode [0xFF123456#32, 0] = .illegalOpcode 0xFF#8 [0] ∧
    decode [0x53000000#32, 0] = .illegalOpcode 0x53#8 [0] ∧
    decode [0x00000001#32, 0] = .illegalFormat 0x00#8 [0] ∧
    decode [0x01100004#32, 0] = .illegalFormat 0x01#8 [0] ∧
    decode [0x20010000#32, 1, 2, 3, 4, 5, 0] = .illegalFormat 0x20#8 [0] ∧
    decode [0x22400001#32, 1, 0] = .illegalFormat 0x22#8 [0] ∧
    decode [0x40100000#32, 1, 0] = .illegalFormat 0x40#8 [0] ∧
    decode [0x51100002#32, 1, 2, 3, 4, 0] = .illegalFormat 0x51#8 [0] ∧
    decode (0x30010001#32 :: (List.replicate 20 9#32 ++ [0])) = .illegalFormat 0x30#8 [0] := by decide

/-- A packet without its last operand word is incomplete (R33). -/
theorem test_decode_incomplete : decode [0x20800000#32, 1, 2, 3, 4] = .incomplete ∧ decode [] = .incomplete := by decide

/-- V-ENC-3: the header match of opcode_table.json. -/
theorem test_header_match :
    headerMatches .stageProcess 0x22810000#32 = true ∧ headerMatches .stageProcess 0x22810001#32 = false := by decide

/-- Least significant byte first on a byte link (R38). -/
theorem test_bytes : decodeBytes [0x04#8, 0x00#8, 0x00#8, 0x01#8] = .instr (.rdReg 4#16) [] := by decide

/-- The words of `encode` against R65 and R64. -/
theorem test_encode :
    encode (Instr.bypass 6#4) = [0x21610000#32] ∧ encode Instr.resetAll = [0x41030000#32] ∧
    encode (.calcCut 1#4 0x447A0000#32 0x473B8000#32 4#32) = [0x11010000#32, 0x447A0000#32, 0x473B8000#32, 4#32] ∧
    encode (.processBlock [(1, 2), (3, 4)]) = [0x51000002#32, 1, 2, 3, 4] ∧
    encode (Instr.cascadeConfigureFill 1#4 1#4 [identityCoef, identityCoef]) =
      0x30110000#32 :: (identityCoef.words ++ identityCoef.words ++ List.replicate 10 0#32) := by decide

/-- The text forms of R65 and V-ENC-1. -/
theorem test_text :
    commandText .audio (.stageProcess 4#4 1#4 0x3F800000#32) = "audio: STAGE_PROCESS 4, R, 1.0" ∧
    commandText .audio (.processBlock [(0x3F800000#32, 0x3F000000#32), (0, 0xBF000000#32)]) =
      "audio: PROCESS_BLOCK 2, (1.0, 0.5), (0.0, -0.5)" ∧
    commandText .ctrl (.calcCut 1#4 0x447A0000#32 0x473B8000#32 4#32) = "ctrl: CALC_CUT LP, 1000.0, 48000.0, 4" ∧
    commandText .ctrl .nop = "ctrl: NOP" := by decide +kernel

/-! The host's two functions -/

theorem test_decodeTableWord :
    decodeTableWord 32 0x41030000 = some (.chainReset 3#4) ∧ decodeTableWord 32 0x53000000 = none ∧
    decodeTableWord 32 0x52000000 = some (.updateParams ⟨0, 0, 0, 0, 0, 0, 0⟩) := by decide

theorem test_withFetchWord_runs_first :
    stepAnswer .ctrl (State.reset.withFetchWord 32 0x01000010) = [0x00000100#32, 0x443B8000#32] ∧
    stepAnswer .audio (State.reset.withFetchWord 32 0x41030000) = [0x00004100#32] := by decide

/-! Binary32 and binary64 arithmetic -/

/-- V-STG-5 and V-STG-7: subnormal products round to even, and 1/3 passes through. -/
theorem test_fmul :
    fmul 0x3F000000#32 0x00000001#32 = 0x00000000#32 ∧ fmul 0x3F000000#32 0x00000003#32 = 0x00000002#32 ∧
    fmul 0x3F000000#32 0x80000003#32 = 0x80000002#32 ∧ fmul 0x3EAAAAAB#32 0x3F800000#32 = 0x3EAAAAAB#32 := by decide +kernel

/-- R85, R87: infinities and the sign of a zero sum. -/
theorem test_fadd_special :
    fadd 0x80000000#32 0x00000000#32 = 0x00000000#32 ∧ fadd 0x7F800000#32 0xFF800000#32 = 0x7FC00000#32 ∧
    fmul 0x00000000#32 0x7F800000#32 = 0x7FC00000#32 ∧ fadd 0x7F000000#32 0x7F000000#32 = 0x7F800000#32 := by decide +kernel

/-- R10, R66: widening is exact, `fs/2` is exact, and `<` is false for a NaN. -/
theorem test_binary64 :
    to64 0x3F800000#32 = 0x3FF0000000000000#64 ∧ to64 0x00000001#32 = 0x36A0000000000000#64 ∧
    r32 0x400921FB54442D18#64 = 0x40490FDB#32 ∧ ddiv (to64 0x46FA0000#32) dTwo = to64 0x467A0000#32 ∧
    dlt 0x7FF8000000000000#64 dOne = false ∧ natToDouble 8 = 0x4020000000000000#64 := by decide +kernel

/-! The stage: V-STG -/

/-- V-STG-1. -/
theorem test_stage_impulse :
    stageRun ⟨c1, false⟩ zeroHist [0x3F800000#32, 0, 0, 0, 0] =
      ([0x3F000000#32, 0x3F000000#32, 0x3E800000#32, 0x00000000#32, 0xBD800000#32], ⟨0, 0, 0xBD800000#32, 0⟩) := by decide +kernel

/-- V-STG-2. -/
theorem test_stage_reset_set :
    stageRun ⟨identityCoef, false⟩ zeroHist
        [0x80000000#32, 0x3FC00000#32, 0x00000001#32, 0x80000001#32, 0xFF61B1E6#32] =
      ([0x00000000#32, 0x3FC00000#32, 0x00000001#32, 0x80000001#32, 0xFF61B1E6#32],
        ⟨0xFF61B1E6#32, 0x80000001#32, 0xFF61B1E6#32, 0x80000001#32⟩) := by decide +kernel

/-- V-STG-3. -/
theorem test_stage_nan_payload :
    stageRun ⟨identityCoef, true⟩ zeroHist [0x7FC12345#32, 0x3F800000#32] =
      ([0x7FC12345#32, 0x3F800000#32], ⟨0x3F800000#32, 0x7FC12345#32, 0x7FC00000#32, 0x7FC00000#32⟩) := by decide +kernel

/-- V-STG-6, its second run. -/
theorem test_stage_unity_set :
    (stageRun ⟨⟨0x3F800000#32, 0xBFF1A73A#32, 0x3F661436#32, 0xBFF1A73A#32, 0x3F661436#32⟩, false⟩ zeroHist
      [0x3F000000#32, 0xBE800000#32, 0x3F800000#32, 0x3F400000#32]).1 =
      [0x3F000000#32, 0xBE800000#32, 0x3F800000#32, 0x3F400000#32] := by decide +kernel

/-! Commands: V-STG-10, V-CAS, V-CHN, V-PRC, V-SYS and V-ERR -/

theorem test_nop : answer .nop State.reset = [0x00000000#32] := by decide +kernel

theorem test_rdReg :
    answer (.rdReg 0x10D#16) State.reset = [0x00000100#32, 1#32] ∧
    answer (.rdReg 0x106#16) State.reset = [0x00000109#32] ∧ answer (.rdReg 0x300#16) State.reset = [0x00000103#32] ∧
    answer (.rdReg 0x363#16) audioReset = [0x00000100#32, 0#32] ∧
    answer (.rdReg 0x330#16) audioReset = [0x00000109#32] := by decide +kernel

theorem test_clrErr :
    answer (.rdReg 0x002#16) (afterExec .clrErr { State.reset with errCtrl := 0x109#32 }) =
      [0x00000200#32, 0x00000100#32, 0x00000000#32] := by decide +kernel

theorem test_calcPeak_domain :
    answer (.calcPeak 0x467A0000#32 0x3F800000#32 0 0x46FA0000#32) State.reset = [0x00001006#32] := by decide +kernel

theorem test_calcCut_order_before_domain :
    answer (.calcCut 2#4 0x7FC00000#32 0 3) State.reset = [0x00001105#32] ∧
    answer (.calcCut 0#4 0x467A0000#32 0x46FA0000#32 2) State.reset = [0x00001106#32] := by decide +kernel

theorem test_stageSetCoeffs :
    answer (.rdReg 0x120#16) (afterExec (.stageSetCoeffs 4#4 c1) State.reset) =
      [0x00002000#32, 0x00000100#32, 0x3F000000#32] ∧
    answer (.stageSetCoeffs 4#4 ⟨0x7F800000#32, 0, 0, 0, 0⟩) State.reset = [0x00002006#32] := by decide +kernel

theorem test_stageSetBypass :
    answer (.rdReg 0x135#16) (afterExec (.stageSetBypass 6#4 0#4) State.reset) =
      [0x00002100#32, 0x00000100#32, 0#32] ∧
    answer (.stageSetBypass 1#4 2#4) State.reset = [0x00002105#32] := by decide +kernel

theorem test_stageProcess :
    answer (.stageProcess 4#4 0#4 0x3F800000#32) { audioReady with pub := resetImage.set 4 ⟨c1, false⟩ } =
      [0x00002200#32, 0x3F000000#32] ∧
    answer (.stageProcess 4#4 0#4 0x3F800000#32) audioReset = [0x00002207#32] := by decide +kernel

theorem test_stageReset :
    answer (.stageReset 4#4 3#4) audioReset = [0x00002300#32] ∧
    answer (.stageReset 4#4 0#4) audioReset = [0x00002305#32] := by decide +kernel

/-- V-CAS-1: the unread sets may be NaN. -/
theorem test_cascadeConfigure :
    let t := afterExec (.cascadeConfigure 1#4 1#4 identityCoef ⟨0x3F000000#32, 0, 0, 0, 0⟩ nanSet nanSet) ctrlReady
    t.ctrl.resp = [0x00003000#32] ∧ t.pub[6] = ⟨⟨0x3F000000#32, 0, 0, 0, 0⟩, false⟩ ∧ t.pub[7] = ⟨identityCoef, true⟩ := by decide +kernel

theorem test_cascadeProcess :
    answer (.cascadeProcess 1#4 0#4 0x3F800000#32)
        { audioReady with pub := resetImage.set 6 ⟨⟨0x3F000000#32, 0, 0, 0, 0⟩, false⟩ } =
      [0x00003100#32, 0x3F000000#32] ∧
    answer (.cascadeProcess 2#4 0#4 0) audioReset = [0x00003104#32] := by decide +kernel

/-- V-CHN-3 and V-CHN-4. -/
theorem test_chainProcess :
    answer (.chainProcess 1#4 0x3F000000#32) (afterExec (.chainProcess 0#4 0x7FC00000#32) audioReady) =
      [0x00004000#32, 0x7FC00000#32, 0x00004000#32, 0x3F000000#32] ∧
    answer (.chainProcess 0#4 0x3F000000#32) (afterExec (.chainProcess 0#4 0x7FC00000#32) audioReady) =
      [0x00004000#32, 0x7FC00000#32, 0x00004000#32, 0x7FC00000#32] := by decide +kernel

theorem test_chainReset :
    (afterExec (.chainReset 2#4) { audioReady with histR := zeroChan.set 8 ⟨1, 2, 3, 4⟩ }).histR = zeroChan ∧
    answer (.chainReset 0#4) audioReset = [0x00004105#32] := by decide +kernel

/-- The reset `PARAM` is outside the domain at 32000 Hz: its 20000 Hz is not below half of it (V-PRC-3, R140). -/
theorem test_chainConfigure_at_32000 (T : Transc) :
    chainConfigure T resetImage resetParams 0x46FA0000#32 = .error .domain := by
  cases h : chainConfigure T resetImage resetParams 0x46FA0000#32 with
  | error c => rw [chainConfigure_error h]
  | ok img =>
    obtain ⟨_, _, _, _, _, hc, _⟩ := chainConfigure_ok.mp h
    exact absurd (cutCoeffs_ok.mp hc).2.1 (by decide +kernel)

/-- V-PRC-3. -/
theorem test_prepare_coefKept :
    exec (.prepare 0x46FA0000#32 2#32) audioReset =
      .next { audioReset with
        fs := 0x46FA0000#32, maxBlk := 2, prepared := true, errAudio := 0x0000500A#32,
        audio := { rx := [], resp := [0x0000500A#32] } } := by
  have h : replyPrepare Config.transc 0x46FA0000#32 2#32 audioReset =
      .ok (prepareImage Config.transc 0x46FA0000#32 (audioReset.prepareFor 0x46FA0000#32 2#32)) := by
    rw [replyPrepare, checkPort_ok (u := ()).mpr (by decide), ok_bind, blockSizeArg_ok.mpr ⟨rfl, by decide, by decide⟩, ok_bind,
      rateArg_ok.mpr ⟨rfl, by decide +kernel⟩, ok_bind]
  have hi : prepareImage Config.transc 0x46FA0000#32 (audioReset.prepareFor 0x46FA0000#32 2#32) =
      ⟨audioReset.prepareFor 0x46FA0000#32 2#32, .coefKept, []⟩ := by
    unfold prepareImage
    rw [show (audioReset.prepareFor 0x46FA0000#32 2#32).pub = resetImage from rfl,
      show (audioReset.prepareFor 0x46FA0000#32 2#32).param = resetParams from rfl, test_chainConfigure_at_32000]
  show execPrepare _ _ _ = _
  rw [execPrepare, h, hi]
  rfl

/-- V-PRC-2. -/
theorem test_prepare_errors :
    answer (.prepare 0x7FC00000#32 0) audioReset = [0x00005005#32] ∧
    answer (.prepare 0x472C4400#32 65536#32) audioReset = [0x00005005#32] ∧
    answer (.prepare 0xC73B8000#32 16) audioReset = [0x00005006#32] ∧
    answer (.prepare 0x472C4400#32 16) State.reset = [0x00005003#32] := by decide +kernel

/-- V-PRC-4, and P1's block on an image whose slot 4 holds C1. -/
theorem test_processBlock :
    answer (.processBlock [(0x3F800000#32, 0x3F000000#32), (0, 0x3F000000#32), (0, 0), (0, 0)])
        { audioReady with pub := resetImage.set 4 ⟨c1, false⟩ } =
      [0x00005100#32, 0x3F000000#32, 0x3E800000#32, 0x3F000000#32, 0x3F000000#32, 0x3E800000#32, 0x3EC00000#32,
        0x00000000#32, 0x3E000000#32] ∧
    answer (.processBlock (List.replicate 5 (0, 0))) audioReady = [0x00005108#32] ∧
    answer (.processBlock (List.replicate 10 (0, 0))) audioReset = [0x00005107#32] := by decide +kernel

/-- V-PRC-5. -/
theorem test_updateParams_unprepared :
    answer (.updateParams ⟨0x447A0000#32, 0x41400000#32, 0x40000000#32, 0x41A00000#32, 0x46EA6000#32, 0, 0⟩)
        State.reset = [0x00005200#32] ∧
    answer (.updateParams ⟨0x7FC00000#32, 0x41400000#32, 0x40000000#32, 0x41A00000#32, 0x469C4000#32, 0, 4⟩)
        State.reset = [0x00005205#32] ∧
    answer (.updateParams ⟨0x447A0000#32, 0x41400000#32, 0, 0x41A00000#32, 0x469C4000#32, 0, 0⟩)
        State.reset = [0x00005206#32] := by decide +kernel

/-- V-ERR: the first failing check, and each port keeps its first failure. -/
theorem test_error_priority :
    stepAnswer .ctrl (waiting .ctrl [0x20F10000#32, 0, 0, 0, 0, 0]) = [0x00002002#32] ∧
    stepAnswer .audio (waiting .audio [0x20900000#32, 0, 0, 0, 0, 0]) = [0x00002003#32] ∧
    answer (.stageProcess 9#4 2#4 0) audioReset = [0x00002204#32] ∧
    answer (.stageProcess 0#4 2#4 0) audioReset = [0x00002205#32] ∧
    (afterExec (.stageSetBypass 1#4 2#4) { State.reset with errCtrl := 0x00002004#32 }).errCtrl = 0x00002004#32 := by decide +kernel

/-! The calculator's formulas under constant functions, where hand calculation gives the words: with tan = 1 and cos = 0.5
each Q is 1, so c1 = 1/3; the peak has alpha = 0.25, A = 1, c = -1 and a0 = 1.25. -/

theorem test_cut_sections :
    cutCoeffs constTransc .hp 0x447A0000#32 0x473B8000#32 2 =
      .ok [⟨0x3EAAAAAB#32, 0xBF2AAAAB#32, 0x3EAAAAAB#32, 0x00000000#32, 0x3EAAAAAB#32⟩] ∧
    cutCoeffs constTransc .lp 0x447A0000#32 0x473B8000#32 2 =
      .ok [⟨0x3EAAAAAB#32, 0x3F2AAAAB#32, 0x3EAAAAAB#32, 0x00000000#32, 0x3EAAAAAB#32⟩] := by decide +kernel

theorem test_peak_set :
    peakCoeffs constTransc 0x443B8000#32 0x3F800000#32 0 0x472C4400#32 =
      .ok ⟨0x3F800000#32, 0xBF4CCCCD#32, 0x3F19999A#32, 0xBF4CCCCD#32, 0x3F19999A#32⟩ := by decide +kernel

/-! Ports, steps and reset -/

/-- An incomplete packet holds its port, and the block idles (R33, R129). -/
theorem test_incomplete_holds :
    afterStep (waiting .ctrl [0x10000000#32, 1, 2, 3]) = waiting .ctrl [0x10000000#32, 1, 2, 3] := by decide +kernel

/-- An unread response holds its port (R34). -/
theorem test_unread_response_holds :
    (State.reset.placePacket .ctrl [0]).ready .ctrl = true ∧
    ({ State.reset with ctrl := { rx := [0], resp := [7] } } : State).ready .ctrl = false := by decide +kernel

/-- Reset discards a partly received packet and takes precedence (R131). -/
theorem test_reset_step :
    afterStep ({ audioReady with ctrl := { rx := [0, 1], resp := [7] } } : State).assertReset = State.reset := by decide +kernel

/-- R135: a run has not ended with a partly received packet, an unread response or a word still to come; a complete packet
is no partly received one (log entry 20). -/
theorem test_ended :
    (Run.start State.reset).ended [.step, .read .ctrl] = true ∧
    (Run.start (waiting .ctrl [0, 0x10000000#32, 1, 2, 3])).ended [] = false ∧
    (Run.start { State.reset with audio := { rx := [], resp := [7] } }).ended [] = false ∧
    (Run.start State.reset).ended [.send .audio 0] = false ∧
    (Run.start (waiting .ctrl [0, 0])).ended [] = true ∧ (waiting .ctrl [0, 0]).quiet = false := by decide +kernel

/-- The responses the host has received are part of the final state (R135): `RD_REG GEN_PUB` sent, run and read. -/
theorem test_received :
    let r := (Run.start State.reset).moves [.send .ctrl 0x01000004#32, .step, .read .ctrl, .read .ctrl, .read .ctrl]
    r.received .ctrl = [0x00000100#32, 0x00000000#32] ∧ r.received .audio = [] ∧ r.state.ctrl.resp = [] ∧
      r.ended [] = true ∧ r.state.quiet = true := by decide +kernel

/-- The turn (log entry 2) on a run in which CTRL wins every tie and AUDIO then runs alone (R43), and on one in which CTRL
wins three ties and AUDIO two: `first` chooses CTRL, with patience 0 in the former, and 2 then 1 in the latter. -/
theorem test_turn :
    (List.range 6).map (fun n =>
      (turnAt (fun _ => .ctrl) (fun _ => 0) (fun m => if m % 2 = 0 then some .ctrl else none) n).winner
        fun _ => .ctrl) = [.ctrl, .audio, .ctrl, .audio, .ctrl, .audio] ∧
    (List.range 6).map (fun n =>
      (turnAt (fun _ => .ctrl) (fun k => 2 - k) (fun _ => some .ctrl) n).winner fun _ => .ctrl) =
        [.ctrl, .ctrl, .ctrl, .audio, .audio, .ctrl] := by decide

/-- A port that ran alone was not passed over: it no longer waits (R44). -/
theorem test_turn_alone :
    (afterStep { (waiting .audio [0]) with turn := { waiting := some (.audio, 3), draws := 7 } }).turn =
      { waiting := none, draws := 7 } := by decide +kernel

/-! Witnesses: states and operands that meet the hypotheses of an obligation, clause by clause, at the boundaries of their
ranges -/

/-- The state a next outcome leaves. -/
def nextIs (o : Host.Outcome State Fault Refusal) (t : State) : Bool :=
  match o with
  | .next u => decide (u = t)
  | _ => false

theorem next_of_nextIs {o : Host.Outcome State Fault Refusal} {t : State} (h : nextIs o t = true) : o = .next t := by
  unfold nextIs at h
  split at h
  · simp_all
  · simp at h

theorem witness_O1 :
    (Instr.processBlock []).wellFormed = true ∧ (Instr.stageReset 15#4 15#4).wellFormed = true := by decide

theorem witness_O2 :
    decode [0x31FF0000#32, 7, 0x01000000#32] = .instr (.cascadeProcess 15#4 15#4 7#32) [0x01000000#32] := by decide

theorem witness_O7 :
    let s := waiting .audio [0x03000000#32, 0xFFFFFFFF#32]
    s.resetIn = false ∧ s.pick = some (.audio, s) ∧ (s.io .audio).rx = [0x03000000#32, 0xFFFFFFFF#32] ∧
      hdrOpc 0x03000000#32 ∉ [0x00#8, 0x01#8, 0x02#8, 0x10#8, 0x11#8, 0x20#8, 0x21#8, 0x22#8, 0x23#8, 0x30#8, 0x31#8,
        0x40#8, 0x41#8, 0x50#8, 0x51#8, 0x52#8] := by decide

/-- One header for each format and each reserved field. -/
theorem witness_O8_headers :
    (hdrOpc 0x00100000#32 = Op.nop.code ∧ Op.nop.format = .f0 ∧ hdrS 0x00100000#32 ≠ 0) ∧
    (hdrOpc 0x00010000#32 = Op.nop.code ∧ Op.nop.format = .f0 ∧ hdrA 0x00010000#32 ≠ 0) ∧
    (hdrOpc 0x02000001#32 = Op.clrErr.code ∧ Op.clrErr.format = .f0 ∧ hdrN 0x02000001#32 ≠ 0) ∧
    (hdrOpc 0x01100000#32 = Op.rdReg.code ∧ Op.rdReg.format = .fn ∧ hdrS 0x01100000#32 ≠ 0) ∧
    (hdrOpc 0x01010000#32 = Op.rdReg.code ∧ Op.rdReg.format = .fn ∧ hdrA 0x01010000#32 ≠ 0) ∧
    (hdrOpc 0x20010000#32 = Op.stageSetCoeffs.code ∧ Op.stageSetCoeffs.format = .fs ∧ hdrA 0x20010000#32 ≠ 0) ∧
    (hdrOpc 0x20000001#32 = Op.stageSetCoeffs.code ∧ Op.stageSetCoeffs.format = .fs ∧ hdrN 0x20000001#32 ≠ 0) ∧
    (hdrOpc 0x21000001#32 = Op.stageSetBypass.code ∧ Op.stageSetBypass.format = .fsa ∧ hdrN 0x21000001#32 ≠ 0) ∧
    (hdrOpc 0x41100000#32 = Op.chainReset.code ∧ Op.chainReset.format = .fa ∧ hdrS 0x41100000#32 ≠ 0) ∧
    (hdrOpc 0x41008000#32 = Op.chainReset.code ∧ Op.chainReset.format = .fa ∧ hdrN 0x41008000#32 ≠ 0) := by
  decide

theorem witness_O8_states :
    (waiting .ctrl [0x02000001#32, 5]).resetIn = false ∧
    (waiting .ctrl [0x02000001#32, 5]).pick = some (.ctrl, waiting .ctrl [0x02000001#32, 5]) ∧
    ((waiting .ctrl [0x02000001#32, 5]).io .ctrl).rx = [0x02000001#32, 5] ∧
    (waiting .ctrl [0x20010000#32, 0, 0, 0, 0, 0]).pick =
      some (.ctrl, waiting .ctrl [0x20010000#32, 0, 0, 0, 0, 0]) := by decide +kernel

/-- The last and first indices around each range, on the port the clause names. -/
theorem witness_O10 :
    regOfIndex 0x008 = none ∧ regOfIndex 0x106 = none ∧ regOfIndex 0x246 = none ∧ regOfIndex 0x324 = none ∧
    regOfIndex 0x364 = none ∧ regOfIndex 0xFFFF = none ∧
    (Reg.hist .left 0 0).index = 0x300 ∧ (Reg.hist .right 8 3).index = 0x363 ∧ State.reset.port = .ctrl ∧
    (Reg.actByp 8).index = 0x245 ∧ Reg.id.index = 0x000 ∧ audioReset.port = .audio := by decide

/-- The `HIST` clause at its last index, from a history that tells its values apart. -/
theorem witness_O10_hist :
    answer (.rdReg 0x363#16) { audioReset with histR := zeroChan.set 8 ⟨1, 2, 3, 4⟩ } = [0x00000100#32, 4#32] := by
  decide +kernel

theorem witness_O12_error :
    firstError (.stageProcess 9#4 2#4 0) audioReset = some .badSlot := by decide +kernel

theorem witness_O12_none : firstError (.stageProcess 8#4 1#4 0) audioReady = none := by decide +kernel

theorem witness_O14 :
    ∃ t : State, exec (.stageReset 9#4 1#4) audioReset = .next t ∧
      (t.io audioReset.port).resp =
        (audioReset.io audioReset.port).resp ++ (statusWord (Instr.stageReset 9#4 1#4).op.code .badSlot :: []) :=
  ⟨afterExec (.stageReset 9#4 1#4) audioReset, next_of_nextIs (by decide +kernel), by decide +kernel⟩

theorem witness_O15 :
    (Status.badSlot ≠ .ok ∧ (audioReset.err audioReset.port).toNat % 2 ^ 8 = 0) ∧
    (let s := { State.reset with errCtrl := 0x00002004#32 }
     (s.err s.port).toNat % 2 ^ 8 ≠ 0 ∧ Instr.nop ≠ .clrErr ∧
       nextIs (exec .nop s) (afterExec .nop s) = true) := by decide +kernel

theorem witness_O16 :
    let s := State.reset
    let i := Instr.stageSetBypass 4#4 1#4
    nextIs (exec i s) (afterExec i s) = true ∧ (afterExec i s).pub ≠ s.pub ∧ (afterExec i s).genPub ≠ s.genPub := by
  decide +kernel

/-- A failing command that writes its port's sticky register, and `CLR_ERR`. -/
theorem witness_O16_sticky :
    let i := Instr.stageReset 9#4 1#4
    let s := { State.reset with errCtrl := 0x00002004#32 }
    nextIs (exec i audioReset) (afterExec i audioReset) = true ∧
      (afterExec i audioReset).err .audio ≠ audioReset.err .audio ∧
      nextIs (exec .clrErr s) (afterExec .clrErr s) = true ∧ (afterExec .clrErr s).err .ctrl ≠ s.err .ctrl := by
  decide +kernel

theorem witness_O16_param :
    let i := Instr.updateParams ⟨0x447A0000#32, 0x41400000#32, 0x40000000#32, 0x41A00000#32, 0x46EA6000#32, 0, 3⟩
    nextIs (exec i State.reset) (afterExec i State.reset) = true ∧ (afterExec i State.reset).param ≠ resetParams := by
  decide +kernel

theorem witness_O16_latch :
    let s := { audioReady with pub := resetImage.set 4 ⟨c1, false⟩, genPub := 0xFFFFFFFF#32 }
    let i := Instr.chainProcess 1#4 0x3F800000#32
    nextIs (exec i s) (afterExec i s) = true ∧ (afterExec i s).act ≠ s.act ∧ (afterExec i s).genAct ≠ s.genAct ∧
      (afterExec i s).histR ≠ s.histR ∧ s.port = .audio := by decide +kernel

/-- A `PREPARE` that completes, writing the rate registers. -/
theorem witness_O16_prepare :
    ∃ t : State, exec (.prepare 0x46FA0000#32 2#32) audioReset = .next t ∧ t.fs ≠ audioReset.fs :=
  ⟨_, test_prepare_coefKept, by decide⟩

theorem witness_O17_ctrl :
    State.reset.port = .ctrl ∧ nextIs (exec .nop State.reset) (afterExec .nop State.reset) = true := by decide +kernel

theorem witness_O18 :
    State.reset.port = .ctrl ∧ State.reset.histL ≠ zeroChan.set 8 ⟨1, 2, 3, 4⟩ := by decide +kernel

/-- A publication that wraps the generation (R25). -/
theorem witness_O19 :
    let s := { State.reset with genPub := 0xFFFFFFFF#32 }
    nextIs (exec (.stageSetBypass 8#4 0#4) s) (afterExec (.stageSetBypass 8#4 0#4) s) = true ∧
      (afterExec (.stageSetBypass 8#4 0#4) s).genPub = 0 := by decide +kernel

theorem witness_O20 :
    (∀ s ∈ [audioReady, audioReset],
      nextIs (exec (.processBlock []) s) (afterExec (.processBlock []) s) = true) ∧
    ((afterExec (.processBlock []) audioReady).io .audio).resp = [] ++ (statusWord Op.processBlock.code .ok :: []) ∧
    ((afterExec (.processBlock []) audioReset).io .audio).resp =
      [] ++ (statusWord Op.processBlock.code .notPrepared :: []) := by decide +kernel

theorem witness_O22 : State.reset.port = .ctrl ∧ audioReset.port = .audio := by decide

/-- Inside the domain, at its upper edge (just below fs/2), and outside it at fs/2. -/
theorem witness_O23 :
    peakDomain 0x443B8000#32 0x3F800000#32 0 0x472C4400#32 = true ∧
    peakDomain 0x4679FFFF#32 0x00000001#32 0xFF7FFFFF#32 0x46FA0000#32 = true ∧
    peakDomain 0x467A0000#32 0x3F800000#32 0 0x46FA0000#32 = false := by decide +kernel

theorem witness_O24 :
    (∀ m : Fin 4, cutDomain 0x00000001#32 0x473B8000#32 (2 * (m.val + 1)) = true) ∧
    (∀ m : Fin 4, cutDomain 0x467A0000#32 0x46FA0000#32 (2 * (m.val + 1)) = false) := by decide +kernel

theorem witness_O26 :
    constTransc.Exp10Unit ∧
    peakCoeffs constTransc 0x443B8000#32 0x3F800000#32 0x80000000#32 0x472C4400#32 =
      .ok ⟨0x3F800000#32, 0xBF4CCCCD#32, 0x3F19999A#32, 0xBF4CCCCD#32, 0x3F19999A#32⟩ :=
  ⟨⟨rfl, rfl⟩, by decide +kernel⟩

/-- An image that `ChainConfigure` answers, for the smallest and the largest slopes. -/
theorem witness_O27 :
    isErr (chainConfigure constTransc resetImage resetParams 0x473B8000#32) = false ∧
    isErr (chainConfigure constTransc resetImage { resetParams with lcSlope := 3, hcSlope := 3 } 0x473B8000#32) =
      false ∧
    isErr (cutCoeffs constTransc .lp resetParams.hcFreq 0x46FA0000#32 (2 * (resetParams.hcSlope.toNat + 1))) = true ∧
    isErr (cutCoeffs constTransc .hp 0x41A00000#32 0x473B8000#32 (2 * (4 + 1))) = true ∧
    isErr (peakCoeffs constTransc 0x443B8000#32 0x80000000#32 0 0x473B8000#32) = true := by decide +kernel

/-- Three computations that all succeed (R100). -/
theorem witness_O27_ok :
    isErr (peakCoeffs constTransc resetParams.peakFreq resetParams.peakQ resetParams.peakGain 0x473B8000#32) = false ∧
    isErr (cutCoeffs constTransc .hp resetParams.lcFreq 0x473B8000#32 (2 * (resetParams.lcSlope.toNat + 1))) = false ∧
    isErr (cutCoeffs constTransc .lp resetParams.hcFreq 0x473B8000#32 (2 * (resetParams.hcSlope.toNat + 1))) = false := by
  decide +kernel

theorem witness_O28 :
    ∃ out : Image, chainConfigure constTransc resetImage resetParams 0x473B8000#32 = .ok out := by
  cases h : chainConfigure constTransc resetImage resetParams 0x473B8000#32 with
  | ok out => exact ⟨out, rfl⟩
  | error c => exact absurd (congrArg isErr h) (by rw [witness_O27.1]; exact Bool.false_ne_true)

theorem witness_O30 :
    ctrlReady.port = .ctrl ∧ coefFinite c1 = true ∧
      coefFinite ⟨0x7F7FFFFF#32, 0xFF7FFFFF#32, 0x80000000#32, 0x00000001#32, 0⟩ = true := by decide +kernel

theorem witness_O31 : State.reset.port = .ctrl := by decide

/-- The slots of both cascades. -/
theorem witness_O41 :
    (∃ k0 k1 k2 k3 : Slot, [k0, k1, k2, k3] = cascadeSlots .lc) ∧ ∃ k0 k1 k2 k3 : Slot, [k0, k1, k2, k3] = cascadeSlots .hc ∧
      [k0, k1, k2, k3] = [5, 6, 7, 8] := ⟨⟨_, _, _, _, rfl⟩, ⟨_, _, _, _, rfl, rfl⟩⟩

/-- For O32, O33, O41, O42, O43, O45 and O46: the AUDIO port, prepared. -/
theorem witness_O32 : audioReady.port = .audio ∧ audioReady.prepared = true := by decide

theorem witness_O36 :
    isNaN32 0xFF800001#32 = true ∧ isNaN32 (stageStep identityCoef zeroHist 0x7FC12345#32).1 = true := by decide +kernel

theorem witness_O37 :
    isNaN32 0x7FC00000#32 = true ∧ isNaN32 0x7F800001#32 = true ∧ isNaN32 0xFFFFFFFF#32 = true ∧
    (stageRun ⟨c1, false⟩ ⟨0, 0, 0, 0x7FC00000#32⟩ [0, 0]).1 = [0x7FC00000#32, 0x7FC00000#32] := by decide +kernel

/-- The two clauses at the largest finite word and at the infinities. -/
theorem witness_O38 :
    finite32 0xFF7FFFFF#32 = true ∧ finite32 0x00000000#32 = true ∧ finite32 0x7F7FFFFF#32 = true ∧
    finite32 0x7F800000#32 = false ∧ finite32 0xFF800000#32 = false := by decide +kernel

theorem witness_O39 :
    finite32 0x7F7FFFFF#32 = true ∧ finite32 0x80000001#32 = true ∧
    fadd 0x7F7FFFFF#32 0x73000000#32 = 0x7F800000#32 ∧ fadd 0x7F7FFFFF#32 0x72FFFFFF#32 = 0x7F7FFFFF#32 := by
  decide +kernel

/-- The clauses on zero sums, NaNs and infinities: exact zeros of both signs, the least NaN, both infinities, and a zero
and a nonzero finite operand beside one. -/
theorem witness_O39_special :
    value32 0x80000000#32 + value32 0x80000000#32 = 0 ∧ value32 0x80000000#32 - value32 0x00000000#32 = 0 ∧
    value32 0x7F7FFFFF#32 + value32 0xFF7FFFFF#32 = 0 ∧ isNaN32 0x7F800001#32 = true ∧
    finite32 0x80000000#32 = true ∧ value32 0x80000000#32 = 0 ∧ finite32 0x80000001#32 = true ∧
    value32 0x80000001#32 ≠ 0 := by decide +kernel

/-- IEEE 754 on its special operands (R10, R85): Inf - Inf, 0 × Inf, and the sign of an exact zero. -/
theorem test_special_operands :
    fsub 0x7F800000#32 0x7F800000#32 = 0x7FC00000#32 ∧ fsub 0x3F800000#32 0x7F800000#32 = 0xFF800000#32 ∧
    fmul 0x7F800000#32 0x80000000#32 = 0x7FC00000#32 ∧ fmul 0xFF800000#32 0xBF800000#32 = 0x7F800000#32 ∧
    fsub 0x80000000#32 0x00000000#32 = 0x80000000#32 ∧ fsub 0x3F800000#32 0x3F800000#32 = 0x00000000#32 ∧
    fmul 0x80000000#32 0x3F800000#32 = 0x80000000#32 := by decide +kernel

/-- For O11, clause by clause: the least and the largest finite magnitude, zeros of both signs that sum to zero, a NaN with
the least payload, a zero and a nonzero divisor. -/
theorem witness_O11 :
    finite64 0x7FEFFFFFFFFFFFFF#64 = true ∧ finite64 0x8000000000000001#64 = true ∧
    finite64 0x8000000000000000#64 = true ∧ value64 0x8000000000000000#64 = 0 ∧ value64 0x8000000000000001#64 ≠ 0 ∧
    value64 0x8000000000000000#64 + value64 0x8000000000000000#64 = 0 ∧
    value64 0x8000000000000000#64 - value64 0x0000000000000000#64 = 0 ∧ isNaN64 0x7FF0000000000001#64 = true ∧
    finite32 0x7F7FFFFF#32 = true ∧ isNaN32 0xFF800001#32 = true := by decide +kernel

/-- IEEE 754 in binary64 (R10, R66): 1/3, the tie 1 + 2^-53 and what lies above it, overflow, 1 over -0, and 0 over 0. -/
theorem test_binary64_rounding :
    ddiv dOne 0x4008000000000000#64 = 0x3FD5555555555555#64 ∧ dadd dOne 0x3CA0000000000000#64 = dOne ∧
    dadd dOne 0x3CA0000000000001#64 = 0x3FF0000000000001#64 ∧
    dmul 0x7FE0000000000000#64 dTwo = inf64 false ∧ ddiv dOne 0x8000000000000000#64 = inf64 true ∧
    isNaN64 (ddiv 0#64 0#64) = true := by decide +kernel

/-- `r32` (R10): the tie 1 + 2^-24 to even, what lies above it, overflow from 2^128 - 2^103 on, and the sign of a value that
rounds to zero. -/
theorem test_r32_rounding :
    r32 0x3FF0000010000000#64 = 0x3F800000#32 ∧ r32 0x3FF0000010000001#64 = 0x3F800001#32 ∧
    r32 0x47EFFFFFF0000000#64 = 0x7F800000#32 ∧ r32 0x47EFFFFFEFFFFFFF#64 = 0x7F7FFFFF#32 ∧
    r32 0x8000000000000001#64 = 0x80000000#32 := by decide +kernel

/-- The smallest slope with unread sets that are NaN, and the largest slope. -/
theorem witness_O40 :
    State.reset.port = .ctrl ∧
    (∀ i : Fin 4, i ≤ (0 : Fin 4) → coefFinite #v[c1, nanSet, nanSet, nanSet][i] = true) ∧
    (∀ i : Fin 4, i ≤ (3 : Fin 4) → coefFinite #v[c1, c1, identityCoef, c1][i] = true) := by decide +kernel

/-- The smallest and the largest legal block size, and the smallest positive rate. -/
theorem witness_O45 :
    audioReset.port = .audio ∧ 1 ≤ (1#32).toNat ∧ (65535#32).toNat ≤ 65535 ∧ finitePositive 0x00000001#32 = true ∧
      finitePositive 0x7F7FFFFF#32 = true := by decide +kernel

theorem witness_O46 :
    finitePositive 0x46FA0000#32 = true ∧ freqLegal resetParams.hcFreq 0x46FA0000#32 = false ∧
    freqLegal resetParams.peakFreq 0x447A0000#32 = false ∧ freqLegal resetParams.lcFreq 0x42200000#32 = false := by
  decide +kernel

/-- For O47 and O49: no frame, one frame, and as many as `MAXBLK`. -/
theorem witness_O47 :
    audioReady.port = .audio ∧ audioReady.prepared = true ∧
    ([] : List (Word × Word)).length ≤ audioReady.maxBlk.toNat ∧
    (List.replicate 4 (0x7FC12345#32, 0x3F800000#32)).length ≤ audioReady.maxBlk.toNat := by decide

theorem witness_O48 :
    [1#32, 2].length = [3#32, 4].length ∧ [5#32, 6].length = [1#32, 2].length ∧
      [7#32, 8].length = [3#32, 4].length := by decide

/-- Two frames and an interleaving of them that keeps each channel's order. -/
theorem witness_O49 :
    let frames := [(0x3F800000#32, 0x3F000000#32), (0, 0x3F000000#32)]
    let cs := [(Channel.right, 0x3F000000#32), (.right, 0x3F000000#32), (.left, 0x3F800000#32), (.left, 0)]
    frames.length ≤ audioReady.maxBlk.toNat ∧ frames ≠ [] ∧
      samplesOf .left cs = frames.map (·.1) ∧ samplesOf .right cs = frames.map (·.2) := by decide

theorem witness_O50 :
    State.reset.port = .ctrl ∧ State.reset.prepared = false ∧ ctrlReady.port = .ctrl ∧ ctrlReady.prepared = true ∧
    (3#32).toNat ≤ 3 ∧
    unpreparedLegal { resetParams with lcSlope := 3, hcSlope := 3, hcFreq := 0x7F7FFFFF#32 } = true ∧
    unpreparedLegal { resetParams with peakQ := 0x80000000#32 } = false := by decide +kernel

theorem witness_O51 :
    let s := waiting .ctrl [0x01000004#32, 0]
    s.resetIn = false ∧ s.pick = some (.ctrl, s) ∧ decode (s.io .ctrl).rx = .instr (.rdReg 4#16) [0] := by decide

/-- CTRL winning every tie and AUDIO running alone after each, for ever: no port is passed over for ever. -/
theorem witness_O52_ties :
    ∀ (n : Nat) (p : Port), (if n % 2 = 0 then some Port.ctrl else none) = some p →
      ∃ m : Nat, n < m ∧ (if m % 2 = 0 then some Port.ctrl else none) ≠ some p := by
  intro n p h
  refine ⟨n + 1, by omega, ?_⟩
  have hn : n % 2 = 0 := by by_contra hn; simp [hn] at h
  rw [if_neg (by omega)]
  simp

/-- One port ready, none ready, and both. -/
theorem witness_O52 :
    let one := waiting .audio [0]
    let both := one.sendAll .ctrl [0]
    Port.audio ≠ .ctrl ∧ one.ready .audio = true ∧ one.ready .ctrl = false ∧ one.pick = some (.audio, one) ∧
    both.ready .ctrl = true ∧ both.ready .audio = true ∧
    State.reset.resetIn = false ∧ State.reset.ready .ctrl = false ∧ State.reset.ready .audio = false := by decide

theorem witness_O53 :
    (waiting .ctrl [0, 0]).resetIn = false ∧
    nextIs (step (waiting .ctrl [0, 0])) (afterStep (waiting .ctrl [0, 0])) = true := by decide +kernel

theorem witness_O54 : (waiting .audio [0]).resetIn = false ∧ (waiting .audio [0]).ready .audio = true := by decide

/-- An execution with endlessly many steps, in which a port is ready at the start. -/
theorem witness_O54_fair :
    (∀ n : Nat, ∃ m : Nat, n ≤ m ∧ (fun _ => Move.step : Nat → Move) m = .step) ∧
    ((Run.start (waiting .audio [0])).at (fun _ => .step) 0).state.ready .audio = true :=
  ⟨fun n => ⟨n, le_rfl, rfl⟩, by decide⟩

theorem witness_O56 : (audioReady.assertReset).resetIn = true := by decide

/-- A state that no run from reset need reach, a step from it, and the invariant. -/
theorem witness_O58 :
    let s := { (audioReady.sendAll .audio [0x23930000#32]) with errAudio := 0x0000FF01#32, genAct := 7 }
    s.inv = true ∧ nextIs (step s) (afterStep s) = true := by decide +kernel

theorem witness_O59 :
    (Run.start audioReady).state.inv = true ∧ (Run.start audioReady).state.resetIn = false ∧
    Move.reset ∉ [Move.send .ctrl 0, .step, .read .ctrl] := by decide +kernel

theorem witness_O60 :
    (8 : ℕ) ∈ [2, 4, 6, 8] ∧ 3 < 8 / 2 ∧ (0 : ℝ) < 1000 ∧ (1000 : ℝ) < 48000 / 2 := by norm_num

end Sys2Proof.Tests
end

section
/-! The failing commands of R12. -/

namespace Sys2Proof.Machine

/-- The buffers and the sticky register of a port are written in either order. -/
theorem State.setErr_setIO (s : State) (p q : Port) (w : Word) (b : PortIO) :
    (s.setErr p w).setIO q b = (s.setIO q b).setErr p w := by
  cases p <;> cases q <;> rfl

/-- A command whose response begins with a code other than `OK` and `COEF_KEPT` ended with that code in the state it
started in (R11, R12). -/
theorem exec_of_failing_response {i : Instr} {s t : State} {c : Status} {ws : List Word} (h : exec i s = .next t)
    (hr : (t.io s.port).resp = (s.io s.port).resp ++ (statusWord i.op.code c :: ws)) (hok : c ≠ .ok)
    (hkept : c ≠ .coefKept) : t = s.finish i.op.code c [] ∧ ws = [] := by
  rcases exec_cases i s with ⟨a, -, he, hx⟩ | ⟨d, -, hx⟩
  · obtain rfl : a.state.finish i.op.code a.status a.words = t := by simpa [hx] using h
    rw [State.finish_io, he.port, if_pos rfl, he.io, List.append_cancel_left_eq, List.cons.injEq] at hr
    obtain rfl := statusWord_injective hr.1
    rcases he.status with hs | ⟨hs, -⟩
    · exact absurd hs hok
    · exact absurd hs hkept
  · obtain rfl : s.finish i.op.code d [] = t := by simpa [hx] using h
    rw [State.finish_io, if_pos rfl, List.append_cancel_left_eq, List.cons.injEq] at hr
    obtain rfl := statusWord_injective hr.1
    exact ⟨rfl, by simpa using hr.2.symm⟩

end Sys2Proof.Machine

open Sys2Proof Sys2Proof.Machine

/-- Settles O14: such a response is an ending in the state the command started in, and an ending writes the sticky
register and the response only. -/
theorem failingCommandHasNoEffect : Obligations.FailingCommandHasNoEffect := by
  unfold Obligations.FailingCommandHasNoEffect
  intro i s t c ws h hr hok hkept
  obtain ⟨rfl, rfl⟩ := exec_of_failing_response h hr hok hkept
  refine ⟨rfl, ?_⟩
  conv_lhs => rw [State.finish_eq, State.setErr_setIO]
  simp [hok]

end

section
/-! Rounding to a format on nonnegative magnitudes: the units of a magnitude field grow with it, `roundMag` picks the
nearer of the two fields around the exact ratio, and the even one where they are equally near (R10). -/

namespace Sys2Proof.Machine

/-- What makes the fields of a format fit together: the quiet NaN's magnitude lies below an even sign bit. -/
structure Format.WellFormed (f : Format) : Prop where
  frac_pos : 0 < f.frac
  two_le_emax : 2 ≤ f.emax
  qnan_lt : f.qnan < f.signBit
  signBit_even : f.signBit % 2 = 0
  scale_pos : 0 < f.scale

theorem binary32_wellFormed : binary32.WellFormed := by constructor <;> decide

theorem binary64_wellFormed : binary64.WellFormed := by
  constructor
  case scale_pos => exact Nat.pow_pos (by decide)
  all_goals decide

variable {f : Format}

/-- The units of the significand `q` in binade `e`: the field grows through a binade's end without a break. -/
theorem Format.unitsOf_binade (f : Format) {e q : Nat} (hq : q ≤ 2 ^ (f.frac + 1)) (he : e = 0 ∨ 2 ^ f.frac ≤ q) :
    f.unitsOf (e * 2 ^ f.frac + q) = q * 2 ^ e := by
  have hp : 0 < 2 ^ f.frac := by positivity
  rw [pow_succ] at hq
  unfold Format.unitsOf
  rw [Nat.mul_comm e, Nat.mul_add_div hp, Nat.mul_add_mod]
  rcases Nat.lt_or_ge q (2 ^ f.frac) with h | h
  · obtain rfl : e = 0 := by omega
    simp [Nat.div_eq_of_lt h]
  · rcases Nat.lt_or_ge q (2 ^ f.frac * 2) with h' | h'
    · have hd : q / 2 ^ f.frac = 1 := Nat.div_eq_of_lt_le (by omega) (by omega)
      have hm : q % 2 ^ f.frac = q - 2 ^ f.frac := by rw [Nat.mod_eq_sub_mod h, Nat.mod_eq_of_lt (by omega)]
      simp [hd, hm, Nat.add_sub_cancel' h]
    · obtain rfl : q = 2 ^ f.frac * 2 := by omega
      simp [pow_succ]
      ring

/-- Every magnitude field has a significand and a binade. -/
theorem Format.exists_binade (f : Format) (k : Nat) :
    ∃ e q, k = e * 2 ^ f.frac + q ∧ q < 2 ^ (f.frac + 1) ∧ (e = 0 ∨ 2 ^ f.frac ≤ q) := by
  have hp : 0 < 2 ^ f.frac := by positivity
  rcases Nat.lt_or_ge k (2 ^ f.frac) with h | h
  · exact ⟨0, k, by simp, by rw [pow_succ]; omega, .inl rfl⟩
  · obtain ⟨j, rfl⟩ := Nat.exists_eq_add_of_le h
    have hm := Nat.mod_lt j hp
    refine ⟨j / 2 ^ f.frac, 2 ^ f.frac + j % 2 ^ f.frac, ?_, by rw [pow_succ]; omega, .inr (by omega)⟩
    have := Nat.div_add_mod' j (2 ^ f.frac)
    omega

theorem Format.unitsOf_strictMono (f : Format) : StrictMono f.unitsOf := by
  refine strictMono_nat_of_lt_succ fun k => ?_
  obtain ⟨e, q, rfl, hq, he⟩ := f.exists_binade k
  rw [Nat.add_assoc, f.unitsOf_binade hq.le he, f.unitsOf_binade hq (by omega)]
  exact Nat.mul_lt_mul_of_pos_right q.lt_succ_self (by positivity)

@[simp] theorem Format.unitsOf_zero (f : Format) : f.unitsOf 0 = 0 := by simp [Format.unitsOf]

theorem Format.unitsOf_eq_zero (f : Format) {k : Nat} : f.unitsOf k = 0 ↔ k = 0 := by
  simpa using f.unitsOf_strictMono.injective.eq_iff (a := k) (b := 0)

/-- The binade of `num / den` units. -/
def Format.binade (f : Format) (num den : Nat) : Nat := (num / den).log2 - f.frac

/-- The magnitude field that `roundMag` rounds to before it stops at infinity's. -/
def Format.roundIdx (f : Format) (num den : Nat) : Nat :=
  let d := den * 2 ^ f.binade num den
  f.binade num den * 2 ^ f.frac + num / d +
    if d < 2 * (num % d) ∨ (2 * (num % d) = d ∧ num / d % 2 = 1) then 1 else 0

theorem Format.roundMag_eq_min (f : Format) (num den : Nat) :
    f.roundMag num den = min (f.roundIdx num den) f.infMag := rfl

/-- The significand of `num / den` in its binade fits in the fraction and the hidden bit, and has the hidden bit above the
lowest binade. -/
theorem Format.significand_bounds (f : Format) (num den : Nat) :
    num / (den * 2 ^ f.binade num den) < 2 ^ (f.frac + 1) ∧
      (f.binade num den = 0 ∨ 2 ^ f.frac ≤ num / (den * 2 ^ f.binade num den)) := by
  unfold Format.binade
  rw [← Nat.div_div_eq_div_mul]
  generalize num / den = n
  constructor
  · refine Nat.div_lt_of_lt_mul (Nat.lt_log2_self.trans_le ?_)
    rw [← pow_add]
    exact Nat.pow_le_pow_right (by omega) (by omega)
  · rcases Nat.eq_zero_or_pos (n.log2 - f.frac) with h | h
    · exact .inl h
    · right
      have hn : n ≠ 0 := by rintro rfl; simp at h
      rw [Nat.le_div_iff_mul_le (by positivity), ← pow_add, show f.frac + (n.log2 - f.frac) = n.log2 by omega]
      exact Nat.log2_self_le hn

/-- The exact ratio lies between two neighbouring fields, and rounding picks the nearer one or, half way,
the even one. -/
theorem Format.roundIdx_neighbours (hf : 0 < f.frac) {num den : Nat} (hden : 0 < den) :
    ∃ m, f.unitsOf m * den ≤ num ∧ num ≤ f.unitsOf (m + 1) * den ∧
      ((f.roundIdx num den = m ∧ 2 * num ≤ (f.unitsOf m + f.unitsOf (m + 1)) * den ∧
          (2 * num = (f.unitsOf m + f.unitsOf (m + 1)) * den → m % 2 = 0)) ∨
        (f.roundIdx num den = m + 1 ∧ (f.unitsOf m + f.unitsOf (m + 1)) * den ≤ 2 * num ∧
          (2 * num = (f.unitsOf m + f.unitsOf (m + 1)) * den → (m + 1) % 2 = 0))) := by
  obtain ⟨hq, he⟩ := f.significand_bounds num den
  refine ⟨f.binade num den * 2 ^ f.frac + num / (den * 2 ^ f.binade num den), ?_⟩
  have hpar : 2 ^ f.frac % 2 = 0 := by simp [Nat.pow_mod, Nat.zero_pow hf]
  have hlow := f.unitsOf_binade hq.le he
  have hhigh := f.unitsOf_binade (e := f.binade num den) (q := num / (den * 2 ^ f.binade num den) + 1) hq (by omega)
  rw [← Nat.add_assoc] at hhigh
  rw [hlow, hhigh]
  simp only [Format.roundIdx]
  generalize f.binade num den = e at *
  have hpos : 0 < den * 2 ^ e := by positivity
  have hdm := Nat.div_add_mod num (den * 2 ^ e)
  have hlt := Nat.mod_lt num hpos
  generalize num / (den * 2 ^ e) = q at *
  generalize num % (den * 2 ^ e) = r at *
  have hlo : q * 2 ^ e * den = den * 2 ^ e * q := by ring
  have hhi : (q + 1) * 2 ^ e * den = den * 2 ^ e * q + den * 2 ^ e := by ring
  have hsum : (q * 2 ^ e + (q + 1) * 2 ^ e) * den = 2 * (den * 2 ^ e * q) + den * 2 ^ e := by ring
  have hmod : (e * 2 ^ f.frac + q) % 2 = q % 2 := by simp [Nat.add_mod, Nat.mul_mod, hpar]
  rw [hlo, hhi, hsum]
  generalize den * 2 ^ e * q = dq at *
  generalize den * 2 ^ e = d at *
  generalize e * 2 ^ f.frac + q = m at *
  refine ⟨by omega, by omega, ?_⟩
  split
  · exact .inr ⟨rfl, by omega, by omega⟩
  · exact .inl ⟨rfl, by omega, by omega⟩

/-- Between two neighbours, with every other value beyond them: the neighbour on `x`'s side of the middle is nearest, and
another value is as near only from the middle. -/
theorem nearest_of_between {a b x u : ℚ} (ha : a ≤ x) (hb : x ≤ b) (hu : u ≤ a ∨ b ≤ u) :
    (2 * x ≤ a + b → |a - x| ≤ |u - x| ∧ (|a - x| = |u - x| → u ≠ a → 2 * x = a + b)) ∧
      (a + b ≤ 2 * x → |b - x| ≤ |u - x| ∧ (|b - x| = |u - x| → u ≠ b → 2 * x = a + b)) := by
  rw [abs_of_nonpos (sub_nonpos.mpr ha), abs_of_nonneg (sub_nonneg.mpr hb)]
  rcases hu with hu | hu
  · rw [abs_of_nonpos (by linarith)]
    exact ⟨fun _ => ⟨by linarith, fun _ hne => absurd (by linarith) hne⟩,
      fun _ => ⟨by linarith, fun _ _ => by linarith⟩⟩
  · rw [abs_of_nonneg (by linarith)]
    exact ⟨fun _ => ⟨by linarith, fun _ _ => by linarith⟩,
      fun _ => ⟨by linarith, fun _ hne => absurd (by linarith) hne⟩⟩

/-- No field is nearer to the exact ratio than the one rounding gives, and where another one is equally near, rounding
gives an even one (R10). -/
theorem Format.roundIdx_nearest (hf : 0 < f.frac) {num den : Nat} (hden : 0 < den) (k : Nat) :
    |(f.unitsOf (f.roundIdx num den) : ℚ) - num / den| ≤ |(f.unitsOf k : ℚ) - num / den| ∧
      (|(f.unitsOf (f.roundIdx num den) : ℚ) - num / den| = |(f.unitsOf k : ℚ) - num / den| →
        (f.unitsOf k : ℚ) ≠ f.unitsOf (f.roundIdx num den) → f.roundIdx num den % 2 = 0) := by
  obtain ⟨m, hlo, hhi, hm⟩ := f.roundIdx_neighbours hf (num := num) hden
  have hd : (0 : ℚ) < den := by exact_mod_cast hden
  have le_iff (n : Nat) : n * den ≤ num ↔ (n : ℚ) ≤ num / den := by rw [le_div_iff₀ hd]; norm_cast
  have ge_iff (n : Nat) : num ≤ n * den ↔ (num / den : ℚ) ≤ n := by rw [div_le_iff₀ hd]; norm_cast
  have two_le_iff (n : Nat) : 2 * num ≤ n * den ↔ 2 * (num / den : ℚ) ≤ n := by
    rw [← mul_div_assoc, div_le_iff₀ hd]; norm_cast
  have two_ge_iff (n : Nat) : n * den ≤ 2 * num ↔ (n : ℚ) ≤ 2 * (num / den : ℚ) := by
    rw [← mul_div_assoc, le_div_iff₀ hd]; norm_cast
  have two_eq_iff (n : Nat) : 2 * num = n * den ↔ 2 * (num / den : ℚ) = n := by
    rw [← mul_div_assoc, div_eq_iff hd.ne']; norm_cast
  rw [le_iff] at hlo
  rw [ge_iff] at hhi
  rw [two_le_iff, two_ge_iff, two_eq_iff] at hm
  generalize (num / den : ℚ) = x at *
  push_cast at hm
  have hk : f.unitsOf k ≤ f.unitsOf m ∨ f.unitsOf (m + 1) ≤ f.unitsOf k := by
    rcases Nat.lt_or_ge m k with h | h
    · exact .inr (f.unitsOf_strictMono.monotone h)
    · exact .inl (f.unitsOf_strictMono.monotone h)
  rw [← Nat.cast_le (α := ℚ), ← Nat.cast_le (α := ℚ)] at hk
  obtain ⟨below, above⟩ := nearest_of_between hlo hhi hk
  rcases hm with ⟨hR, hmid, htie⟩ | ⟨hR, hmid, htie⟩ <;> rw [hR]
  · obtain ⟨hle, heq⟩ := below hmid
    exact ⟨hle, fun he hne => htie (heq he hne)⟩
  · obtain ⟨hle, heq⟩ := above hmid
    exact ⟨hle, fun he hne => htie (heq he hne)⟩

/-- The magnitude at which rounding first overflows: half way from the largest finite value to the next one a wider
exponent field would code. -/
def Format.overflow (f : Format) : ℚ := (f.unitsOf (f.infMag - 1) + f.unitsOf f.infMag) / (2 * f.scale)

/-- The largest finite magnitude field and infinity's as a significand and a binade. -/
theorem Format.infMag_binade (hf : f.WellFormed) :
    f.infMag = (f.emax - 2) * 2 ^ f.frac + 2 ^ (f.frac + 1) ∧
      f.infMag - 1 = (f.emax - 2) * 2 ^ f.frac + (2 ^ (f.frac + 1) - 1) := by
  have h : f.infMag = (f.emax - 2) * 2 ^ f.frac + 2 ^ (f.frac + 1) := by
    obtain ⟨n, hn⟩ := Nat.exists_eq_add_of_le' hf.two_le_emax
    rw [Format.infMag, hn, Nat.add_sub_cancel]
    ring
  have hp : 0 < 2 ^ (f.frac + 1) := by positivity
  exact ⟨h, by omega⟩

/-- The overflow threshold in the format's own numbers. -/
theorem Format.overflow_eq (hf : f.WellFormed) :
    f.overflow = (2 ^ (f.frac + 2) - 1) * 2 ^ (f.emax - 2) / (2 * f.scale) := by
  have hp : 2 ^ f.frac ≤ 2 ^ (f.frac + 1) - 1 := by
    have : 0 < 2 ^ f.frac := by positivity
    rw [pow_succ]; omega
  obtain ⟨hinf, hmax⟩ := f.infMag_binade hf
  rw [Format.overflow, hmax, f.unitsOf_binade (by omega) (.inr hp), hinf,
    f.unitsOf_binade le_rfl (.inr (by omega))]
  push_cast [Nat.one_le_two_pow]
  ring

theorem binary32_overflow : binary32.overflow = overflow32 := by
  rw [Format.overflow_eq binary32_wellFormed]
  norm_num [binary32, overflow32]

theorem binary64_overflow : binary64.overflow = overflow64 := by
  rw [Format.overflow_eq binary64_wellFormed, overflow64, div_eq_iff (by simp [binary64])]
  simp only [binary64, Nat.reduceAdd, Nat.reduceSub, Nat.cast_pow, Nat.cast_ofNat, ← pow_mul]
  rw [show (2 : ℚ) ^ 1024 = 2 ^ 54 * 2 ^ 970 by rw [← pow_add],
    show (2 : ℚ) ^ 2045 = 2 ^ 970 * 2 ^ (179 * 6) * 2 by rw [← pow_add, ← pow_succ]]
  generalize (2 : ℚ) ^ 970 = a, (2 : ℚ) ^ (179 * 6) = b
  ring

theorem abs_sub_le_abs_sub_iff_of_lt {a b x : ℚ} (h : a < b) :
    (|a - x| ≤ |b - x| ↔ 2 * x ≤ a + b) ∧ (|b - x| ≤ |a - x| ↔ a + b ≤ 2 * x) := by
  have hab : 0 < b - a := by linarith
  rw [← sq_le_sq, ← sq_le_sq]
  constructor <;> constructor <;> intro h' <;> nlinarith

theorem Format.infMag_pos (hf : f.WellFormed) : 0 < f.infMag :=
  Nat.mul_pos (by have := hf.two_le_emax; omega) (by positivity)

theorem Format.infMag_even (hf : f.WellFormed) : f.infMag % 2 = 0 := by
  simp [Format.infMag, Nat.mul_mod, Nat.pow_mod, Nat.zero_pow hf.frac_pos]

/-- Rounding stays below infinity exactly below the overflow threshold: half way to infinity the even field is
infinity's. -/
theorem Format.roundIdx_lt_infMag (hf : f.WellFormed) {num den : Nat} (hden : 0 < den) :
    f.roundIdx num den < f.infMag ↔ (num : ℚ) / den / f.scale < f.overflow := by
  have hpos := f.infMag_pos hf
  have heven := f.infMag_even hf
  have hscale : (0 : ℚ) < f.scale := by exact_mod_cast hf.scale_pos
  have mono {j k : Nat} (h : j ≤ k) : (f.unitsOf j : ℚ) ≤ f.unitsOf k :=
    Nat.cast_le.mpr (f.unitsOf_strictMono.monotone h)
  have smono {j k : Nat} (h : j < k) : (f.unitsOf j : ℚ) < f.unitsOf k := Nat.cast_lt.mpr (f.unitsOf_strictMono h)
  have near := f.roundIdx_nearest hf.frac_pos (num := num) hden
  rw [Format.overflow, div_lt_div_iff₀ hscale (by positivity),
    show (num : ℚ) / den * (2 * f.scale) = 2 * (num / den) * f.scale by ring, mul_lt_mul_iff_left₀ hscale]
  generalize (num / den : ℚ) = x at *
  generalize f.roundIdx num den = R at *
  constructor
  · intro hR
    obtain ⟨hle, htie⟩ := near f.infMag
    by_contra! hx
    have h2 := (abs_sub_le_abs_sub_iff_of_lt (smono hR)).1.mp hle
    have hUR := mono (show R ≤ f.infMag - 1 by omega)
    have heq := (abs_sub_le_abs_sub_iff_of_lt (x := x) (smono hR)).2.mpr (by linarith)
    have hRe := htie (le_antisymm hle heq) (smono hR).ne'
    have hlt := smono (show R < f.infMag - 1 by omega)
    linarith
  · intro hx
    by_contra! hR
    have hlt := smono (show f.infMag - 1 < R by omega)
    have h2 := (abs_sub_le_abs_sub_iff_of_lt hlt).2.mp (near (f.infMag - 1)).1
    have := mono hR
    linarith

end Sys2Proof.Machine
end

section
/-! Signed rounding: the value of an encoding as a sign and a magnitude, and the one theorem the operations need, that a
sign packed with `roundMag` is the exact ratio correctly rounded (R10). -/

namespace Sys2Proof.Machine

variable {f : Format}

/-- A sign as a factor. -/
def signFactor (neg : Bool) : ℚ := if neg then -1 else 1

theorem signFactor_mul (s t : Bool) : signFactor s * signFactor t = signFactor (s ^^ t) := by
  cases s <;> cases t <;> simp [signFactor]

theorem signFactor_div (s t : Bool) : signFactor s / signFactor t = signFactor (s ^^ t) := by
  cases s <;> cases t <;> simp [signFactor]

theorem signFactor_not (s : Bool) : signFactor (!s) = -signFactor s := by cases s <;> simp [signFactor]

theorem abs_signFactor_mul (s : Bool) {x : ℚ} (hx : 0 ≤ x) : |signFactor s * x| = x := by
  cases s <;> simp [signFactor, abs_of_nonneg hx]

theorem signFactor_mul_neg_iff (s : Bool) {x : ℚ} (hx : 0 < x) : signFactor s * x < 0 ↔ s = true := by
  cases s <;> simp [signFactor, hx, hx.le]

theorem signFactor_mul_eq_zero (s : Bool) {x : ℚ} : signFactor s * x = 0 ↔ x = 0 := by
  cases s <;> simp [signFactor]

theorem cast_signedUnits (s : Bool) (u : Nat) : (signedUnits s u : ℚ) = signFactor s * u := by
  cases s <;> simp [signedUnits, signFactor]

/-- The magnitude field of an encoding. -/
def Format.mag (f : Format) (x : Nat) : Nat := x % f.signBit

theorem Format.finite_iff {x : Nat} : f.finite x = true ↔ f.mag x < f.infMag := decide_eq_true_iff

theorem Format.unpack_of_finite {x : Nat} (h : f.finite x = true) :
    f.unpack x = .fin (f.sign x) (f.unitsOf (f.mag x)) := f.unpack_finite h

theorem Format.value_of_finite {x : Nat} (h : f.finite x = true) :
    f.value x = signFactor (f.sign x) * f.unitsOf (f.mag x) / f.scale := by
  simp [Format.value, f.unpack_of_finite h, cast_signedUnits]

theorem Format.value_eq_zero_iff (hf : f.WellFormed) {x : Nat} (h : f.finite x = true) :
    f.value x = 0 ↔ f.mag x = 0 := by
  have hs : (f.scale : ℚ) ≠ 0 := by exact_mod_cast hf.scale_pos.ne'
  rw [f.value_of_finite h, div_eq_zero_iff, or_iff_left hs, signFactor_mul_eq_zero, Nat.cast_eq_zero, f.unitsOf_eq_zero]

theorem Format.infMag_lt_qnan (f : Format) : f.infMag < f.qnan := Nat.lt_add_of_pos_right (by positivity)

theorem Format.infMag_lt_signBit (hf : f.WellFormed) : f.infMag < f.signBit := f.infMag_lt_qnan.trans hf.qnan_lt

theorem Format.roundMag_lt_signBit (hf : f.WellFormed) (num den : Nat) : f.roundMag num den < f.signBit :=
  (min_le_right _ _).trans_lt (f.infMag_lt_signBit hf)

/-! An encoding put together from a sign and a magnitude -/

theorem Format.pack_lt {neg : Bool} {m : Nat} (h : m < f.signBit) : f.pack neg m < 2 * f.signBit := by
  cases neg <;> simp [Format.pack] <;> omega

theorem Format.sign_pack {neg : Bool} {m : Nat} (h : m < f.signBit) : f.sign (f.pack neg m) = neg := by
  cases neg <;> simp [Format.sign, Format.pack, h]

theorem Format.mag_pack {neg : Bool} {m : Nat} (h : m < f.signBit) : f.mag (f.pack neg m) = m := by
  cases neg <;> simp [Format.mag, Format.pack, Nat.mod_eq_of_lt h]

theorem Format.pack_sign_mag {x : Nat} (h : x < 2 * f.signBit) : f.pack (f.sign x) (f.mag x) = x := by
  unfold Format.pack Format.sign Format.mag
  rcases Nat.lt_or_ge x f.signBit with hx | hx
  · simp [Nat.not_le.mpr hx, Nat.mod_eq_of_lt hx]
  · rw [Nat.mod_eq_sub_mod hx, Nat.mod_eq_of_lt (by omega)]
    simp [hx]

theorem Format.pack_mod_two (hf : f.WellFormed) (neg : Bool) (m : Nat) : f.pack neg m % 2 = m % 2 := by
  have := hf.signBit_even
  cases neg <;> simp [Format.pack, Nat.add_mod, this]

/-- `w` is `r` correctly rounded to the format, ties to even (R10). -/
def Format.IsRounding (f : Format) (r : ℚ) (w : Nat) : Prop :=
  w < 2 * f.signBit ∧
    if |r| < f.overflow then
      f.finite w = true ∧ ∀ v, f.finite v = true →
        |f.value w - r| ≤ |f.value v - r| ∧ (|f.value w - r| = |f.value v - r| → f.value v ≠ f.value w → w % 2 = 0)
    else w = f.pack (decide (r < 0)) f.infMag

theorem abs_signFactor_mul_sub (s : Bool) (a b : ℚ) : |signFactor s * a - signFactor s * b| = |a - b| := by
  cases s <;> simp [signFactor, abs_sub_comm, neg_add_eq_sub]

theorem abs_signFactor_not_mul_sub (s : Bool) {a b : ℚ} (h : 0 ≤ a + b) :
    |signFactor (!s) * a - signFactor s * b| = a + b := by
  rw [signFactor_not, neg_mul, ← neg_add', abs_neg, ← mul_add, abs_signFactor_mul s h]

/-- No signed number of units is nearer than the one of the ratio's own sign that rounding gives. -/
theorem Format.signed_roundIdx_nearest (hf : 0 < f.frac) {num den : Nat} (hden : 0 < den) (neg s : Bool) (k : Nat) :
    let U : ℚ := signFactor neg * f.unitsOf (f.roundIdx num den)
    let V : ℚ := signFactor s * f.unitsOf k
    let x : ℚ := signFactor neg * (num / den)
    |U - x| ≤ |V - x| ∧ (|U - x| = |V - x| → V ≠ U → f.roundIdx num den % 2 = 0) := by
  intro U V x
  have near := f.roundIdx_nearest hf (num := num) hden
  have hy : (0 : ℚ) ≤ num / den := by positivity
  have hk : (0 : ℚ) ≤ f.unitsOf k := by positivity
  obtain ⟨hle, htie⟩ := near k
  have hzero := (near 0).1
  simp only [U, V, x, abs_signFactor_mul_sub]
  generalize (num / den : ℚ) = y at *
  generalize (f.unitsOf k : ℚ) = u at *
  rcases Bool.eq_or_eq_not s neg with rfl | rfl
  · simp only [abs_signFactor_mul_sub]
    exact ⟨hle, fun he hne => htie he fun h => hne (by rw [h])⟩
  · rw [abs_signFactor_not_mul_sub neg (by positivity)]
    have hsum : |u - y| ≤ u + y := abs_le.mpr ⟨by linarith, by linarith⟩
    refine ⟨hle.trans hsum, fun he hne => htie (le_antisymm hle (hsum.trans he.ge)) fun hu => hne ?_⟩
    -- equally near from the other side: one of the two values is zero, and then both are
    have hu0 : u = 0 := by
      rcases le_total u y with h | h
      · rw [abs_of_nonpos (by linarith)] at *
        linarith
      · obtain rfl : y = 0 := by
          rw [abs_of_nonneg (by linarith)] at *
          linarith
        simpa [← hu] using hzero
    rw [← hu, hu0, mul_zero, mul_zero]

theorem Format.overflow_pos (hf : f.WellFormed) : 0 < f.overflow := by
  have hs : (0 : ℚ) < f.scale := by exact_mod_cast hf.scale_pos
  have hU : 0 < f.unitsOf f.infMag := Nat.pos_of_ne_zero (f.unitsOf_eq_zero.not.mpr (f.infMag_pos hf).ne')
  exact div_pos (add_pos_of_nonneg_of_pos (by positivity) (by exact_mod_cast hU)) (by positivity)

/-- A sign packed with `roundMag` of a ratio of units is the signed ratio correctly rounded. -/
theorem Format.isRounding_pack (hf : f.WellFormed) (neg : Bool) {num den : Nat} (hden : 0 < den) :
    f.IsRounding (signFactor neg * (num / den) / f.scale) (f.pack neg (f.roundMag num den)) := by
  have hlt := f.roundMag_lt_signBit hf num den
  have hs : (0 : ℚ) < f.scale := by exact_mod_cast hf.scale_pos
  have habs : |signFactor neg * (num / den) / f.scale| = num / den / f.scale := by
    rw [mul_div_assoc, abs_signFactor_mul neg (by positivity)]
  refine ⟨f.pack_lt hlt, ?_⟩
  rw [f.roundMag_eq_min] at hlt ⊢
  simp only [habs, ← f.roundIdx_lt_infMag hf hden]
  split
  case isTrue h =>
    rw [min_eq_left h.le] at hlt ⊢
    have hfin : f.finite (f.pack neg (f.roundIdx num den)) = true := by rwa [f.finite_iff, f.mag_pack hlt]
    refine ⟨hfin, fun v hv => ?_⟩
    rw [f.value_of_finite hfin, f.value_of_finite hv, f.sign_pack hlt, f.mag_pack hlt, f.pack_mod_two hf]
    simp only [← sub_div, abs_div, abs_of_pos hs, div_le_div_iff_of_pos_right hs, div_left_inj' hs.ne', ne_eq]
    exact f.signed_roundIdx_nearest hf.frac_pos hden neg (f.sign v) (f.mag v)
  case isFalse h =>
    have hle := not_lt.mp h
    rw [f.roundIdx_lt_infMag hf hden, not_lt] at h
    have hnum : (0 : ℚ) < num / den := (div_pos_iff_of_pos_right hs).mp ((f.overflow_pos hf).trans_le h)
    rw [min_eq_right hle, mul_div_assoc]
    simp [signFactor_mul_neg_iff neg (div_pos hnum hs)]

end Sys2Proof.Machine
end

section
/-! The operations on encodings: finite operands give the exact result correctly rounded, and the sign of an exact zero,
of a product and of a quotient (R10, R66, R85). -/

namespace Sys2Proof.Machine

variable {f : Format} {x y : Nat}

/-! The sign bit flipped -/

theorem Format.mag_negate (x : Nat) : f.mag (f.negate x) = f.mag x := by
  unfold Format.negate Format.mag
  split
  case isTrue h => exact (Nat.mod_eq_sub_mod h).symm
  case isFalse => exact Nat.add_mod_right ..

theorem Format.sign_negate (hx : x < 2 * f.signBit) : f.sign (f.negate x) = !f.sign x := by
  unfold Format.negate Format.sign
  split
  case isTrue h => simp [h]; omega
  case isFalse h => simp [h]

theorem Format.finite_negate (x : Nat) : f.finite (f.negate x) = f.finite x := by
  rw [Bool.eq_iff_iff, Format.finite_iff, Format.finite_iff, Format.mag_negate]

theorem Format.value_negate (hx : x < 2 * f.signBit) (hfx : f.finite x = true) : f.value (f.negate x) = -f.value x := by
  rw [f.value_of_finite hfx, f.value_of_finite (by rwa [f.finite_negate]), f.sign_negate hx, f.mag_negate,
    signFactor_not]
  ring

/-! Sums and differences -/

/-- The exact sum in units. -/
def Format.sumUnits (f : Format) (x y : Nat) : Int :=
  signedUnits (f.sign x) (f.unitsOf (f.mag x)) + signedUnits (f.sign y) (f.unitsOf (f.mag y))

theorem Format.add_of_finite (hx : f.finite x = true) (hy : f.finite y = true) :
    f.add x y =
      if f.sumUnits x y = 0 then f.pack (f.sign x && f.sign y) 0
      else f.pack (decide (f.sumUnits x y < 0)) (f.roundMag (f.sumUnits x y).natAbs 1) := by
  simp only [Format.add, f.unpack_of_finite hx, f.unpack_of_finite hy]
  rfl

theorem Format.value_add_value (hx : f.finite x = true) (hy : f.finite y = true) :
    f.value x + f.value y = (f.sumUnits x y : ℚ) / f.scale := by
  rw [f.value_of_finite hx, f.value_of_finite hy, ← add_div, Format.sumUnits]
  push_cast [cast_signedUnits]
  rfl

theorem signFactor_mul_natAbs (z : Int) : signFactor (decide (z < 0)) * z.natAbs = z := by
  rcases lt_or_ge z 0 with h | h
  · simp [signFactor, h, abs_of_neg]
  · simp [signFactor, not_lt.mpr h, abs_of_nonneg h]

theorem Format.roundMag_zero (f : Format) : f.roundMag 0 1 = 0 := by simp [Format.roundMag]

/-- The sum of finite operands is the exact sum correctly rounded (R10). -/
theorem Format.add_isRounding (hf : f.WellFormed) (hx : f.finite x = true) (hy : f.finite y = true) :
    f.IsRounding (f.value x + f.value y) (f.add x y) := by
  rw [f.value_add_value hx hy, f.add_of_finite hx hy]
  split
  case isTrue h => simpa [h, f.roundMag_zero] using f.isRounding_pack hf (f.sign x && f.sign y) (num := 0) one_pos
  case isFalse h =>
    have := f.isRounding_pack hf (decide (f.sumUnits x y < 0)) (num := (f.sumUnits x y).natAbs) one_pos
    rwa [Nat.cast_one, div_one, signFactor_mul_natAbs] at this

theorem Format.eq_signBit_iff (hf : f.WellFormed) (hx : x < 2 * f.signBit) :
    x = f.signBit ↔ f.sign x = true ∧ f.mag x = 0 := by
  have := f.infMag_lt_signBit hf
  rw [Format.sign, Format.mag, decide_eq_true_iff]
  constructor
  · rintro rfl; exact ⟨le_rfl, Nat.mod_self _⟩
  · rintro ⟨h, h0⟩
    rw [Nat.mod_eq_sub_mod h, Nat.mod_eq_of_lt (by omega)] at h0
    omega

/-- An exact zero sum is -0 only where both terms are (R10). -/
theorem Format.add_of_sum_zero (hf : f.WellFormed) (hxl : x < 2 * f.signBit) (hyl : y < 2 * f.signBit)
    (hx : f.finite x = true) (hy : f.finite y = true) (h : f.value x + f.value y = 0) :
    f.add x y = if x = f.signBit ∧ y = f.signBit then f.signBit else 0 := by
  have hs : (f.scale : ℚ) ≠ 0 := by exact_mod_cast hf.scale_pos.ne'
  rw [f.value_add_value hx hy, div_eq_zero_iff, or_iff_left hs, Int.cast_eq_zero] at h
  simp only [f.add_of_finite hx hy, if_pos h, f.eq_signBit_iff hf hxl, f.eq_signBit_iff hf hyl]
  rw [Format.sumUnits] at h
  cases hsx : f.sign x <;> cases hsy : f.sign y <;> simp only [hsx, hsy, signedUnits, Format.pack] at h ⊢
  case true.true =>
    have h1 : f.mag x = 0 := f.unitsOf_eq_zero.mp (by simp at h; omega)
    have h2 : f.mag y = 0 := f.unitsOf_eq_zero.mp (by simp at h; omega)
    simp [h1, h2]
  all_goals simp

theorem Format.sub_isRounding (hf : f.WellFormed) (hyl : y < 2 * f.signBit) (hx : f.finite x = true)
    (hy : f.finite y = true) : f.IsRounding (f.value x - f.value y) (f.sub x y) := by
  rw [sub_eq_add_neg, ← f.value_negate hyl hy]
  exact f.add_isRounding hf hx (by rwa [f.finite_negate])

theorem Format.negate_lt (hx : x < 2 * f.signBit) : f.negate x < 2 * f.signBit := by
  unfold Format.negate
  split <;> omega

theorem Format.negate_eq_signBit_iff (hx : x < 2 * f.signBit) : f.negate x = f.signBit ↔ x = 0 := by
  unfold Format.negate
  split <;> omega

/-- An exact zero difference is -0 only where it is -0 less +0 (R10). -/
theorem Format.sub_of_difference_zero (hf : f.WellFormed) (hxl : x < 2 * f.signBit) (hyl : y < 2 * f.signBit)
    (hx : f.finite x = true) (hy : f.finite y = true) (h : f.value x - f.value y = 0) :
    f.sub x y = if x = f.signBit ∧ y = 0 then f.signBit else 0 := by
  have hny : f.finite (f.negate y) = true := by rwa [f.finite_negate]
  rw [sub_eq_add_neg, ← f.value_negate hyl hy] at h
  have := f.add_of_sum_zero hf hxl (f.negate_lt hyl) hx hny h
  simpa only [f.negate_eq_signBit_iff hyl, Format.sub] using this

/-! Products and quotients -/

theorem Format.mul_of_finite (hx : f.finite x = true) (hy : f.finite y = true) :
    f.mul x y =
      f.pack (f.sign x ^^ f.sign y) (f.roundMag (f.unitsOf (f.mag x) * f.unitsOf (f.mag y)) f.scale) := by
  simp only [Format.mul, f.unpack_of_finite hx, f.unpack_of_finite hy]

theorem Format.mul_isRounding (hf : f.WellFormed) (hx : f.finite x = true) (hy : f.finite y = true) :
    f.IsRounding (f.value x * f.value y) (f.mul x y) := by
  have hs : (f.scale : ℚ) ≠ 0 := by exact_mod_cast hf.scale_pos.ne'
  have h := f.isRounding_pack hf (f.sign x ^^ f.sign y) (num := f.unitsOf (f.mag x) * f.unitsOf (f.mag y)) hf.scale_pos
  rw [f.mul_of_finite hx hy, f.value_of_finite hx, f.value_of_finite hy]
  convert h using 1
  rw [← signFactor_mul]
  push_cast
  field_simp

theorem Format.sign_mul (hf : f.WellFormed) (hx : f.finite x = true) (hy : f.finite y = true) :
    f.sign (f.mul x y) = (f.sign x ^^ f.sign y) := by
  rw [f.mul_of_finite hx hy, f.sign_pack (f.roundMag_lt_signBit hf _ _)]

theorem Format.div_of_finite (hx : f.finite x = true) (hy : f.finite y = true) :
    f.div x y =
      if f.mag y = 0 then (if f.mag x = 0 then f.qnan else f.pack (f.sign x ^^ f.sign y) f.infMag)
      else f.pack (f.sign x ^^ f.sign y) (f.roundMag (f.unitsOf (f.mag x) * f.scale) (f.unitsOf (f.mag y))) := by
  simp only [Format.div, f.unpack_of_finite hx, f.unpack_of_finite hy, f.unitsOf_eq_zero]

theorem Format.div_isRounding (hf : f.WellFormed) (hx : f.finite x = true) (hy : f.finite y = true)
    (h0 : f.mag y ≠ 0) : f.IsRounding (f.value x / f.value y) (f.div x y) := by
  have hs : (f.scale : ℚ) ≠ 0 := by exact_mod_cast hf.scale_pos.ne'
  have hu : 0 < f.unitsOf (f.mag y) := Nat.pos_of_ne_zero (f.unitsOf_eq_zero.not.mpr h0)
  have h := f.isRounding_pack hf (f.sign x ^^ f.sign y) (num := f.unitsOf (f.mag x) * f.scale) hu
  rw [f.div_of_finite hx hy, if_neg h0, f.value_of_finite hx, f.value_of_finite hy]
  convert h using 1
  rw [← signFactor_div]
  push_cast
  field_simp

theorem Format.sign_div (hf : f.WellFormed) (hx : f.finite x = true) (hy : f.finite y = true) (h0 : f.mag y ≠ 0) :
    f.sign (f.div x y) = (f.sign x ^^ f.sign y) := by
  rw [f.div_of_finite hx hy, if_neg h0, f.sign_pack (f.roundMag_lt_signBit hf _ _)]

/-! Comparison and conversion -/

theorem Format.lt_iff_value_lt (hf : f.WellFormed) (hx : f.finite x = true) (hy : f.finite y = true) :
    f.lt x y = true ↔ f.value x < f.value y := by
  have hs : (0 : ℚ) < f.scale := by exact_mod_cast hf.scale_pos
  rw [f.value_of_finite hx, f.value_of_finite hy, div_lt_div_iff_of_pos_right hs, ← cast_signedUnits,
    ← cast_signedUnits, Int.cast_lt]
  simp only [Format.lt, f.unpack_of_finite hx, f.unpack_of_finite hy, decide_eq_true_iff]

theorem Format.convert_of_finite (g : Format) (hx : f.finite x = true) :
    f.convert g x = g.pack (f.sign x) (g.roundMag (f.unitsOf (f.mag x) * g.scale) f.scale) := by
  simp only [Format.convert, f.unpack_of_finite hx]

theorem Format.convert_isRounding {g : Format} (hf : f.WellFormed) (hg : g.WellFormed) (hx : f.finite x = true) :
    g.IsRounding (f.value x) (f.convert g x) := by
  have hs : (g.scale : ℚ) ≠ 0 := by exact_mod_cast hg.scale_pos.ne'
  have h := g.isRounding_pack hg (f.sign x) (num := f.unitsOf (f.mag x) * g.scale) hf.scale_pos
  rw [f.convert_of_finite g hx, f.value_of_finite hx]
  convert h using 1
  push_cast
  field_simp

theorem Format.sign_convert {g : Format} (hg : g.WellFormed) (hx : f.finite x = true) :
    g.sign (f.convert g x) = f.sign x := by
  rw [f.convert_of_finite g hx, g.sign_pack (g.roundMag_lt_signBit hg _ _)]

/-- A number of units that its binade's unit divides is represented exactly. -/
theorem Format.unitsOf_roundIdx_of_dvd (f : Format) {n : Nat} (h : 2 ^ f.binade n 1 ∣ n) :
    f.unitsOf (f.roundIdx n 1) = n := by
  obtain ⟨hq, he⟩ := f.significand_bounds n 1
  have hpos : 0 < 2 ^ f.binade n 1 := by positivity
  simp only [Format.roundIdx, Nat.one_mul, Nat.mod_eq_zero_of_dvd h] at *
  rw [if_neg (by omega), Nat.add_zero, f.unitsOf_binade hq.le he, Nat.div_mul_cancel h]

/-- A significand of the format's length, in a binade below infinity, is represented exactly. -/
theorem Format.unitsOf_roundMag_mul_two_pow (hf : f.WellFormed) {q k : Nat} (hq : q < 2 ^ (f.frac + 1))
    (hk : k ≤ f.emax - 2) :
    f.roundMag (q * 2 ^ k) 1 < f.infMag ∧ f.unitsOf (f.roundMag (q * 2 ^ k) 1) = q * 2 ^ k := by
  have hlt : q * 2 ^ k < 2 ^ (f.frac + 1 + k) := by
    rw [pow_add]; exact Nat.mul_lt_mul_of_pos_right hq (by positivity)
  have hbin : f.binade (q * 2 ^ k) 1 ≤ k := by
    rw [Format.binade, Nat.div_one]
    rcases Nat.eq_zero_or_pos (q * 2 ^ k) with h | h
    · simp [h]
    · have := (Nat.log2_lt h.ne').mpr hlt; omega
  have hval := f.unitsOf_roundIdx_of_dvd ((pow_dvd_pow 2 hbin).trans (Nat.dvd_mul_left _ q))
  have hidx : f.roundIdx (q * 2 ^ k) 1 < f.infMag := by
    rw [← f.unitsOf_strictMono.lt_iff_lt, hval, (f.infMag_binade hf).1,
      f.unitsOf_binade le_rfl (.inr (Nat.pow_le_pow_right (by omega) (by omega)))]
    exact Nat.mul_lt_mul_of_lt_of_le hq (Nat.pow_le_pow_right (by omega) hk) (by positivity)
  rw [f.roundMag_eq_min, min_eq_left hidx.le]
  exact ⟨hidx, hval⟩

/-- Conversion to a format with a longer fraction and a wider exponent is exact (R10). -/
theorem Format.convert_exact {g : Format} {j : Nat} (hf : f.WellFormed) (hg : g.WellFormed) (hfrac : f.frac ≤ g.frac)
    (hemax : f.emax - 2 + j ≤ g.emax - 2) (hscale : g.scale = 2 ^ j * f.scale) (hx : f.finite x = true) :
    g.finite (f.convert g x) = true ∧ g.value (f.convert g x) = f.value x := by
  obtain ⟨e, q, hm, hq, he⟩ := f.exists_binade (f.mag x)
  have hle : e ≤ f.emax - 2 := by
    rcases he with rfl | he
    · omega
    · have hlt := f.finite_iff.mp hx
      have : (e + 1) * 2 ^ f.frac < f.emax * 2 ^ f.frac := by
        rw [Nat.add_one_mul]; unfold Format.infMag at hlt; omega
      have := Nat.lt_of_mul_lt_mul_right this
      omega
  have hu := f.unitsOf_binade hq.le he
  rw [← hm] at hu
  obtain ⟨hlt, hval⟩ := g.unitsOf_roundMag_mul_two_pow hg (k := e + j)
    (hq.trans_le (Nat.pow_le_pow_right (by omega) (by omega))) (by omega)
  have hc : f.convert g x = g.pack (f.sign x) (g.roundMag (q * 2 ^ (e + j)) 1) := by
    rw [f.convert_of_finite g hx, hu, hscale, ← g.roundMag_mul (q * 2 ^ (e + j)) 1 _ hf.scale_pos, one_mul]
    congr 2
    ring
  have hsb := g.roundMag_lt_signBit hg (q * 2 ^ (e + j)) 1
  have hfin : g.finite (f.convert g x) = true := by rwa [g.finite_iff, hc, g.mag_pack hsb]
  have hs : (f.scale : ℚ) ≠ 0 := by exact_mod_cast hf.scale_pos.ne'
  refine ⟨hfin, ?_⟩
  rw [g.value_of_finite hfin, f.value_of_finite hx, hc, g.mag_pack hsb, g.sign_pack hsb, hval, hu, hscale, pow_add]
  push_cast
  field_simp

/-! Infinities and NaNs -/

theorem Format.unpack_inf (hf : f.WellFormed) (n : Bool) : f.unpack (f.pack n f.infMag) = .inf n := by
  simp [f.unpack_pack (f.infMag_lt_signBit hf)]

theorem Format.negate_pack {m : Nat} (hm : m < f.signBit) (n : Bool) : f.negate (f.pack n m) = f.pack (!n) m := by
  cases n
  · simp [Format.negate, Format.pack, Nat.not_le.mpr hm, Nat.add_comm]
  · simp [Format.negate, Format.pack]

theorem Format.add_inf_left (hf : f.WellFormed) (n : Bool) (hx : f.finite x = true) :
    f.add (f.pack n f.infMag) x = f.pack n f.infMag := by
  simp only [Format.add, f.unpack_inf hf, f.unpack_of_finite hx]

theorem Format.add_inf_right (hf : f.WellFormed) (n : Bool) (hx : f.finite x = true) :
    f.add x (f.pack n f.infMag) = f.pack n f.infMag := by
  simp only [Format.add, f.unpack_inf hf, f.unpack_of_finite hx]

theorem Format.sub_inf_left (hf : f.WellFormed) (n : Bool) (hx : f.finite x = true) :
    f.sub (f.pack n f.infMag) x = f.pack n f.infMag :=
  f.add_inf_left hf n (by rwa [f.finite_negate])

theorem Format.sub_inf_right (hf : f.WellFormed) (n : Bool) (hx : f.finite x = true) :
    f.sub x (f.pack n f.infMag) = f.pack (!n) f.infMag := by
  rw [Format.sub, f.negate_pack (f.infMag_lt_signBit hf), f.add_inf_right hf _ hx]

theorem Format.mul_inf_left (hf : f.WellFormed) (n : Bool) (hx : f.finite x = true) :
    f.mul (f.pack n f.infMag) x = if f.mag x = 0 then f.qnan else f.pack (n ^^ f.sign x) f.infMag := by
  simp only [Format.mul, f.unpack_inf hf, f.unpack_of_finite hx, f.unitsOf_eq_zero]

theorem Format.mul_inf_right (hf : f.WellFormed) (n : Bool) (hx : f.finite x = true) :
    f.mul x (f.pack n f.infMag) = if f.mag x = 0 then f.qnan else f.pack (n ^^ f.sign x) f.infMag := by
  simp only [Format.mul, f.unpack_inf hf, f.unpack_of_finite hx, f.unitsOf_eq_zero, Bool.xor_comm n]

theorem Format.div_inf_left (hf : f.WellFormed) (n : Bool) (hx : f.finite x = true) :
    f.div (f.pack n f.infMag) x = f.pack (n ^^ f.sign x) f.infMag := by
  simp only [Format.div, f.unpack_inf hf, f.unpack_of_finite hx]

theorem Format.div_inf_right (hf : f.WellFormed) (n : Bool) (hx : f.finite x = true) :
    f.div x (f.pack n f.infMag) = f.pack (n ^^ f.sign x) 0 := by
  simp only [Format.div, f.unpack_inf hf, f.unpack_of_finite hx, Bool.xor_comm n]

theorem Format.lt_inf_left (hf : f.WellFormed) (n : Bool) (hx : f.finite x = true) :
    f.lt (f.pack n f.infMag) x = n := by
  simp only [Format.lt, f.unpack_inf hf, f.unpack_of_finite hx]

theorem Format.lt_inf_right (hf : f.WellFormed) (n : Bool) (hx : f.finite x = true) :
    f.lt x (f.pack n f.infMag) = !n := by
  simp only [Format.lt, f.unpack_inf hf, f.unpack_of_finite hx]

theorem Format.isNaN_negate (x : Nat) : f.isNaN (f.negate x) = f.isNaN x := by
  rw [Format.isNaN, Format.isNaN, ← Format.mag, ← Format.mag, Format.mag_negate]

theorem Format.sub_nan (h : f.isNaN x = true ∨ f.isNaN y = true) : f.sub x y = f.qnan := by
  rcases h with h | h
  · exact f.add_nan_left h _
  · exact f.add_nan_right (by rwa [f.isNaN_negate]) _

theorem Format.add_nan (h : f.isNaN x = true ∨ f.isNaN y = true) : f.add x y = f.qnan :=
  h.elim (f.add_nan_left · _) (f.add_nan_right · _)

theorem Format.mul_nan (h : f.isNaN x = true ∨ f.isNaN y = true) : f.mul x y = f.qnan :=
  h.elim (f.mul_nan_left · _) (f.mul_nan_right · _)

theorem Format.div_nan (h : f.isNaN x = true ∨ f.isNaN y = true) : f.div x y = f.qnan := by
  unfold Format.div
  rcases h with h | h <;> rw [f.unpack_nan h]
  cases f.unpack x <;> rfl

theorem Format.lt_nan (h : f.isNaN x = true ∨ f.isNaN y = true) : f.lt x y = false := by
  unfold Format.lt
  rcases h with h | h <;> rw [f.unpack_nan h]
  cases f.unpack x <;> rfl

theorem Format.convert_nan (g : Format) (h : f.isNaN x = true) : f.convert g x = g.qnan := by
  simp only [Format.convert, f.unpack_nan h]

end Sys2Proof.Machine
end

section
/-! The operations on words: what the statements say of encodings as bit vectors, from what the section before says of
them as numbers. -/

namespace Sys2Proof.Machine

variable {f : Format} {n : Nat} {r : ℚ} {w : Nat}

/-! Any format's encodings as bit vectors of its width -/

theorem Format.toNat_ofNat (hn : 2 ^ n = 2 * f.signBit) (hw : w < 2 * f.signBit) : (BitVec.ofNat n w).toNat = w := by
  rw [BitVec.toNat_ofNat, hn, Nat.mod_eq_of_lt hw]

theorem Format.toNat_lt (hn : 2 ^ n = 2 * f.signBit) (x : BitVec n) : x.toNat < 2 * f.signBit := hn ▸ x.isLt

theorem Format.msb_eq_sign (hf : f.WellFormed) (hn : 2 ^ n = 2 * f.signBit) (x : BitVec n) :
    x.msb = f.sign x.toNat := by
  have hn0 : n ≠ 0 := by
    have := f.infMag_lt_signBit hf
    rintro rfl; omega
  have : 2 ^ n = 2 ^ (n - 1) * 2 := by rw [← pow_succ, Nat.sub_add_cancel (by omega)]
  rw [BitVec.msb_eq_decide, Format.sign, show f.signBit = 2 ^ (n - 1) by omega]

/-- Correct rounding of encodings as numbers is correct rounding of them as bit vectors. -/
theorem Format.IsRounding.bitVec (h : f.IsRounding r w) (hn : 2 ^ n = 2 * f.signBit) :
    if |r| < f.overflow then
      NearestEven (fun z : BitVec n => f.finite z.toNat) (fun z => f.value z.toNat) r (BitVec.ofNat n w)
    else BitVec.ofNat n w = BitVec.ofNat n (f.pack (decide (r < 0)) f.infMag) := by
  obtain ⟨hw, h⟩ := h
  split at h
  case isTrue hr =>
    rw [if_pos hr, NearestEven, f.toNat_ofNat hn hw]
    exact ⟨h.1, fun v hv => h.2 v.toNat hv⟩
  case isFalse hr => rw [if_neg hr, h]

/-- Correct rounding to binary32 in the statements' own term `RoundsTo` (R10). -/
theorem Format.IsRounding.roundsTo (h : binary32.IsRounding r w) : RoundsTo r (BitVec.ofNat 32 w) := by
  have := h.bitVec (n := 32) (by decide)
  rw [binary32_overflow] at this
  unfold RoundsTo
  split <;> rename_i hr
  · exact (if_pos hr).mp this
  · rw [if_neg hr] at this
    rw [this]
    by_cases h0 : r < 0 <;> simp only [h0, decide_true, decide_false, if_true, if_false] <;> decide

/-- Correct rounding to binary64 in the statements' own term `RoundsTo64` (R10, R66). -/
theorem Format.IsRounding.roundsTo64 (h : binary64.IsRounding r w) : RoundsTo64 r (BitVec.ofNat 64 w) := by
  have := h.bitVec (n := 64) (by decide)
  rw [binary64_overflow] at this
  unfold RoundsTo64
  split <;> rename_i hr
  · exact (if_pos hr).mp this
  · rw [if_neg hr] at this
    rw [this]
    cases decide (r < 0) <;> decide

/-! Binary32 words -/

section Binary32

variable {x y : Word}

/-- The binary32 infinity that is negative or not. -/
def inf32 (neg : Bool) : Word := if neg then 0xFF800000#32 else 0x7F800000#32

theorem eq_inf32 {i : Word} (h : i = 0x7F800000#32 ∨ i = 0xFF800000#32) : ∃ n, i = inf32 n :=
  h.elim (⟨false, ·⟩) (⟨true, ·⟩)

@[simp] theorem inf32_msb (n : Bool) : (inf32 n).msb = n := by cases n <;> decide

theorem toNat_inf32 (n : Bool) : (inf32 n).toNat = binary32.pack n binary32.infMag := by cases n <;> decide

theorem ofNat_pack_inf32 (n : Bool) : BitVec.ofNat 32 (binary32.pack n binary32.infMag) = inf32 n := by
  cases n <;> decide

theorem ofNat_qnan32 : BitVec.ofNat 32 binary32.qnan = 0x7FC00000#32 := by decide

theorem toNat_lt32 (x : Word) : x.toNat < 2 * binary32.signBit := binary32.toNat_lt (by decide) x

theorem msb_eq_sign32 (x : Word) : x.msb = binary32.sign x.toNat :=
  binary32.msb_eq_sign binary32_wellFormed (by decide) x

theorem value32_eq_zero_iff (hx : finite32 x = true) : value32 x = 0 ↔ binary32.mag x.toNat = 0 :=
  binary32.value_eq_zero_iff binary32_wellFormed hx

theorem fadd_roundsTo (hx : finite32 x = true) (hy : finite32 y = true) :
    RoundsTo (value32 x + value32 y) (fadd x y) :=
  (binary32.add_isRounding binary32_wellFormed hx hy).roundsTo

theorem fsub_roundsTo (hx : finite32 x = true) (hy : finite32 y = true) :
    RoundsTo (value32 x - value32 y) (fsub x y) :=
  (binary32.sub_isRounding binary32_wellFormed (toNat_lt32 y) hx hy).roundsTo

theorem fmul_roundsTo (hx : finite32 x = true) (hy : finite32 y = true) :
    RoundsTo (value32 x * value32 y) (fmul x y) :=
  (binary32.mul_isRounding binary32_wellFormed hx hy).roundsTo

theorem fadd_of_sum_zero (hx : finite32 x = true) (hy : finite32 y = true) (h : value32 x + value32 y = 0) :
    fadd x y = if x = 0x80000000#32 ∧ y = 0x80000000#32 then 0x80000000#32 else 0x00000000#32 := by
  rw [fadd, binary32.add_of_sum_zero binary32_wellFormed (toNat_lt32 x) (toNat_lt32 y) hx hy h,
    apply_ite (BitVec.ofNat 32)]
  simp only [← BitVec.toNat_inj]
  rfl

theorem fsub_of_difference_zero (hx : finite32 x = true) (hy : finite32 y = true) (h : value32 x - value32 y = 0) :
    fsub x y = if x = 0x80000000#32 ∧ y = 0x00000000#32 then 0x80000000#32 else 0x00000000#32 := by
  rw [fsub, binary32.sub_of_difference_zero binary32_wellFormed (toNat_lt32 x) (toNat_lt32 y) hx hy h,
    apply_ite (BitVec.ofNat 32)]
  simp only [← BitVec.toNat_inj]
  rfl

theorem fmul_msb (hx : finite32 x = true) (hy : finite32 y = true) : (fmul x y).msb = (x.msb ^^ y.msb) := by
  have hlt := (binary32.mul_isRounding binary32_wellFormed hx hy).1
  rw [msb_eq_sign32, msb_eq_sign32, msb_eq_sign32, fmul, binary32.toNat_ofNat (by decide) hlt,
    binary32.sign_mul binary32_wellFormed hx hy]

theorem fmul_inf (n : Bool) (hx : finite32 x = true) :
    fmul (inf32 n) x = (if value32 x = 0 then 0x7FC00000#32 else inf32 (n ^^ x.msb)) ∧
      fmul x (inf32 n) = fmul (inf32 n) x := by
  constructor
  · rw [fmul, toNat_inf32, binary32.mul_inf_left binary32_wellFormed n hx, apply_ite (BitVec.ofNat 32), ofNat_qnan32,
      ofNat_pack_inf32, ← msb_eq_sign32]
    simp only [value32_eq_zero_iff hx]
  · rw [fmul, fmul, toNat_inf32, binary32.mul_inf_left binary32_wellFormed n hx,
      binary32.mul_inf_right binary32_wellFormed n hx]

end Binary32

end Sys2Proof.Machine

open Sys2Proof Sys2Proof.Machine

/-- Settles O39: finite operands by the rounding theorem of each operation, infinities and NaNs by the operations'
cases. -/
theorem binaryOperationsRoundCorrectly : Obligations.BinaryOperationsRoundCorrectly := by
  unfold Obligations.BinaryOperationsRoundCorrectly
  have hf := binary32_wellFormed
  refine ⟨fun x y hx hy => ⟨fadd_roundsTo hx hy, fsub_roundsTo hx hy, fmul_roundsTo hx hy, fadd_of_sum_zero hx hy,
    fsub_of_difference_zero hx hy, fmul_msb hx hy⟩, ?nan, ?inf, ?infs⟩
  case nan =>
    intro x y h
    rw [fadd, fsub, fmul, binary32.add_nan h, binary32.sub_nan h, binary32.mul_nan h, ofNat_qnan32]
    exact ⟨rfl, rfl, rfl⟩
  case inf =>
    intro i x hi hx
    obtain ⟨n, rfl⟩ := eq_inf32 hi
    obtain ⟨hmul, hcomm⟩ := fmul_inf n hx
    refine ⟨?_, ?_, ?_, ?_, fun h0 => ?_, fun h0 => ?_⟩
    · rw [fadd, toNat_inf32, binary32.add_inf_left hf n hx, ofNat_pack_inf32]
    · rw [fadd, toNat_inf32, binary32.add_inf_right hf n hx, ofNat_pack_inf32]
    · rw [fsub, toNat_inf32, binary32.sub_inf_left hf n hx, ofNat_pack_inf32]
    · rw [fsub, toNat_inf32, binary32.sub_inf_right hf n hx, ofNat_pack_inf32]
      cases n <;> decide
    · rw [hcomm, hmul, if_pos h0]
      exact ⟨rfl, rfl⟩
    · rw [hcomm, hmul, if_neg h0, inf32_msb]
      exact ⟨rfl, rfl⟩
  case infs =>
    rintro i j (rfl | rfl) (rfl | rfl) <;> decide

end

section
/-! The calculator's binary64 operations and its conversions from and to binary32 (R10, R66). -/

namespace Sys2Proof.Machine

variable {x y : Double}

@[simp] theorem inf64_msb (n : Bool) : (inf64 n).msb = n := by cases n <;> decide

theorem toNat_inf64 (n : Bool) : (inf64 n).toNat = binary64.pack n binary64.infMag := by cases n <;> decide

theorem ofNat_pack_inf64 (n : Bool) : BitVec.ofNat 64 (binary64.pack n binary64.infMag) = inf64 n := by
  cases n <;> decide

theorem isNaN64_qnan : isNaN64 (BitVec.ofNat 64 binary64.qnan) = true := by decide

theorem toNat_lt64 (x : Double) : x.toNat < 2 * binary64.signBit := binary64.toNat_lt (by decide) x

theorem msb_eq_sign64 (x : Double) : x.msb = binary64.sign x.toNat :=
  binary64.msb_eq_sign binary64_wellFormed (by decide) x

theorem value64_eq_zero_iff (hx : finite64 x = true) : value64 x = 0 ↔ binary64.mag x.toNat = 0 :=
  binary64.value_eq_zero_iff binary64_wellFormed hx

/-! Finite operands -/

theorem dadd_roundsTo64 (hx : finite64 x = true) (hy : finite64 y = true) :
    RoundsTo64 (value64 x + value64 y) (dadd x y) :=
  (binary64.add_isRounding binary64_wellFormed hx hy).roundsTo64

theorem dsub_roundsTo64 (hx : finite64 x = true) (hy : finite64 y = true) :
    RoundsTo64 (value64 x - value64 y) (dsub x y) :=
  (binary64.sub_isRounding binary64_wellFormed (toNat_lt64 y) hx hy).roundsTo64

theorem dmul_roundsTo64 (hx : finite64 x = true) (hy : finite64 y = true) :
    RoundsTo64 (value64 x * value64 y) (dmul x y) :=
  (binary64.mul_isRounding binary64_wellFormed hx hy).roundsTo64

theorem ddiv_roundsTo64 (hx : finite64 x = true) (hy : finite64 y = true) (h0 : value64 y ≠ 0) :
    RoundsTo64 (value64 x / value64 y) (ddiv x y) :=
  (binary64.div_isRounding binary64_wellFormed hx hy ((value64_eq_zero_iff hy).not.mp h0)).roundsTo64

theorem dadd_of_sum_zero (hx : finite64 x = true) (hy : finite64 y = true) (h : value64 x + value64 y = 0) :
    dadd x y = if x = 0x8000000000000000#64 ∧ y = 0x8000000000000000#64 then 0x8000000000000000#64 else 0#64 := by
  rw [dadd, binary64.add_of_sum_zero binary64_wellFormed (toNat_lt64 x) (toNat_lt64 y) hx hy h,
    apply_ite (BitVec.ofNat 64)]
  simp only [← BitVec.toNat_inj]
  rfl

theorem dsub_of_difference_zero (hx : finite64 x = true) (hy : finite64 y = true) (h : value64 x - value64 y = 0) :
    dsub x y = if x = 0x8000000000000000#64 ∧ y = 0#64 then 0x8000000000000000#64 else 0#64 := by
  rw [dsub, binary64.sub_of_difference_zero binary64_wellFormed (toNat_lt64 x) (toNat_lt64 y) hx hy h,
    apply_ite (BitVec.ofNat 64)]
  simp only [← BitVec.toNat_inj]
  rfl

theorem dmul_msb (hx : finite64 x = true) (hy : finite64 y = true) : (dmul x y).msb = (x.msb ^^ y.msb) := by
  have hlt := (binary64.mul_isRounding binary64_wellFormed hx hy).1
  rw [msb_eq_sign64, msb_eq_sign64, msb_eq_sign64, dmul, binary64.toNat_ofNat (by decide) hlt,
    binary64.sign_mul binary64_wellFormed hx hy]

theorem ddiv_msb (hx : finite64 x = true) (hy : finite64 y = true) (h0 : value64 y ≠ 0) :
    (ddiv x y).msb = (x.msb ^^ y.msb) := by
  rw [ne_eq, value64_eq_zero_iff hy] at h0
  have hlt := (binary64.div_isRounding binary64_wellFormed hx hy h0).1
  rw [msb_eq_sign64, msb_eq_sign64, msb_eq_sign64, ddiv, binary64.toNat_ofNat (by decide) hlt,
    binary64.sign_div binary64_wellFormed hx hy h0]

/-- Zero over zero is a NaN, any other finite value over zero an infinity. -/
theorem ddiv_zero (hx : finite64 x = true) (hy : finite64 y = true) (h0 : value64 y = 0) :
    ddiv x y = if value64 x = 0 then BitVec.ofNat 64 binary64.qnan else inf64 (x.msb ^^ y.msb) := by
  rw [value64_eq_zero_iff hy] at h0
  rw [ddiv, binary64.div_of_finite hx hy, if_pos h0, apply_ite (BitVec.ofNat 64), ofNat_pack_inf64, msb_eq_sign64,
    msb_eq_sign64]
  simp only [value64_eq_zero_iff hx]

theorem dlt_iff (hx : finite64 x = true) (hy : finite64 y = true) : dlt x y = true ↔ value64 x < value64 y :=
  binary64.lt_iff_value_lt binary64_wellFormed hx hy

/-! A NaN operand, and an infinite operand beside a finite one -/

theorem binary64_nan (h : isNaN64 x = true ∨ isNaN64 y = true) :
    isNaN64 (dadd x y) = true ∧ isNaN64 (dsub x y) = true ∧ isNaN64 (dmul x y) = true ∧ isNaN64 (ddiv x y) = true ∧
      dlt x y = false := by
  rw [dadd, dsub, dmul, ddiv, dlt, binary64.add_nan h, binary64.sub_nan h, binary64.mul_nan h, binary64.div_nan h,
    binary64.lt_nan h]
  exact ⟨isNaN64_qnan, isNaN64_qnan, isNaN64_qnan, isNaN64_qnan, rfl⟩

theorem dadd_inf (n : Bool) (hx : finite64 x = true) : dadd (inf64 n) x = inf64 n ∧ dadd x (inf64 n) = inf64 n := by
  rw [dadd, dadd, toNat_inf64, binary64.add_inf_left binary64_wellFormed n hx,
    binary64.add_inf_right binary64_wellFormed n hx, ofNat_pack_inf64]
  exact ⟨rfl, rfl⟩

theorem dsub_inf (n : Bool) (hx : finite64 x = true) :
    dsub (inf64 n) x = inf64 n ∧ dsub x (inf64 n) = inf64 (!n) := by
  rw [dsub, dsub, toNat_inf64, binary64.sub_inf_left binary64_wellFormed n hx,
    binary64.sub_inf_right binary64_wellFormed n hx, ofNat_pack_inf64, ofNat_pack_inf64]
  exact ⟨rfl, rfl⟩

theorem dmul_inf (n : Bool) (hx : finite64 x = true) :
    dmul (inf64 n) x = (if value64 x = 0 then BitVec.ofNat 64 binary64.qnan else inf64 (n ^^ x.msb)) ∧
      dmul x (inf64 n) = dmul (inf64 n) x := by
  constructor
  · rw [dmul, toNat_inf64, binary64.mul_inf_left binary64_wellFormed n hx, apply_ite (BitVec.ofNat 64),
      ofNat_pack_inf64, ← msb_eq_sign64]
    simp only [value64_eq_zero_iff hx]
  · rw [dmul, dmul, toNat_inf64, binary64.mul_inf_left binary64_wellFormed n hx,
      binary64.mul_inf_right binary64_wellFormed n hx]

theorem ddiv_inf (n : Bool) (hx : finite64 x = true) :
    ddiv (inf64 n) x = inf64 (n ^^ x.msb) ∧
      ddiv x (inf64 n) = if (n ^^ x.msb) = true then 0x8000000000000000#64 else 0#64 := by
  rw [ddiv, ddiv, toNat_inf64, binary64.div_inf_left binary64_wellFormed n hx,
    binary64.div_inf_right binary64_wellFormed n hx, ofNat_pack_inf64, ← msb_eq_sign64]
  exact ⟨rfl, by cases n ^^ x.msb <;> decide⟩

theorem dlt_inf (n : Bool) (hx : finite64 x = true) : dlt (inf64 n) x = n ∧ dlt x (inf64 n) = !n := by
  rw [dlt, dlt, toNat_inf64, binary64.lt_inf_left binary64_wellFormed n hx,
    binary64.lt_inf_right binary64_wellFormed n hx]
  exact ⟨rfl, rfl⟩

/-! Conversions -/

theorem r32_roundsTo (hx : finite64 x = true) : RoundsTo (value64 x) (r32 x) :=
  (binary64.convert_isRounding binary64_wellFormed binary32_wellFormed hx).roundsTo

theorem r32_msb (hx : finite64 x = true) : (r32 x).msb = x.msb := by
  have hlt := (binary64.convert_isRounding binary64_wellFormed binary32_wellFormed hx).1
  rw [msb_eq_sign32, msb_eq_sign64, r32, binary32.toNat_ofNat (by decide) hlt,
    binary64.sign_convert binary32_wellFormed hx]

theorem isNaN32_r32 (hx : isNaN64 x = true) : isNaN32 (r32 x) = true := by
  rw [r32, binary64.convert_nan binary32 hx]
  decide

/-- Binary64's unit divides binary32's. -/
theorem binary64_scale : binary64.scale = 2 ^ 925 * binary32.scale := by
  simp only [binary64, binary32, ← pow_mul, ← pow_add]

theorem to64_exact {w : Word} (hw : finite32 w = true) :
    finite64 (to64 w) = true ∧ value64 (to64 w) = value32 w ∧ (to64 w).msb = w.msb := by
  have hlt := (binary32.convert_isRounding binary32_wellFormed binary64_wellFormed hw).1
  have hnat : (to64 w).toNat = binary32.convert binary64 w.toNat := binary64.toNat_ofNat (by decide) hlt
  obtain ⟨hfin, hval⟩ :=
    binary32.convert_exact binary32_wellFormed binary64_wellFormed (by decide) (by decide) binary64_scale hw
  rw [finite64, value64, msb_eq_sign64, msb_eq_sign32, hnat, binary32.sign_convert binary64_wellFormed hw]
  exact ⟨hfin, hval, rfl⟩

theorem isNaN64_to64 {w : Word} (hw : isNaN32 w = true) : isNaN64 (to64 w) = true := by
  rw [to64, binary32.convert_nan binary64 hw]
  exact isNaN64_qnan

end Sys2Proof.Machine

open Sys2Proof Sys2Proof.Machine

/-- Settles O11: each clause by the lemma on its operation and its kind of operand, the clauses on infinities alone by
their finitely many cases. -/
theorem calculatorArithmeticRoundsCorrectly : Obligations.CalculatorArithmeticRoundsCorrectly := by
  unfold Obligations.CalculatorArithmeticRoundsCorrectly
  refine ⟨fun x y hx hy => ⟨dadd_roundsTo64 hx hy, dsub_roundsTo64 hx hy, dmul_roundsTo64 hx hy, ddiv_roundsTo64 hx hy,
      dadd_of_sum_zero hx hy, dsub_of_difference_zero hx hy, dmul_msb hx hy, ddiv_msb hx hy, ?overZero, ?zeroOverZero,
      dlt_iff hx hy⟩,
    fun x y => binary64_nan, ?inf, by decide,
    fun x => ⟨fun hx => ⟨r32_roundsTo hx, r32_msb hx⟩, isNaN32_r32⟩, by decide, by decide,
    fun x => ⟨to64_exact, isNaN64_to64⟩, by decide, by decide⟩
  case overZero =>
    intro hy0 hx0
    rw [ddiv_zero hx hy hy0, if_neg hx0]
  case zeroOverZero =>
    intro hy0 hx0
    rw [ddiv_zero hx hy hy0, if_pos hx0, isNaN64_qnan]
  case inf =>
    intro n x hx
    obtain ⟨hadd, hadd'⟩ := dadd_inf n hx
    obtain ⟨hsub, hsub'⟩ := dsub_inf n hx
    obtain ⟨hmul, hcomm⟩ := dmul_inf n hx
    obtain ⟨hdiv, hdiv'⟩ := ddiv_inf n hx
    obtain ⟨hlt, hlt'⟩ := dlt_inf n hx
    refine ⟨hadd, hadd', hsub, hsub', fun h0 => ?_, fun h0 => ?_, hdiv, hdiv', hlt, hlt'⟩
    · rw [hcomm, hmul, if_pos h0]
      exact ⟨isNaN64_qnan, isNaN64_qnan⟩
    · rw [hcomm, hmul, if_neg h0]
      exact ⟨rfl, rfl⟩

end

section
/-! The invariant of the state as the rules of its parts: what each update asks for so that it stays (R20, R21, R24,
R30). -/

namespace Sys2Proof.Machine

/-- An image is finite slot by slot. -/
theorem imageFinite_iff {img : Image} : imageFinite img = true ↔ ∀ k : Slot, coefFinite img[k].coef = true := by
  simp only [imageFinite, List.all_eq_true, Vector.mem_toList_iff, Vector.mem_iff_getElem]
  exact ⟨fun h k => h _ ⟨k.val, k.isLt, rfl⟩, by rintro h _ ⟨i, hi, rfl⟩; exact h ⟨i, hi⟩⟩

theorem imageFinite_set {img : Image} (h : imageFinite img = true) (k : Slot) {e : Entry}
    (he : coefFinite e.coef = true) : imageFinite (img.set k e) = true := by
  rw [imageFinite_iff] at h ⊢
  intro j
  by_cases hj : k.val = j.val
  · simpa [hj] using he
  · simpa [Vector.getElem_set_ne _ _ hj] using h j

/-- Installing a bank of finite sets keeps an image finite (R30, R94). -/
theorem imageFinite_cascadeInstall {img : Image} (h : imageFinite img = true) (c : Cascade) {bank : List Coef}
    (hb : bank.all coefFinite = true) (sc : Nat) : imageFinite (cascadeInstall img c bank sc) = true := by
  rw [imageFinite_iff] at h ⊢
  intro k
  rw [cascadeInstall_getElem]
  split
  · exact h k
  · split
    · rw [List.all_eq_true] at hb
      rw [List.getD_eq_getElem?_getD]
      cases hi : bank[‹Nat›]? with
      | none => exact h k
      | some c => exact hb c (List.mem_of_getElem? hi)
    · exact h k

/-- The image that `ChainConfigure` answers is finite (R30, R100). -/
theorem imageFinite_chainConfigure {T : Transc} {img out : Image} {ps : Params} {fs : Word}
    (h : imageFinite img = true) (ho : chainConfigure T img ps fs = .ok out) : imageFinite out = true := by
  obtain ⟨pk, lc, hc, hp, hl, hh, rfl⟩ := chainConfigure_ok.mp ho
  obtain ⟨-, -, hp⟩ := peakCoeffs_ok.mp hp
  obtain ⟨-, -, hl⟩ := cutCoeffs_ok.mp hl
  obtain ⟨-, -, hh⟩ := cutCoeffs_ok.mp hh
  exact imageFinite_cascadeInstall (imageFinite_cascadeInstall (imageFinite_set h _ hp) _ hl _) _ hh _

/-- A ParameterSet that `ChainConfigure` accepts at some rate is legal whatever the rate (R68, R74, R107). -/
theorem unpreparedLegal_of_chainConfigure {T : Transc} {img out : Image} {ps : Params} {fs : Word}
    (h : chainConfigure T img ps fs = .ok out) : unpreparedLegal ps = true := by
  obtain ⟨pk, lc, hc, hp, hl, hh, -⟩ := chainConfigure_ok.mp h
  obtain ⟨-, hp, -⟩ := peakCoeffs_ok.mp hp
  obtain ⟨-, hl, -⟩ := cutCoeffs_ok.mp hl
  obtain ⟨-, hh, -⟩ := cutCoeffs_ok.mp hh
  simp only [peakDomain, cutDomain, freqLegal, Bool.and_eq_true] at hp hl hh
  simp [unpreparedLegal, hp, hl, hh]

theorem paramLegal_of_unpreparedLegal {ps : Params} (h : unpreparedLegal ps = true) (hl : ps.lcSlope.toNat ≤ 3)
    (hh : ps.hcSlope.toNat ≤ 3) : paramLegal ps = true := by
  simp [paramLegal, h, hl, hh]

theorem statusCode_bounds {c : Status} (h : c ≠ .ok) : 1 ≤ (statusCode c).toNat ∧ (statusCode c).toNat ≤ 0x0A := by
  revert h; cases c <;> decide

/-- The status word of a failing command is a legal content of a sticky register (R24, R120). -/
theorem errLegal_statusWord (opc : Byte) {c : Status} (h : c ≠ .ok) : errLegal (statusWord opc c) = true := by
  have hb := statusCode_bounds h
  have ho := opc.isLt
  simp only [errLegal, statusWord_toNat, Bool.or_eq_true, Bool.and_eq_true, decide_eq_true_eq]
  omega

variable {s : State}

theorem State.inv_iff :
    s.inv = true ↔
      imageFinite s.pub = true ∧ imageFinite s.act = true ∧ paramLegal s.param = true ∧ rateLegal s = true ∧
        ∀ p, errLegal (s.err p) = true := by
  have ports : (∀ p, errLegal (s.err p) = true) ↔ errLegal s.errCtrl = true ∧ errLegal s.errAudio = true :=
    ⟨fun h => ⟨h .ctrl, h .audio⟩, fun h p => by cases p; exacts [h.1, h.2]⟩
  simp only [State.inv, Bool.and_eq_true, and_assoc, ports]

/-! Updates that touch no element of the invariant -/

@[simp] theorem State.inv_setIO (p : Port) (b : PortIO) : (s.setIO p b).inv = s.inv := by cases p <;> rfl

@[simp] theorem State.inv_setHist (c : Channel) (hs : ChanHist) : (s.setHist c hs).inv = s.inv := by cases c <;> rfl

@[simp] theorem State.inv_clearSlot (k : Slot) (m : Bool × Bool) : (s.clearSlot k m).inv = s.inv := rfl

@[simp] theorem State.inv_clearChannels (m : Bool × Bool) : (s.clearChannels m).inv = s.inv := rfl

@[simp] theorem State.inv_issue (p : Port) (rest : List Word) : (s.issue p rest).inv = s.inv := by cases p <;> rfl

@[simp] theorem State.inv_assertReset : s.assertReset.inv = s.inv := rfl

/-! Updates of an element of the invariant -/

section
variable (h : s.inv = true)
include h

theorem State.inv_publish {img : Image} (hi : imageFinite img = true) : (s.publish img).inv = true := by
  obtain ⟨_, ha, hp, hr, he⟩ := State.inv_iff.mp h
  exact State.inv_iff.mpr ⟨hi, ha, hp, hr, by simpa using he⟩

theorem State.inv_latch : s.latch.inv = true := by
  obtain ⟨hi, _, hp, hr, he⟩ := State.inv_iff.mp h
  exact State.inv_iff.mpr ⟨hi, hi, hp, hr, by simpa using he⟩

theorem State.inv_setParam {ps : Params} (hp : paramLegal ps = true) : ({ s with param := ps } : State).inv = true := by
  obtain ⟨hi, ha, _, hr, he⟩ := State.inv_iff.mp h
  exact State.inv_iff.mpr ⟨hi, ha, hp, hr, by simpa using he⟩

theorem State.inv_prepareFor {fs mb : Word} (hf : finitePositive fs = true) (hm : 1 ≤ mb.toNat ∧ mb.toNat ≤ nMax) :
    (s.prepareFor fs mb).inv = true := by
  obtain ⟨hi, ha, hp, _, he⟩ := State.inv_iff.mp h
  exact State.inv_iff.mpr ⟨hi, ha, hp, by simp [rateLegal, hf, hm], by simpa using he⟩

theorem State.inv_setErr (p : Port) {w : Word} (hw : errLegal w = true) : (s.setErr p w).inv = true := by
  obtain ⟨hi, ha, hp, hr, he⟩ := State.inv_iff.mp h
  refine State.inv_iff.mpr ⟨by simpa using hi, by simpa using ha, by simpa using hp, ?_, fun q => ?_⟩
  · simpa [rateLegal] using hr
  · rw [State.setErr_err]
    split
    exacts [hw, he q]

/-- Ending a command keeps the invariant, whatever its status (R24, R120). -/
theorem State.inv_finish (opc : Byte) (c : Status) (ws : List Word) : (s.finish opc c ws).inv = true := by
  rw [State.finish_eq, State.inv_setIO]
  refine State.inv_setErr h _ ?_
  obtain ⟨_, _, _, _, he⟩ := State.inv_iff.mp h
  split
  case isTrue hc => exact errLegal_statusWord opc hc.1
  case isFalse => exact he _

/-- Every effect of a command keeps the invariant. -/
theorem Effect.inv {T : Transc} {i : Instr} {a : Reply} (he : Effect T s i a) : a.state.inv = true := by
  obtain ⟨hpub, _, hparam, _, _⟩ := State.inv_iff.mp h
  cases he
  case nop | rdReg | calcPeak | calcCut => exact h
  case clrErr => exact State.inv_setErr h _ rfl
  case stageSetCoeffs hf => exact State.inv_publish h (imageFinite_set hpub _ hf)
  case stageSetBypass => exact State.inv_publish h (imageFinite_set hpub _ (imageFinite_iff.mp hpub _))
  case cascadeConfigure hb =>
    obtain ⟨rfl, hf⟩ := bankArg_ok.mp hb
    exact State.inv_publish h (imageFinite_cascadeInstall hpub _ hf _)
  case stageProcess | cascadeProcess | chainProcess | processBlock => simpa using State.inv_latch h
  case stageReset | chainReset => simpa using h
  case prepareOk hm hf hc =>
    exact State.inv_publish (State.inv_prepareFor h hf hm) (imageFinite_chainConfigure hpub hc)
  case prepareKept hm hf _ => exact State.inv_prepareFor h hf hm
  case updatePrepared hl hh _ hc =>
    have hp := paramLegal_of_unpreparedLegal (unpreparedLegal_of_chainConfigure hc) hl hh
    exact State.inv_publish (State.inv_setParam h hp) (imageFinite_chainConfigure hpub hc)
  case updateUnprepared hl hh _ hu => exact State.inv_setParam h (paramLegal_of_unpreparedLegal hu hl hh)

theorem exec_inv {i : Instr} {t : State} (hx : exec i s = .next t) : t.inv = true := by
  rcases exec_cases i s with ⟨a, -, he, hi⟩ | ⟨c, -, hi⟩ <;> rw [hi] at hx <;> cases hx
  · exact State.inv_finish (Effect.inv h he) _ _ _
  · exact State.inv_finish h _ _ _

end

/-- The choice of a port keeps the invariant: it moves the turn only (log entry 2). -/
theorem State.inv_pick {p : Port} {t : State} (hp : s.pick = some (p, t)) : t.inv = s.inv := by
  obtain ⟨_, rfl, _⟩ := s.pick_some hp
  rfl

theorem State.reset_inv : State.reset.inv = true := by decide +kernel

theorem State.inv_afterReset : s.afterReset.inv = true := State.reset_inv

end Sys2Proof.Machine

open Sys2Proof Sys2Proof.Machine

/-- Settles O58: a reset step leaves the reset state's elements, an idle step nothing new, and a command or an illegal
header ends in a state whose every update keeps the invariant. -/
theorem stepKeepsInvariant : Obligations.StepKeepsInvariant := by
  unfold Obligations.StepKeepsInvariant
  intro s t h hs
  rcases step_cases s with ⟨-, hr⟩ | ⟨-, -, hi⟩ | ⟨p, u, hd, ws, -, hp, -, -, -, hx⟩
  · obtain rfl : s.afterReset = t := by simpa [hr] using hs
    exact State.inv_afterReset
  · obtain rfl : s = t := by simpa [hi] using hs
    exact h
  · have hu : (u.issue p (ws.drop (operandWords hd))).inv = true := by rw [State.inv_issue, State.inv_pick hp, h]
    rcases hx with ⟨i, -, hx⟩ | ⟨-, hx⟩ | ⟨-, hx⟩ <;> rw [hx] at hs
    · exact exec_inv hu hs
    all_goals
      cases hs
      exact State.inv_finish hu _ _ _

/-- Settles O57. -/
theorem resetStateMeetsInvariant : Obligations.ResetStateMeetsInvariant := State.reset_inv

end

section
/-! Who writes what: the elements that the effects of each command leave alone (R16). -/

namespace Sys2Proof.Machine

section
variable {T : Transc} {s : State} {i : Instr} {a : Reply} (h : Effect T s i a)
include h

theorem Effect.param (hi : i.op ≠ .updateParams) : a.state.param = s.param := by
  cases h
  case updatePrepared | updateUnprepared => exact absurd rfl hi
  all_goals simp

theorem Effect.rate (hi : i.op ≠ .prepare) :
    a.state.fs = s.fs ∧ a.state.maxBlk = s.maxBlk ∧ a.state.prepared = s.prepared := by
  cases h
  case prepareOk | prepareKept => exact absurd rfl hi
  all_goals simp

theorem Effect.published (hi : i.op ∉ [Op.stageSetCoeffs, .stageSetBypass, .cascadeConfigure, .updateParams, .prepare]) :
    a.state.pub = s.pub ∧ a.state.genPub = s.genPub := by
  cases h
  case stageSetCoeffs | stageSetBypass | cascadeConfigure | updatePrepared | prepareOk => simp [Instr.op] at hi
  all_goals simp

theorem Effect.active (hi : i.op ∉ [Op.stageProcess, .cascadeProcess, .chainProcess, .processBlock]) :
    a.state.act = s.act ∧ a.state.genAct = s.genAct := by
  cases h
  case stageProcess | cascadeProcess | chainProcess | processBlock => simp [Instr.op] at hi
  all_goals simp

theorem Effect.hist
    (hi : i.op ∉ [Op.stageProcess, .cascadeProcess, .chainProcess, .processBlock, .stageReset, .chainReset, .prepare]) :
    a.state.histL = s.histL ∧ a.state.histR = s.histR := by
  cases h
  case stageProcess | cascadeProcess | chainProcess | processBlock | stageReset | chainReset | prepareOk | prepareKept =>
    simp [Instr.op] at hi
  all_goals simp

theorem Effect.ownFields :
    a.state.resetIn = s.resetIn ∧ a.state.port = s.port ∧ a.state.turn = s.turn := by
  cases h <;> simp

end

/-- An ending moves a sticky register only on its own port, and only with a failing status (R24, R120). -/
theorem State.finish_err_ne {s : State} {opc : Byte} {c : Status} {ws : List Word} {q : Port}
    (h : (s.finish opc c ws).err q ≠ s.err q) : q = s.port ∧ c ≠ .ok := by
  rw [State.finish_err] at h
  split at h
  case isTrue hc => exact ⟨hc.1, hc.2.1⟩
  case isFalse => exact absurd rfl h

/-- A failing ending responds with its status word alone (R34, R56). -/
theorem State.finish_resp_failing {s : State} (opc : Byte) {c : Status} (hc : c ≠ .ok) (ws : List Word) :
    ((s.finish opc c ws).io s.port).resp = (s.io s.port).resp ++ [statusWord opc c] := by
  simp [hc]

/-- A sticky register is moved by `CLR_ERR` or by a failing answer on its own port (R24, R120). -/
theorem exec_err_ne {i : Instr} {s t : State} {q : Port} (h : exec i s = .next t) (hq : t.err q ≠ s.err q) :
    q = s.port ∧
      (i.op = .clrErr ∨ ∃ c, c ≠ .ok ∧ (t.io q).resp = (s.io q).resp ++ [statusWord i.op.code c]) := by
  rcases exec_cases i s with ⟨a, -, he, hx⟩ | ⟨c, -, hx⟩ <;> rw [hx] at h <;> cases h
  · by_cases hc : i = .clrErr ∧ q = s.port
    · exact ⟨hc.2, .inl (by rw [hc.1]; rfl)⟩
    · have herr : a.state.err q = s.err q := by rw [he.err, if_neg hc]
      rw [← herr] at hq
      obtain ⟨rfl, hs⟩ := State.finish_err_ne hq
      exact ⟨he.port, .inr ⟨_, hs, by rw [State.finish_resp_failing _ hs, he.io]⟩⟩
  · obtain ⟨rfl, hc⟩ := State.finish_err_ne hq
    exact ⟨rfl, .inr ⟨c, hc, State.finish_resp_failing _ hc _⟩⟩

end Sys2Proof.Machine

open Sys2Proof Sys2Proof.Machine

/-- Settles O16: a command that fails moves no element but its sticky register, and one that completes moves those of its
effect. -/
theorem onlyNamedCommandsWriteState : Obligations.OnlyNamedCommandsWriteState := by
  unfold Obligations.OnlyNamedCommandsWriteState
  intro i s t h
  have herr := fun q => exec_err_ne (q := q) h
  rcases exec_cases i s with ⟨a, -, he, hx⟩ | ⟨c, -, hx⟩ <;> rw [hx] at h <;> cases h
  · simp only [State.finish_param, State.finish_fs, State.finish_maxBlk, State.finish_prepared, State.finish_pub,
      State.finish_genPub, State.finish_act, State.finish_genAct, State.finish_histL, State.finish_histR,
      State.finish_resetIn, State.finish_port, State.finish_turn]
    refine ⟨?param, ?rate, ?published, ?active, ?hist, herr, he.ownFields⟩
    case param => exact fun hne => by_contra fun hi => hne (he.param hi)
    case rate =>
      refine fun hne => by_contra fun hi => ?_
      obtain ⟨hfs, hmb, hp⟩ := he.rate hi
      exact hne.elim (· hfs) (·.elim (· hmb) (· hp))
    case published => exact fun hne => by_contra fun hi => hne.elim (· (he.published hi).1) (· (he.published hi).2)
    case active => exact fun hne => by_contra fun hi => hne.elim (· (he.active hi).1) (· (he.active hi).2)
    case hist => exact fun hne => by_contra fun hi => hne.elim (· (he.hist hi).1) (· (he.hist hi).2)
  · simpa using herr

end

section
/-! What a command on CTRL can see of the history: nothing (R29, R37, R125). -/

namespace Sys2Proof.Machine

/-- The state with other histories. -/
def State.withHist (s : State) (hl hr : ChanHist) : State := { s with histL := hl, histR := hr }

/-- The reply with other histories in its state. -/
def Reply.withHist (hl hr : ChanHist) (a : Reply) : Reply := { a with state := a.state.withHist hl hr }

section
variable (s : State) (hl hr : ChanHist)

@[simp] theorem State.withHist_param : (s.withHist hl hr).param = s.param := rfl
@[simp] theorem State.withHist_fs : (s.withHist hl hr).fs = s.fs := rfl
@[simp] theorem State.withHist_prepared : (s.withHist hl hr).prepared = s.prepared := rfl
@[simp] theorem State.withHist_pub : (s.withHist hl hr).pub = s.pub := rfl
@[simp] theorem State.withHist_port : (s.withHist hl hr).port = s.port := rfl

/-- A register that CTRL may read is none of the history's (R37). -/
theorem State.regWord_withHist {r : Reg} (h : r.readableFrom .ctrl = true) :
    (s.withHist hl hr).regWord r = s.regWord r := by
  cases r
  case hist => cases h
  all_goals rfl

theorem State.regRead_withHist (n : Half) : (s.withHist hl hr).regRead .ctrl n = s.regRead .ctrl n := by
  unfold State.regRead
  cases regOfIndex n.toNat with
  | none => rfl
  | some r =>
    cases h : r.readableFrom .ctrl
    · simp [h]
    · simp [h, s.regWord_withHist hl hr h]

theorem State.publish_withHist (img : Image) : (s.withHist hl hr).publish img = (s.publish img).withHist hl hr := rfl

theorem State.setErr_withHist (p : Port) (w : Word) :
    (s.withHist hl hr).setErr p w = (s.setErr p w).withHist hl hr := by
  cases p <;> rfl

theorem State.setIO_withHist (p : Port) (b : PortIO) :
    (s.withHist hl hr).setIO p b = (s.setIO p b).withHist hl hr := by
  cases p <;> rfl

theorem State.err_withHist (p : Port) : (s.withHist hl hr).err p = s.err p := by cases p <;> rfl

theorem State.io_withHist (p : Port) : (s.withHist hl hr).io p = s.io p := by cases p <;> rfl

/-- An ending neither reads nor writes the history. -/
theorem State.finish_withHist (opc : Byte) (c : Status) (ws : List Word) :
    (s.withHist hl hr).finish opc c ws = (s.finish opc c ws).withHist hl hr := by
  simp only [State.finish_eq, State.withHist_port, State.err_withHist, State.io_withHist, State.setErr_withHist,
    State.setIO_withHist]

end

/-- A command on a port that may not issue it answers `WRONG_PORT`, whatever its fields and the rest of the state
(R119, R125). -/
theorem replyOf_wrongPort {T : Transc} {s : State} {i : Instr} (h : i.op.allows s.port = false) :
    replyOf T s i = .error .wrongPort := by
  have hc : checkPort i.op s = .error .wrongPort := by simp [checkPort, h]
  cases i
  case nop | rdReg | clrErr | calcPeak | calcCut => cases h
  all_goals exact congrArg (· >>= _) hc

theorem done_withHist (s : State) (hl hr : ChanHist) (ws : List Word) :
    Reply.withHist hl hr <$> done s ws = done (s.withHist hl hr) ws := rfl

theorem installParams_withHist (T : Transc) (ps : Params) (s : State) (hl hr : ChanHist) :
    installParams T ps (s.withHist hl hr) = Reply.withHist hl hr <$> installParams T ps s := by
  unfold installParams
  rw [State.withHist_prepared]
  split
  · rw [map_bind]; rfl
  · split <;> rfl

/-- The reply of a command on CTRL under other histories is the same reply with those histories in its state: a command
that reads or writes history may not be issued there, and the others pass the histories on. -/
theorem replyOf_withHist (T : Transc) {s : State} (hp : s.port = .ctrl) (hl hr : ChanHist) (i : Instr) :
    replyOf T (s.withHist hl hr) i = Reply.withHist hl hr <$> replyOf T s i := by
  cases i
  case nop => rfl
  case rdReg n =>
    simp only [replyOf, replyRdReg, State.withHist_port, hp, State.regRead_withHist, map_bind, done_withHist]
  case clrErr => simp only [replyOf, replyClrErr, State.withHist_port, State.setErr_withHist, done_withHist]
  case calcPeak => simp only [replyOf, replyCalcPeak, map_bind, done_withHist]
  case calcCut => simp only [replyOf, replyCalcCut, map_bind, done_withHist]
  case stageSetCoeffs => simp only [replyOf, replyStageSetCoeffs, map_bind, done_withHist]; rfl
  case stageSetBypass => simp only [replyOf, replyStageSetBypass, map_bind, done_withHist]; rfl
  case cascadeConfigure => simp only [replyOf, replyCascadeConfigure, map_bind, done_withHist]; rfl
  case updateParams => simp only [replyOf, replyUpdateParams, map_bind, installParams_withHist]; rfl
  all_goals
    rw [replyOf_wrongPort (s := s) (by rw [hp]; rfl), replyOf_wrongPort (by rw [State.withHist_port, hp]; rfl)]
    rfl

/-- Ending a command passes other histories on (R34, R120). -/
theorem settle_withHist (op : Op) (s : State) (hl hr : ChanHist) (r : Except Status Reply) {t : State}
    (h : settle op s r = .next t) :
    settle op (s.withHist hl hr) (Reply.withHist hl hr <$> r) = .next (t.withHist hl hr) := by
  cases r <;> cases h <;> exact congrArg _ (State.finish_withHist ..)

/-- An execution has a next state (R121). -/
theorem exists_exec_eq_next (i : Instr) (s : State) : ∃ t, exec i s = .next t := by
  rcases exec_cases i s with ⟨_, -, -, hx⟩ | ⟨_, -, hx⟩ <;> exact ⟨_, hx⟩

end Sys2Proof.Machine

open Sys2Proof Sys2Proof.Machine

/-- Settles O18: the reply does not depend on the history, and the ending passes the history on. -/
theorem historyInvisibleToCtrl : Obligations.HistoryInvisibleToCtrl := by
  unfold Obligations.HistoryInvisibleToCtrl
  intro i s hl hr hp
  obtain ⟨t, ht⟩ := exists_exec_eq_next i s
  refine ⟨t, ht, ?_⟩
  rw [exec_eq_settle] at ht
  change exec i (s.withHist hl hr) = .next (t.withHist hl hr)
  rw [exec_eq_settle, replyOf_withHist _ hp]
  exact settle_withHist _ _ _ _ _ ht

end

section
/-! Executions: what every move keeps, and the words a port has answered with (R34, R43, R134, R135). -/

namespace Sys2Proof.Machine

/-- A step has a next state, which is the one `afterStep` takes. -/
theorem step_eq_next (s : State) : step s = .next (afterStep s) := by
  have next : ∃ t, step s = .next t := by
    rcases step_cases s with ⟨-, h⟩ | ⟨-, -, h⟩ | ⟨_, _, _, _, -, -, -, -, -, ⟨i, -, h⟩ | ⟨-, h⟩ | ⟨-, h⟩⟩
    case inr.inr.inl => exact h ▸ exists_exec_eq_next _ _
    all_goals exact ⟨_, h⟩
  obtain ⟨t, ht⟩ := next
  simp [afterStep, ht]

/-- Every move keeps the invariant: a step by `stepKeepsInvariant`, the host's moves because they reach only the ports'
buffers and the reset input. -/
theorem Run.inv_move {r : Run} (h : r.state.inv = true) (m : Move) : (r.move m).state.inv = true := by
  cases m with
  | step => exact stepKeepsInvariant _ _ h (step_eq_next _)
  | send p w => simpa [Run.move, State.send] using h
  | read p => simpa [Run.move, State.readWord] using h
  | reset => exact h

/-- The response words of a port so far: those the host has received, then those it has still to read (R34, R135). -/
def Run.answered (r : Run) (p : Port) : List Word := r.received p ++ (r.state.io p).resp

/-- A step that is no reset only adds to a port's response, at its end (R34). -/
theorem step_resp_prefix {s t : State} (hr : s.resetIn = false) (h : step s = .next t) (q : Port) :
    t.resetIn = false ∧ (s.io q).resp <+: (t.io q).resp := by
  cases hp : s.pick with
  | none =>
    obtain rfl : s = t := by simpa [step, State.fetch, hr, hp] using h
    exact ⟨hr, List.prefix_rfl⟩
  | some pu =>
    obtain ⟨p, u⟩ := pu
    obtain ⟨hrt, -, -, hframe⟩ := step_ending hr hp h
    refine ⟨hrt, ?_⟩
    by_cases hq : q = p
    · have hempty := (s.ready_iff.mp (s.pick_some hp).1).1
      rw [hq, hempty]
      exact List.nil_prefix
    · rw [hframe q hq]

/-- Reading a word moves it from the response buffer to the words received. -/
theorem Run.answered_read (r : Run) (p q : Port) : (r.read p).answered q = r.answered q := by
  cases p <;> cases q <;>
    simp [Run.answered, Run.received, Run.read, State.readWord, -List.drop_one]

/-- A word sent to a port touches no response (R33, R34). -/
theorem State.send_resp (s : State) (p q : Port) (w : Word) : ((s.send p w).io q).resp = (s.io q).resp := by
  by_cases h : q = p <;> simp [State.send, h]

/-- A move other than a reset asks for no reset and loses no response word (R34). -/
theorem Run.answered_move {r : Run} (hr : r.state.resetIn = false) {m : Move} (hm : m ≠ .reset) (p : Port) :
    (r.move m).state.resetIn = false ∧ r.answered p <+: (r.move m).answered p := by
  cases m with
  | step =>
    obtain ⟨hrt, hpre⟩ := step_resp_prefix hr (step_eq_next r.state) p
    exact ⟨hrt, (List.prefix_append_right_inj _).mpr hpre⟩
  | send q w =>
    refine ⟨by simpa [Run.move, State.send] using hr, (List.prefix_append_right_inj _).mpr ?_⟩
    exact (r.state.send_resp q p w).symm ▸ List.prefix_rfl
  | read q =>
    refine ⟨by simpa [Run.move, State.readWord] using hr, ?_⟩
    rw [show r.move (.read q) = r.read q from rfl, Run.answered_read]
  | reset => exact absurd rfl hm

/-- Every finite execution keeps the invariant (R43). -/
theorem Run.inv_moves (ms : List Move) {r : Run} (h : r.state.inv = true) : (r.moves ms).state.inv = true := by
  induction ms generalizing r with
  | nil => exact h
  | cons m ms ih => exact ih (r.inv_move h m)

/-- A finite execution without a reset loses no response word (R34, R43). -/
theorem Run.answered_moves (ms : List Move) {r : Run} (hr : r.state.resetIn = false) (hm : Move.reset ∉ ms) (p : Port) :
    r.answered p <+: (r.moves ms).answered p := by
  induction ms generalizing r with
  | nil => exact List.prefix_rfl
  | cons m ms ih =>
    obtain ⟨hne, hms⟩ := List.ne_and_not_mem_of_not_mem_cons hm
    obtain ⟨hrm, hpre⟩ := Run.answered_move hr hne.symm p
    exact hpre.trans (ih hrm hms)

end Sys2Proof.Machine

open Sys2Proof Sys2Proof.Machine

/-- Settles O59: by induction on the moves, each of which keeps the invariant and, unless it is a reset, the answers. -/
theorem executionsKeepInvariant : Obligations.ExecutionsKeepInvariant := by
  unfold Obligations.ExecutionsKeepInvariant
  intro ms r
  refine ⟨Run.inv_moves ms, fun hr hm p => ?_⟩
  obtain ⟨ws, h⟩ := Run.answered_moves ms hr hm p
  exact ⟨ws, h.symm⟩

end

section
/-! Words as bytes on a host link, least significant byte first (R38). -/

namespace Sys2Proof

theorem wordOfBytes_extract (w : Word) :
    wordOfBytes (w.extractLsb' 0 8) (w.extractLsb' 8 8) (w.extractLsb' 16 8) (w.extractLsb' 24 8) = w := by
  unfold wordOfBytes; ext i hi; simp; grind

theorem wordsOfBytes_flatMap_bytesOfWord (ws : List Word) : wordsOfBytes (ws.flatMap bytesOfWord) = ws := by
  induction ws with
  | nil => rfl
  | cons w ws ih => simp [bytesOfWord, wordsOfBytes, wordOfBytes_extract, ih]

/-- Putting a byte in front of a bit vector adds it at its place. -/
theorem toNat_byte_append {n : Nat} (b : Byte) (v : BitVec n) : (b ++ v).toNat = v.toNat + 2 ^ n * b.toNat := by
  rw [BitVec.toNat_append, ← Nat.shiftLeft_add_eq_or_of_lt v.isLt, Nat.shiftLeft_eq]
  ring

theorem wordOfBytes_toNat (b0 b1 b2 b3 : Byte) :
    (wordOfBytes b0 b1 b2 b3).toNat = b0.toNat + 2 ^ 8 * b1.toNat + 2 ^ 16 * b2.toNat + 2 ^ 24 * b3.toNat := by
  have h : wordOfBytes b0 b1 b2 b3 = b3 ++ (b2 ++ (b1 ++ b0)) := by
    unfold wordOfBytes; ext i hi; simp; grind
  rw [h, toNat_byte_append, toNat_byte_append, toNat_byte_append]

end Sys2Proof

open Sys2Proof Sys2Proof.Machine

/-- Settles O6: by induction on the words, each of which is its four bytes put together again. -/
theorem hostLinkBytesRoundTrip : Obligations.HostLinkBytesRoundTrip := by
  unfold Obligations.HostLinkBytesRoundTrip
  exact fun ws => ⟨wordsOfBytes_flatMap_bytesOfWord ws, wordOfBytes_toNat⟩

end

section
/-! The register space: which register an index is, and what reading it answers (R36, R37, R110). -/

namespace Sys2Proof.Machine

/-- A register of an image's index range, by its offset (R36). -/
theorem imageReg_eq_some {coef : Slot → Fin 5 → Reg} {byp : Slot → Reg} {o : Nat} {r : Reg} :
    imageReg coef byp o = some r ↔
      (∃ s k, r = coef s k ∧ o = 8 * s.val + k.val) ∨ ∃ s, r = byp s ∧ o = 8 * s.val + 5 := by
  unfold imageReg
  constructor
  · intro h
    split at h
    case isFalse => cases h
    split at h
    case isTrue => cases h; exact .inl ⟨_, _, rfl, by simp; omega⟩
    split at h
    case isTrue => cases h; exact .inr ⟨_, rfl, by simp; omega⟩
    case isFalse => cases h
  · rintro (⟨s, k, rfl, rfl⟩ | ⟨s, rfl, rfl⟩)
    · have hs : (8 * s.val + k.val) / 8 = s.val := by omega
      have hk : (8 * s.val + k.val) % 8 = k.val := by omega
      simp [hs, hk]
    · have hs : (8 * s.val + 5) / 8 = s.val := by omega
      simp [hs]

/-- A register of a channel's history range, by its offset (R36). -/
theorem histReg_eq_some {ch : Channel} {o : Nat} {r : Reg} :
    histReg ch o = some r ↔ ∃ s j, r = .hist ch s j ∧ o = 4 * s.val + j.val := by
  unfold histReg
  constructor
  · intro h
    split at h
    case isTrue => cases h; exact ⟨_, _, rfl, by simp; omega⟩
    case isFalse => cases h
  · rintro ⟨s, j, rfl, rfl⟩
    have hs : (4 * s.val + j.val) / 4 = s.val := by omega
    have hj : (4 * s.val + j.val) % 4 = j.val := by omega
    simp [hs, hj]

/-! `regOfIndex` range by range (R36) -/

theorem regOfIndex_param (k : Fin 7) : regOfIndex (0x010 + k.val) = some (.param k) := by
  have h : 0x010 + k.val < 0x100 := by omega
  simp [regOfIndex, h]

theorem regOfIndex_pub {o : Nat} (h : o < 0x100) : regOfIndex (0x100 + o) = imageReg .pubCoef .pubByp o := by
  rw [regOfIndex, if_neg (by omega), if_neg (by omega), if_pos (by omega), Nat.add_sub_cancel_left]

theorem regOfIndex_act {o : Nat} (h : o < 0x100) : regOfIndex (0x200 + o) = imageReg .actCoef .actByp o := by
  rw [regOfIndex, if_neg (by omega), if_neg (by omega), if_neg (by omega), if_pos (by omega), Nat.add_sub_cancel_left]

theorem regOfIndex_histL {o : Nat} (h : o < 0x40) : regOfIndex (0x300 + o) = histReg .left o := by
  rw [regOfIndex, if_neg (by omega), if_neg (by omega), if_neg (by omega), if_neg (by omega), if_pos (by omega),
    Nat.add_sub_cancel_left]

theorem regOfIndex_histR (o : Nat) : regOfIndex (0x340 + o) = histReg .right o := by
  rw [regOfIndex, if_neg (by omega), if_neg (by omega), if_neg (by omega), if_neg (by omega), if_neg (by omega),
    Nat.add_sub_cancel_left]

/-- Every register is found at its own index. -/
theorem regOfIndex_index (r : Reg) : regOfIndex r.index = some r := by
  cases r
  case param k => exact regOfIndex_param k
  case pubCoef s k =>
    rw [Reg.index, Nat.add_assoc, regOfIndex_pub (by omega)]
    exact imageReg_eq_some.mpr (.inl ⟨s, k, rfl, rfl⟩)
  case pubByp s =>
    rw [Reg.index, Nat.add_assoc, regOfIndex_pub (by omega)]
    exact imageReg_eq_some.mpr (.inr ⟨s, rfl, rfl⟩)
  case actCoef s k =>
    rw [Reg.index, Nat.add_assoc, regOfIndex_act (by omega)]
    exact imageReg_eq_some.mpr (.inl ⟨s, k, rfl, rfl⟩)
  case actByp s =>
    rw [Reg.index, Nat.add_assoc, regOfIndex_act (by omega)]
    exact imageReg_eq_some.mpr (.inr ⟨s, rfl, rfl⟩)
  case hist ch s j =>
    cases ch
    · rw [Reg.index, Nat.add_assoc, regOfIndex_histL (by omega)]
      exact histReg_eq_some.mpr ⟨s, j, rfl, rfl⟩
    · rw [Reg.index, Nat.add_assoc, regOfIndex_histR]
      exact histReg_eq_some.mpr ⟨s, j, rfl, rfl⟩
  all_goals rfl

/-- A register found at an index has that index. -/
theorem index_of_regOfIndex {i : Nat} {r : Reg} (h : regOfIndex i = some r) : r.index = i := by
  unfold regOfIndex at h
  split at h
  case isTrue => interval_cases i <;> cases h <;> rfl
  split at h
  case isTrue =>
    split at h
    · cases h; simp only [Reg.index]; omega
    · cases h
  split at h
  case isTrue => obtain ⟨s, k, rfl, ho⟩ | ⟨s, rfl, ho⟩ := imageReg_eq_some.mp h <;> simp only [Reg.index] <;> omega
  split at h
  case isTrue => obtain ⟨s, k, rfl, ho⟩ | ⟨s, rfl, ho⟩ := imageReg_eq_some.mp h <;> simp only [Reg.index] <;> omega
  split at h <;> obtain ⟨s, j, rfl, ho⟩ := histReg_eq_some.mp h <;> simp only [Reg.index] <;> omega

theorem regOfIndex_eq_some {i : Nat} {r : Reg} : regOfIndex i = some r ↔ r.index = i :=
  ⟨index_of_regOfIndex, fun h => h ▸ regOfIndex_index r⟩

/-- AUDIO may read every register, CTRL those below the history's range (R37). -/
theorem Reg.readableFrom_iff {r : Reg} {p : Port} :
    r.readableFrom p = true ↔ r.index < 0x300 ∨ p = .audio := by
  cases r
  case hist ch s j => cases ch <;> simp [Reg.readableFrom, Reg.index] <;> omega
  all_goals simp [Reg.readableFrom, Reg.index] <;> omega

section
variable {s : State} {n : Half} {r : Reg} (hr : r.index = n.toNat)

/-- Reading an unmapped index fails (R37). -/
theorem exec_rdReg_unmapped (h : regOfIndex n.toNat = none) :
    exec (.rdReg n) s = .next (s.finish 0x01#8 .badRegister []) :=
  exec_of_error (by simp [replyOf, replyRdReg, State.regRead, h])

include hr

/-- Reading a history index from CTRL fails (R37). -/
theorem exec_rdReg_hist_ctrl (hn : 0x300 ≤ n.toNat) (hp : s.port = .ctrl) :
    exec (.rdReg n) s = .next (s.finish 0x01#8 .wrongPort []) := by
  have h : ¬ r.readableFrom .ctrl = true := by rw [Reg.readableFrom_iff]; simp [hr, hn]
  exact exec_of_error (by simp [replyOf, replyRdReg, State.regRead, regOfIndex_eq_some.mpr hr, hp, h])

/-- Reading any other mapped index answers the content of its register and writes nothing (R37, R110). -/
theorem exec_rdReg (h : n.toNat < 0x300 ∨ s.port = .audio) :
    exec (.rdReg n) s = .next (s.respond [0x00000100#32, s.regWord r]) := by
  have h : r.readableFrom s.port = true := by rwa [Reg.readableFrom_iff, hr]
  have hreply : replyOf Config.transc s (.rdReg n) = .ok ⟨s, .ok, [s.regWord r]⟩ := by
    simp [replyOf, replyRdReg, State.regRead, regOfIndex_eq_some.mpr hr, h, done]
  rw [exec_of_ok hreply, statusWord_ok]
  rfl

end

end Sys2Proof.Machine

open Sys2Proof Sys2Proof.Machine

/-- Settles O9. -/
theorem registerMapIsExact : Obligations.RegisterMapIsExact := by
  unfold Obligations.RegisterMapIsExact
  exact fun _ _ => regOfIndex_eq_some

/-- Settles O10: the first clauses are the three cases of reading an index, and each index listed is that of the
register that holds the element. -/
theorem rdRegReadsMappedIndices : Obligations.RdRegReadsMappedIndices := by
  unfold Obligations.RdRegReadsMappedIndices
  refine ⟨fun s n => ⟨exec_rdReg_unmapped, fun r hr => ⟨?hist, exec_rdReg hr⟩⟩, fun s => ⟨?id, ?status, ?errCtrl,
    ?errAudio, ?genPub, ?genAct, ?fs, ?maxBlk, ?param, fun k => ⟨fun j => ⟨?pubCoef, ?actCoef⟩, ?pubByp, ?actByp⟩,
    ?histories⟩⟩
  case hist => exact fun ⟨hn, _, hp⟩ => exec_rdReg_hist_ctrl hr hn hp
  case id => exact exec_rdReg (r := .id) rfl (.inl (by decide))
  case status => exact exec_rdReg (r := .status) rfl (.inl (by decide))
  case errCtrl => exact exec_rdReg (r := .errCtrl) rfl (.inl (by decide))
  case errAudio => exact exec_rdReg (r := .errAudio) rfl (.inl (by decide))
  case genPub => exact exec_rdReg (r := .genPub) rfl (.inl (by decide))
  case genAct => exact exec_rdReg (r := .genAct) rfl (.inl (by decide))
  case fs => exact exec_rdReg (r := .fs) rfl (.inl (by decide))
  case maxBlk => exact exec_rdReg (r := .maxBlk) rfl (.inl (by decide))
  case param => exact fun k => exec_rdReg (r := .param k) (by simp [Reg.index]; omega) (.inl (by simp; omega))
  case pubCoef => exact exec_rdReg (r := .pubCoef k j) (by simp [Reg.index]; omega) (.inl (by simp; omega))
  case actCoef => exact exec_rdReg (r := .actCoef k j) (by simp [Reg.index]; omega) (.inl (by simp; omega))
  case pubByp => exact exec_rdReg (r := .pubByp k) (by simp [Reg.index]; omega) (.inl (by simp; omega))
  case actByp => exact exec_rdReg (r := .actByp k) (by simp [Reg.index]; omega) (.inl (by simp; omega))
  case histories =>
    exact fun hp k j => ⟨exec_rdReg (r := .hist .left k j) (by simp [Reg.index]; omega) (.inr hp),
      exec_rdReg (r := .hist .right k j) (by simp [Reg.index]; omega) (.inr hp)⟩

end

section
/-! Answers, publication and latch: what each effect gives of the three (R34, R45, R46, R57). -/

namespace Sys2Proof.Machine

section
variable {T : Transc} {s : State} {i : Instr} {a : Reply} (h : Effect T s i a)
include h

/-- A command that completes with `OK` has as many result words as R57 says. -/
theorem Effect.words_length (hok : a.status = .ok) : a.words.length = resultCount i := by
  cases h
  case prepareKept => cases hok
  case calcCut hc =>
    obtain ⟨rfl, -, -⟩ := cutCoeffs_ok.mp hc
    simp [List.length_flatMap, resultCount, Coef.words, Nat.mul_comm]
  case processBlock => simp [resultCount]
  all_goals rfl

/-- An effect publishes nothing, or one image as one of the five publishing commands, with `OK` and no result word
(R45). -/
theorem Effect.publication :
    (a.state.pub = s.pub ∧ a.state.genPub = s.genPub) ∨
      (a.state.genPub = s.genPub + 1 ∧
        i.op ∈ [Op.stageSetCoeffs, .stageSetBypass, .cascadeConfigure, .updateParams, .prepare] ∧
        a.status = .ok ∧ a.words = []) := by
  cases h
  case stageSetCoeffs | stageSetBypass | cascadeConfigure | updatePrepared | prepareOk =>
    exact .inr ⟨by simp, by simp [Instr.op], rfl, rfl⟩
  all_goals exact .inl (by simp)

/-- A processing command that completes latches the published image and does not publish (R46). -/
theorem Effect.latched (hi : i.op ∈ [Op.stageProcess, .cascadeProcess, .chainProcess, .processBlock]) :
    a.status = .ok ∧ a.state.act = s.pub ∧ a.state.genAct = s.genPub ∧
      a.state.pub = s.pub ∧ a.state.genPub = s.genPub := by
  cases h
  case stageProcess | cascadeProcess | chainProcess | processBlock => simp
  all_goals simp [Instr.op] at hi

end

/-- The status a command answers with is read back from its response (R56). -/
theorem State.status_of_finish_resp {s u : State} {opc : Byte} {c d : Status} {ws vs : List Word}
    (hp : u.port = s.port) (hio : u.io s.port = s.io s.port)
    (h : ((u.finish opc d vs).io s.port).resp = (s.io s.port).resp ++ (statusWord opc c :: ws)) : d = c := by
  rw [State.finish_io, hp, if_pos rfl, hio, List.append_cancel_left_eq, List.cons.injEq] at h
  exact statusWord_injective h.1

end Sys2Proof.Machine

open Sys2Proof Sys2Proof.Machine

/-- Settles O13: both endings of a command respond once on its own port, an effect with the words of R57, an error with
none. -/
theorem everyCommandAnswersOnce : Obligations.EveryCommandAnswersOnce := by
  unfold Obligations.EveryCommandAnswersOnce
  intro i s
  rcases exec_cases i s with ⟨a, -, he, hx⟩ | ⟨c, hr, hx⟩
  · refine ⟨_, a.status, if a.status = .ok then a.words else [], hx, ?port, ?own, statusWord_toNat _ _,
      fun q hq => ?other, ?words⟩
    case port => rw [State.finish_port, he.port]
    case own => rw [State.finish_io, he.port, he.io, if_pos rfl]
    case other => rw [State.finish_io, he.port, he.io, if_neg hq]
    case words =>
      split
      case isTrue hok => exact he.words_length hok
      case isFalse => rfl
  · obtain ⟨hok, -⟩ := replyOf_error hr
    exact ⟨_, c, [], hx, by simp, by simp, statusWord_toNat _ _, fun q hq => by simp [hq], by simp [hok]⟩

/-- Settles O19: only an effect publishes, and it does so once. -/
theorem publicationIsCountedOnce : Obligations.PublicationIsCountedOnce := by
  unfold Obligations.PublicationIsCountedOnce
  intro i s t h
  rcases exec_cases i s with ⟨a, -, he, hx⟩ | ⟨c, -, hx⟩ <;> rw [hx] at h <;> cases h
  · rcases he.publication with ⟨hpub, hgen⟩ | ⟨hgen, hi, hok, hw⟩
    · exact .inl ⟨by simpa using hpub, by simpa using hgen⟩
    · refine .inr ⟨by simpa using hgen, hi, ?_⟩
      rw [State.finish_io, he.port, he.io, hok, hw]
      simp
  · exact .inl (by simp)

/-- Settles O20: the effect of a processing command latches and ends with `OK`, an error ends with another code and
changes no image. -/
theorem processingLatchesPublishedImage : Obligations.ProcessingLatchesPublishedImage := by
  unfold Obligations.ProcessingLatchesPublishedImage
  intro i s t c ws hi h hresp
  rcases exec_cases i s with ⟨a, -, he, hx⟩ | ⟨d, hr, hx⟩ <;> rw [hx] at h <;> cases h
  · obtain rfl := State.status_of_finish_resp he.port (he.io _) hresp
    obtain ⟨hok, hact, hgen, hpub, hgenPub⟩ := he.latched hi
    simp [hok, hact, hgen, hpub, hgenPub]
  · obtain rfl := State.status_of_finish_resp rfl rfl hresp
    obtain ⟨hok, -⟩ := replyOf_error hr
    simp [hok]

end

section
/-! Steps: what the chosen port's command starts from, and what a step does to each port (R32 to R34, R42, R43). -/

namespace Sys2Proof.Machine

/-- With both ports ready the turn's winner runs (R43; log entry 2). -/
theorem State.pick_of_both {s : State} (hc : s.ready .ctrl = true) (ha : s.ready .audio = true) :
    s.pick =
      some (s.turn.winner Config.firstPort, { s with turn := s.turn.next Config.firstPort Config.patience true }) := by
  simp [State.pick, hc, ha]

theorem State.pick_eq_none {s : State} (hc : s.ready .ctrl = false) (ha : s.ready .audio = false) : s.pick = none := by
  simp [State.pick, hc, ha]

/-- A step with no port to run idles (R129). -/
theorem step_idle {s : State} (hr : s.resetIn = false) (hp : s.pick = none) : step s = .next s := by
  simp [step, State.fetch, hr, hp]

/-- A step that is no reset takes the picked port's first packet whole and answers on that port (R33, R34). -/
theorem step_takes_packet {s t u : State} {p : Port} (hr : s.resetIn = false) (hp : s.pick = some (p, u))
    (h : step s = .next t) :
    ∃ hd ws, (s.io p).rx = hd :: ws ∧ operandWords hd ≤ ws.length ∧ (s.io p).resp = [] ∧
      (t.io p).rx = ws.drop (operandWords hd) ∧ (t.io p).resp ≠ [] := by
  obtain ⟨-, -, hans, -⟩ := step_ending hr hp h
  rcases step_cases s with ⟨h1, -⟩ | ⟨-, h1, -⟩ | ⟨q, v, hd, ws, -, hq, hrx, hl, hresp, hs⟩
  · simp [hr] at h1
  · simp [hp] at h1
  · obtain ⟨rfl, rfl⟩ : p = q ∧ u = v := by simpa [hp] using hq
    refine ⟨hd, ws, by rw [← s.pick_io hp, hrx], hl, hresp, ?_, hans⟩
    rcases hs with ⟨i, -, hs⟩ | ⟨-, hs⟩ | ⟨-, hs⟩ <;> rw [hs] at h
    · obtain ⟨-, -, w, ws', hio⟩ := exec_ending h
      simp [hio]
    all_goals
      cases h
      simp [State.finish_io]

end Sys2Proof.Machine

open Sys2Proof Sys2Proof.Machine

/-- Settles O51. -/
theorem stepRunsDecodedCommand : Obligations.StepRunsDecodedCommand := by
  unfold Obligations.StepRunsDecodedCommand
  intro s t p i rest hr hp hd
  simp only [step, State.fetch, hr, hp, State.fetchAt, hd, State.issue_eq, Bool.false_eq_true, if_false]

/-- Settles O52: readiness and the choice of a port by the laws of `State.ready` and `State.pick`, the fair
interleavings by `turnAt_any`. -/
theorem pickedPortIsReady : Obligations.PickedPortIsReady := by
  unfold Obligations.PickedPortIsReady
  refine ⟨fun s => ⟨fun p => s.ready_iff, fun p t hp => ?_, fun p q => s.pick_of_ready, State.pick_of_both,
    fun hr hc ha => step_idle hr (State.pick_eq_none hc ha)⟩, turnAt_any⟩
  obtain ⟨hrd, rfl, -⟩ := s.pick_some hp
  exact ⟨hrd, rfl⟩

/-- Settles O53: a step with no port to run leaves both ports, and one with a port to run moves that port alone. -/
theorem portHoldsOrRunsOnePacket : Obligations.PortHoldsOrRunsOnePacket := by
  unfold Obligations.PortHoldsOrRunsOnePacket
  intro s t hr h
  cases hp : s.pick with
  | none =>
    obtain rfl : s = t := by simpa [step_idle hr hp] using h
    exact ⟨.inl rfl, fun _ => .inl rfl⟩
  | some pu =>
    obtain ⟨p, u⟩ := pu
    obtain ⟨-, -, -, hframe⟩ := step_ending hr hp h
    constructor
    · cases p
      · exact .inr (hframe .audio (by decide))
      · exact .inl (hframe .ctrl (by decide))
    · intro q
      by_cases hq : q = p
      · exact .inr (hq ▸ step_takes_packet hr hp h)
      · exact .inl (hframe q hq)

end

section
/-! Weak fairness: a ready port's patience is used up by the steps that pass it over, and the host's moves leave both as
they are (R34, R44; log entry 2). -/

namespace Sys2Proof.Machine

/-- A port with an unread response is not ready (R34). -/
theorem State.not_ready_of_resp {s : State} {p : Port} (h : (s.io p).resp ≠ []) : s.ready p = false :=
  Bool.eq_false_iff.mpr fun hr => h (s.ready_iff.mp hr).1

/-- Two steps with no host move between them run a ready port: if the first runs the other port, that one's unread
response leaves the port alone (R34). -/
theorem two_steps_answer {s t u : State} {p : Port} (hr : s.resetIn = false) (hp : s.ready p = true)
    (hst : step s = .next t) (htu : step t = .next u) : (u.io p).resp ≠ [] := by
  cases hq : s.pick with
  | none =>
    obtain ⟨hc, ha⟩ := s.pick_none hq
    cases p
    · exact absurd hp (Bool.eq_false_iff.mp hc)
    · exact absurd hp (Bool.eq_false_iff.mp ha)
  | some qv =>
    obtain ⟨q, v⟩ := qv
    obtain ⟨hrt, -, hans, hframe⟩ := step_ending hr hq hst
    by_cases hpq : p = q
    · obtain ⟨-, hpre⟩ := step_resp_prefix hrt htu p
      exact hpre.ne_nil (hpq ▸ hans)
    · have hpt : t.ready p = true := by simpa [State.ready, hframe p hpq] using hp
      have hpick := t.pick_of_ready hpq hpt (State.not_ready_of_resp hans)
      obtain ⟨-, -, hansp, -⟩ := step_ending hrt hpick htu
      exact hansp

/-- A move of the host leaves a ready port ready and the turn as it stands (R33, R34). -/
theorem Run.ready_move {r : Run} {p : Port} (h : r.state.ready p = true) {m : Move} (hm : m ≠ .step) :
    (r.move m).state.ready p = true ∧ (r.move m).state.turn = r.state.turn := by
  cases m with
  | step => exact absurd rfl hm
  | send q w => exact ⟨State.ready_send h q w, by simp [Run.move, State.send]⟩
  | read q =>
    rw [show r.move (.read q) = r.read q from rfl, Run.read_state]
    exact ⟨State.ready_readWord h q, by simp [State.readWord]⟩
  | reset => exact ⟨by simpa [Run.move] using h, rfl⟩

section
variable {r : Run} {ms : Nat → Move} {p : Port}

/-- Any number of host moves in a row leaves a ready port ready and the turn as it stands. -/
theorem Run.ready_at_add {n : Nat} (h : (r.at ms n).state.ready p = true) (d : Nat)
    (hd : ∀ j < d, ms (n + j) ≠ .step) :
    (r.at ms (n + d)).state.ready p = true ∧ (r.at ms (n + d)).state.turn = (r.at ms n).state.turn := by
  induction d with
  | zero => exact ⟨h, rfl⟩
  | succ d ih =>
    obtain ⟨hr, ht⟩ := ih fun j hj => hd j (by omega)
    obtain ⟨hr', ht'⟩ := Run.ready_move hr (hd d (by omega))
    exact ⟨hr', ht'.trans ht⟩

variable (steps : ∀ n, ∃ m, n ≤ m ∧ ms m = .step)
include steps

/-- From a ready port on, an execution comes to a step, with the port still ready and the turn as it stood. -/
theorem Run.exists_step_of_ready {n : Nat} (h : (r.at ms n).state.ready p = true) :
    ∃ m, n ≤ m ∧ ms m = .step ∧ (r.at ms m).state.ready p = true ∧ (r.at ms m).state.turn = (r.at ms n).state.turn := by
  have later : ∃ d, ms (n + d) = .step := by
    obtain ⟨m, hm, hs⟩ := steps n
    exact ⟨m - n, by rwa [Nat.add_sub_cancel' hm]⟩
  obtain ⟨hr, ht⟩ := Run.ready_at_add h (Nat.find later) fun j hj => Nat.find_min later hj
  exact ⟨_, Nat.le_add_right _ _, Nat.find_spec later, hr, ht⟩

/-- The next step of an execution runs a ready port, or is a reset, or leaves the port ready and waiting, with its
patience one less if it was waiting before. -/
theorem Run.next_step_of_ready {n : Nat} (h : (r.at ms n).state.ready p = true) :
    ∃ m, n ≤ m ∧
      ((r.runsAt ms p m ∨ r.resetsAt ms m) ∨
        (r.at ms (m + 1)).state.ready p = true ∧
          ∃ k, (r.at ms (m + 1)).state.turn.waiting = some (p, k) ∧
            ∀ j, (r.at ms n).state.turn.waiting = some (p, j) → j = k + 1) := by
  obtain ⟨m, hnm, hs, hrd, hturn⟩ := Run.exists_step_of_ready steps h
  refine ⟨m, hnm, ?_⟩
  cases hreset : (r.at ms m).state.resetIn with
  | true => exact .inl (.inr ⟨hs, hreset⟩)
  | false =>
    have hnext : (r.at ms (m + 1)).state = afterStep (r.at ms m).state := by rw [Run.at, hs]; rfl
    rcases step_ready hreset hrd (step_eq_next _) with hans | ⟨hrd', k, hk, hj⟩
    · exact .inl (.inl ⟨hs, hrd, by rwa [hnext]⟩)
    · rw [hnext, ← hturn]
      exact .inr ⟨hrd', k, hk, hj⟩

/-- A port that waits with some patience runs, or a reset discards its packet: by induction on the patience. -/
theorem Run.runs_of_waiting {n k : Nat} (h : (r.at ms n).state.ready p = true)
    (hw : (r.at ms n).state.turn.waiting = some (p, k)) : ∃ m, n ≤ m ∧ (r.runsAt ms p m ∨ r.resetsAt ms m) := by
  induction k generalizing n with
  | zero =>
    obtain ⟨m, hm, hdone | ⟨-, k, -, hj⟩⟩ := Run.next_step_of_ready steps h
    · exact ⟨m, hm, hdone⟩
    · cases hj 0 hw
  | succ k ih =>
    obtain ⟨m, hm, hdone | ⟨hrd, l, hl, hj⟩⟩ := Run.next_step_of_ready steps h
    · exact ⟨m, hm, hdone⟩
    · obtain rfl : k = l := Nat.succ.inj (hj _ hw)
      obtain ⟨m', hm', hdone⟩ := ih hrd hl
      exact ⟨m', by omega, hdone⟩

/-- Every execution with endlessly many steps is weakly fair (R44). -/
theorem Run.weaklyFair_of_steps : r.weaklyFair ms := by
  intro p n h
  obtain ⟨m, hm, hdone | ⟨hrd, k, hk, -⟩⟩ := Run.next_step_of_ready steps h
  · exact ⟨m, hm, hdone⟩
  · obtain ⟨m', hm', hdone⟩ := Run.runs_of_waiting steps hrd hk
    exact ⟨m', by omega, hdone⟩

end

end Sys2Proof.Machine

open Sys2Proof Sys2Proof.Machine

/-- Settles O54: the next step of an execution runs a ready port or leaves it waiting, and waiting ends; with no host
move in between, the port that ran first holds. -/
theorem readyPortRunsWithinTwoSteps : Obligations.ReadyPortRunsWithinTwoSteps := by
  unfold Obligations.ReadyPortRunsWithinTwoSteps
  refine ⟨fun s p hr hp => ?_, fun ms r steps => Run.weaklyFair_of_steps steps⟩
  have hst := step_eq_next s
  have htu := step_eq_next (afterStep s)
  exact ⟨_, _, hst, htu, two_steps_answer hr hp hst htu⟩

end

section
/-! Headers: a header of an opcode is the opcode with the fields its format uses, and which bytes are opcodes (R54, R57,
R58). -/

namespace Sys2Proof

/-- The header of an opcode with those fields of `h` that the format uses, its reserved fields zero (R54). -/
def HeaderFormat.keep (f : HeaderFormat) (opc : Byte) (h : Word) : Word :=
  match f with
  | .f0 => mkHeader opc 0 0 0
  | .fn => mkHeader opc 0 0 (hdrN h)
  | .fs => mkHeader opc (hdrS h) 0 0
  | .fsa => mkHeader opc (hdrS h) (hdrA h) 0
  | .fa => mkHeader opc 0 (hdrA h) 0

/-- The fields a format does not use are zero in the header (R54). -/
def HeaderFormat.reservedZero (f : HeaderFormat) (h : Word) : Prop :=
  match f with
  | .f0 => hdrS h = 0 ∧ hdrA h = 0 ∧ hdrN h = 0
  | .fn => hdrS h = 0 ∧ hdrA h = 0
  | .fs => hdrA h = 0 ∧ hdrN h = 0
  | .fsa => hdrN h = 0
  | .fa => hdrS h = 0 ∧ hdrN h = 0

/-- A format's mask covers the opcode and the reserved fields, all of each (R54). -/
theorem HeaderFormat.mask_eq (f : HeaderFormat) :
    f.mask =
      match f with
      | .f0 => mkHeader (.allOnes 8) (.allOnes 4) (.allOnes 4) (.allOnes 16)
      | .fn => mkHeader (.allOnes 8) (.allOnes 4) (.allOnes 4) 0
      | .fs => mkHeader (.allOnes 8) 0 (.allOnes 4) (.allOnes 16)
      | .fsa => mkHeader (.allOnes 8) 0 0 (.allOnes 16)
      | .fa => mkHeader (.allOnes 8) (.allOnes 4) 0 (.allOnes 16) := by
  cases f <;> decide

/-- A header matches an opcode when it has that opcode and zero reserved fields (R54). -/
theorem headerMatches_iff {op : Op} {h : Word} :
    headerMatches op h = true ↔ hdrOpc h = op.code ∧ op.format.reservedZero h := by
  rw [headerMatches, beq_iff_eq, ← mkHeader_fields h, op.format.mask_eq]
  cases op.format <;> simp [HeaderFormat.reservedZero, mkHeader_and, mkHeader_inj, -BitVec.reduceAllOnes]

/-- A header with the right opcode and zero reserved fields is the one made of its used fields. -/
theorem HeaderFormat.keep_eq_self {f : HeaderFormat} {h : Word} (hz : f.reservedZero h) : f.keep (hdrOpc h) h = h := by
  conv => rhs; rw [← mkHeader_fields h]
  cases f <;> simp_all [HeaderFormat.keep, HeaderFormat.reservedZero]

/-- The match word of an opcode is its code shifted to bits 31:24 (R54). -/
theorem mkHeader_code_eq_shift (o : Byte) : mkHeader o 0#4 0#4 0#16 = o.setWidth 32 <<< 24 := by
  unfold mkHeader
  ext i hi; simp; grind

/-- A byte is unassigned when it is the code of no opcode (R57, R59). -/
theorem ofCode_eq_none {b : Byte} : Op.ofCode b = none ↔ b ∉ Op.all.map Op.code := by
  simp [Op.ofCode]

theorem operandWords_of_code {h : Word} {op : Op} (ho : hdrOpc h = op.code) :
    operandWords h = op.operandCount (hdrN h).toNat := by
  simp [operandWords, ho]

theorem operandWords_of_unassigned {h : Word} (ho : Op.ofCode (hdrOpc h) = none) : operandWords h = 0 := by
  simp [operandWords, ho]

theorem hdrN_toNat (h : Word) : (hdrN h).toNat = h.toNat % 2 ^ 16 := by
  simp [hdrN]

end Sys2Proof

open Sys2Proof Sys2Proof.Machine

/-- Settles O3: masking is field by field (`headerMatches_iff`). -/
theorem headerFormatsReserveFields : Obligations.HeaderFormatsReserveFields := by
  unfold Obligations.HeaderFormatsReserveFields
  refine ⟨by decide, fun op h => ⟨?_, headerMatches_iff⟩⟩
  rw [headerMatches, beq_iff_eq, mkHeader_code_eq_shift]

end

section
/-! Packets: what each outcome of the decoder says of the words, and the encoding of the command it reads (R33, R53, R57
to R60). -/

namespace Sys2Proof

/-- A stream decodes to a command when it begins with a whole packet whose header matches an opcode (R33, R54, R58). -/
theorem decode_eq_instr_iff {ws : List Word} {i : Instr} {rest : List Word} :
    decode ws = .instr i rest ↔
      ∃ op h t, ws = h :: t ∧ headerMatches op h = true ∧ operandWords h ≤ t.length ∧ buildInstr op h t = i ∧
        t.drop (operandWords h) = rest := by
  constructor
  · intro hd
    cases ws with
    | nil => cases hd
    | cons h t =>
      rw [decode] at hd
      split_ifs at hd with hl
      split at hd
      · cases hd
      · split_ifs at hd with hm
        cases hd
        exact ⟨_, h, t, rfl, hm, Nat.not_lt.mp hl, rfl, rfl⟩
  · rintro ⟨op, h, t, rfl, hm, hl, rfl, rfl⟩
    simp [decode, Nat.not_lt.mpr hl, (headerMatches_iff.mp hm).1, hm]

/-- A header with an unassigned opcode takes one word (R59). -/
theorem decode_unassigned {h : Word} (ws : List Word) (ho : Op.ofCode (hdrOpc h) = none) :
    decode (h :: ws) = .illegalOpcode (hdrOpc h) ws := by
  simp [decode, operandWords_of_unassigned ho, ho]

/-- A header that has an opcode and does not match it takes its whole packet (R60). -/
theorem decode_reserved {op : Op} {h : Word} {ws : List Word} (ho : hdrOpc h = op.code)
    (hz : ¬ op.format.reservedZero h) (hl : operandWords h ≤ ws.length) :
    decode (h :: ws) = .illegalFormat op.code (ws.drop (operandWords h)) := by
  have hm : ¬ headerMatches op h = true := fun hm => hz (headerMatches_iff.mp hm).2
  simp [decode, Nat.not_lt.mpr hl, ho, hm]

/-- The first words of a list read one by one. -/
theorem take_eq_map_getD {n : Nat} {ws : List Word} (h : n ≤ ws.length) :
    ws.take n = (List.range n).map fun k => ws.getD k 0 := by
  apply List.ext_getElem
  · simpa using h
  · intro k hk _
    have : k < ws.length := by simp at hk; omega
    simp [this]

/-- Encoding the command built from a header and words gives the header back, with the fields its format uses, and as
many of the words as the opcode has operands (R53, R57). -/
theorem encode_buildInstr {op : Op} {h : Word} {ws : List Word}
    (hl : op.operandCount (hdrN h).toNat ≤ ws.length) :
    encode (buildInstr op h ws) = op.format.keep op.code h :: ws.take (op.operandCount (hdrN h).toNat) := by
  cases op
  case processBlock =>
    have hl : 2 * (hdrN h).toNat ≤ ws.length := hl
    simp [encode, buildInstr, Op.operandCount, Op.format, Op.code, HeaderFormat.keep, takeFrames_length hl,
      frameWords_takeFrames hl]
  all_goals
    rw [take_eq_map_getD hl]
    rfl

/-- A command built from a whole packet has an encoding: its frame count is a header field (R53). -/
theorem buildInstr_wellFormed {op : Op} {h : Word} {ws : List Word}
    (hl : op.operandCount (hdrN h).toNat ≤ ws.length) : (buildInstr op h ws).wellFormed = true := by
  cases op
  case processBlock =>
    have hn := (hdrN h).isLt
    simp only [buildInstr, Instr.wellFormed, nMax, takeFrames_length hl, decide_eq_true_eq]
    omega
  all_goals rfl

/-- Every well-formed command's packet has the length its header announces (R33, R58). -/
theorem encode_length (i : Instr) : Laws.EncodeLength.Statement i :=
  match i with
  | .nop => Laws.EncodeLength.nop
  | .rdReg n => Laws.EncodeLength.rdReg n
  | .clrErr => Laws.EncodeLength.clrErr
  | .calcPeak f q g fs => Laws.EncodeLength.calcPeak f q g fs
  | .calcCut kd fc fs od => Laws.EncodeLength.calcCut kd fc fs od
  | .stageSetCoeffs sl c => Laws.EncodeLength.stageSetCoeffs sl c
  | .stageSetBypass sl b => Laws.EncodeLength.stageSetBypass sl b
  | .stageProcess sl ch x => Laws.EncodeLength.stageProcess sl ch x
  | .stageReset sl cm => Laws.EncodeLength.stageReset sl cm
  | .cascadeConfigure c sc k0 k1 k2 k3 => Laws.EncodeLength.cascadeConfigure c sc k0 k1 k2 k3
  | .cascadeProcess c ch x => Laws.EncodeLength.cascadeProcess c ch x
  | .chainProcess ch x => Laws.EncodeLength.chainProcess ch x
  | .chainReset cm => Laws.EncodeLength.chainReset cm
  | .prepare fs mb => Laws.EncodeLength.prepare fs mb
  | .processBlock frames => Laws.EncodeLength.processBlock frames
  | .updateParams ps => Laws.EncodeLength.updateParams ps

/-- The header of a command's packet matches the command's opcode (R54). -/
theorem encode_headerMatches {i : Instr} {h : Word} {ws : List Word} (he : encode i = h :: ws) :
    headerMatches i.op h = true := by
  rw [headerMatches_iff]
  cases i <;> cases he <;> simp [Instr.op, Op.code, Op.format, HeaderFormat.reservedZero]

/-- Building from a command's packet, with any words after it, gives the command (R53, R57). -/
theorem buildInstr_encode {i : Instr} {h : Word} {ws : List Word} (hw : i.wellFormed = true)
    (he : encode i = h :: ws) (rest : List Word) : buildInstr i.op h (ws ++ rest) = i := by
  cases i
  case processBlock frames =>
    cases he
    have hlen : frames.length < 65536 := Nat.lt_succ_of_le (of_decide_eq_true hw)
    simp [Instr.op, buildInstr, Nat.mod_eq_of_lt hlen, takeFrames_frameWords]
  all_goals
    cases he
    simp [Instr.op, buildInstr, coefAt, paramsAt, Coef.words, Params.words]

/-- Decoding inverts encoding on well-formed commands (R53, R57). -/
theorem decode_encode {i : Instr} (hw : i.wellFormed = true) (rest : List Word) :
    decode (encode i ++ rest) = .instr i rest := by
  obtain ⟨h, ws, he, -, hl⟩ := encode_length i hw
  exact decode_eq_instr_iff.mpr ⟨i.op, h, ws ++ rest, by rw [he]; rfl, encode_headerMatches he, by simp [hl],
    buildInstr_encode hw he rest, by simp [← hl]⟩

/-- Encoding inverts decoding (R54, R60). -/
theorem encode_decode {ws : List Word} {i : Instr} {rest : List Word} (hd : decode ws = .instr i rest) :
    i.wellFormed = true ∧ ws = encode i ++ rest := by
  obtain ⟨op, h, t, rfl, hm, hl, rfl, rfl⟩ := decode_eq_instr_iff.mp hd
  obtain ⟨ho, hz⟩ := headerMatches_iff.mp hm
  rw [operandWords_of_code ho] at hl ⊢
  refine ⟨buildInstr_wellFormed hl, ?_⟩
  rw [encode_buildInstr hl, ← ho, HeaderFormat.keep_eq_self hz, List.cons_append, List.take_append_drop]

/-- The number of operand words by the header's opcode byte (R57, R58). -/
theorem operandWords_eq (h : Word) :
    operandWords h =
      if hdrOpc h = 0x51#8 then 2 * (h.toNat % 2 ^ 16)
      else if hdrOpc h = 0x10#8 then 4
      else if hdrOpc h = 0x11#8 then 3
      else if hdrOpc h = 0x20#8 then 5
      else if hdrOpc h = 0x22#8 ∨ hdrOpc h = 0x31#8 ∨ hdrOpc h = 0x40#8 then 1
      else if hdrOpc h = 0x30#8 then 20
      else if hdrOpc h = 0x50#8 then 2
      else if hdrOpc h = 0x52#8 then 7
      else 0 := by
  cases ho : Op.ofCode (hdrOpc h) with
  | none =>
    have hne := ofCode_eq_none.mp ho
    simp only [Op.all, Op.code, List.map_cons, List.map_nil, List.mem_cons, not_or] at hne
    simp [operandWords_of_unassigned ho, hne]
  | some op =>
    have hc := (code_of_ofCode ho).symm
    rw [operandWords_of_code hc, hc, hdrN_toNat]
    cases op <;> rfl

end Sys2Proof

open Sys2Proof Sys2Proof.Machine

/-- Settles O1 by `decode_encode`. -/
theorem decodeInvertsEncode : Obligations.DecodeInvertsEncode := fun _ rest hw => decode_encode hw rest

/-- Settles O2 by `encode_decode`. -/
theorem encodeInvertsDecode : Obligations.EncodeInvertsDecode := fun _ _ _ hd => encode_decode hd

/-- Settles O4: a stream with too few words is incomplete (`decode_eq_incomplete`), any other loses its first packet
(`decode_rest`). -/
theorem packetLengthIsFixedByHeader : Obligations.PacketLengthIsFixedByHeader := by
  unfold Obligations.PacketLengthIsFixedByHeader
  intro h ws
  refine ⟨operandWords_eq h, ?_⟩
  rcases Nat.lt_or_ge ws.length (operandWords h) with hl | hl
  · have hd : decode (h :: ws) = .incomplete := decode_eq_incomplete.mpr (by rintro _ _ ⟨rfl, rfl⟩; exact hl)
    simpa only [hd] using hl
  · rcases decode_rest hl with ⟨i, hd⟩ | hd | hd <;> simp only [hd, hl, and_self]

/-- Settles O5: each list of words is the encoding of its command. -/
theorem workedEncodingsDecode : Obligations.WorkedEncodingsDecode :=
  ⟨decode_encode (i := .nop) rfl [], decode_encode (i := .rdReg 0x004#16) rfl [],
    decode_encode (i := .stageSetBypass 6#4 1#4) rfl [],
    decode_encode (i := .stageProcess 4#4 1#4 0x3F800000#32) rfl [],
    fun k0 k1 k2 k3 => decode_encode (i := .cascadeConfigure 1#4 1#4 k0 k1 k2 k3) rfl [],
    decode_encode (i := .chainReset 3#4) rfl [],
    decode_encode (i := .prepare 0x472C4400#32 0x00000200#32) rfl [],
    decode_encode (i := .processBlock [(0x3F800000#32, 0x3F000000#32), (0x00000000#32, 0xBF000000#32)]) rfl [],
    decode_encode (i := .calcCut 1#4 0x447A0000#32 0x473B8000#32 0x00000004#32) rfl []⟩

end

section
/-! Illegal headers: the step that fails one (R59, R60, R120). -/

namespace Sys2Proof.Machine

/-- The packet of a port with a step is whole (R33). -/
theorem State.pick_whole {s t : State} {p : Port} {h : Word} {ws : List Word} (hp : s.pick = some (p, t))
    (hrx : (t.io p).rx = h :: ws) : operandWords h ≤ ws.length := by
  obtain ⟨hrd, -⟩ := s.pick_some hp
  obtain ⟨-, h', ws', hx, hl⟩ := s.ready_iff.mp hrd
  rw [← s.pick_io hp, hrx] at hx
  cases hx
  exact hl

/-- A packet taken and failed: the port loses the packet and answers with one status word, and its sticky register keeps
its first failure (R12, R34, R120). -/
theorem State.finish_issue (t : State) (p : Port) (rest : List Word) (opc : Byte) {c : Status} (hc : c ≠ .ok) :
    (t.issue p rest).finish opc c [] =
      (({ t with port := p } : State).setIO p
          { rx := rest, resp := (t.io p).resp ++ [statusWord opc c] }).setErr p
        (if errCode (t.err p) = 0 then statusWord opc c else t.err p) := by
  rw [State.finish_eq]
  cases p <;> simp [State.issue, hc] <;> rfl

section
variable {s t : State} {p : Port} {opc : Byte} {rest : List Word} (hr : s.resetIn = false)
  (hp : s.pick = some (p, t))
include hr hp

/-- A step that takes an unassigned opcode (R59). -/
theorem step_illegalOpcode (hd : decode (t.io p).rx = .illegalOpcode opc rest) :
    step s = .next ((t.issue p rest).finish opc .illegalOpcode []) := by
  simp [step, State.fetch, State.fetchAt, hr, hp, hd]

/-- A step that takes a header with a nonzero reserved field (R60). -/
theorem step_illegalFormat (hd : decode (t.io p).rx = .illegalFormat opc rest) :
    step s = .next ((t.issue p rest).finish opc .illegalFormat []) := by
  simp [step, State.fetch, State.fetchAt, hr, hp, hd]

end

end Sys2Proof.Machine

open Sys2Proof Sys2Proof.Machine

/-- Settles O7: the decoder takes the header alone (`decode_unassigned`), and the step fails it. -/
theorem unassignedOpcodeFails : Obligations.UnassignedOpcodeFails := by
  unfold Obligations.UnassignedOpcodeFails
  intro s t p h ws hr hp hrx ho
  have hd : decode (t.io p).rx = .illegalOpcode (hdrOpc h) ws := by
    rw [hrx, decode_unassigned ws (ofCode_eq_none.mpr ho)]
  rw [step_illegalOpcode hr hp hd, State.finish_issue _ _ _ _ (by decide)]

/-- Settles O8: the picked port holds the packet whole, the decoder takes it (`decode_reserved`), and the step fails it. -/
theorem reservedFieldFails : Obligations.ReservedFieldFails := by
  unfold Obligations.ReservedFieldFails
  intro s t p h ws op hr hp hrx ho hz
  have hnz : ¬ op.format.reservedZero h := by
    revert hz
    cases op.format <;> simp only [HeaderFormat.reservedZero, ne_eq, not_and_or, imp_self]
  have hd : decode (t.io p).rx = .illegalFormat op.code (ws.drop (operandWords h)) := by
    rw [hrx, decode_reserved ho hnz (State.pick_whole hp hrx)]
  rw [step_illegalFormat hr hp hd, State.finish_issue _ _ _ _ (by decide)]

end

section
/-! The calculator commands: each ends as its computation does, and the cut formulas' whole numbers in binary64 (R71, R72,
R79, R80). -/

namespace Sys2Proof.Machine

/-! The set and the bank inside and outside the domain -/

theorem peakCoeffs_eq {T : Transc} {f q g fs : Word} (h : peakDomain f q g fs = true) :
    peakCoeffs T f q g fs =
      if coefFinite (deliver (peakRaw T f q g fs)) = true then .ok (deliver (peakRaw T f q g fs))
      else .error .domain := by
  simp [peakCoeffs, h]

theorem peakCoeffs_outside {T : Transc} {f q g fs : Word} (h : peakDomain f q g fs = false) :
    peakCoeffs T f q g fs = .error .domain := by
  simp [peakCoeffs, h]

theorem cutCoeffs_eq {T : Transc} {kd : Kind} {fc fs : Word} {order : Nat} (h : cutDomain fc fs order = true) :
    cutCoeffs T kd fc fs order =
      if (cutBank T kd fc fs order).all coefFinite = true then .ok (cutBank T kd fc fs order)
      else .error .domain := by
  rw [cutCoeffs, h, Bool.true_and]

theorem cutCoeffs_outside {T : Transc} {kd : Kind} {fc fs : Word} {order : Nat} (h : cutDomain fc fs order = false) :
    cutCoeffs T kd fc fs order = .error .domain := by
  rw [cutCoeffs, h, Bool.false_and, if_neg Bool.false_ne_true]

/-! The endings of the two commands -/

/-- `CALC_PEAK` answers the words of the set, or fails as the calculator does (R79). -/
theorem exec_calcPeak (s : State) (f q g fs : Word) :
    exec (.calcPeak f q g fs) s =
      match peakCoeffs Config.transc f q g fs with
      | .ok c => .next (s.respond (0x00001000#32 :: c.words))
      | .error e => .next (s.finish 0x10#8 e []) := by
  cases h : peakCoeffs Config.transc f q g fs with
  | ok c =>
    have hr : replyOf Config.transc s (.calcPeak f q g fs) = .ok ⟨s, .ok, c.words⟩ := by
      simp only [replyOf, replyCalcPeak, h, ok_bind, done]
    rw [exec_of_ok hr, statusWord_ok]
    rfl
  | error e => exact exec_of_error (by simp only [replyOf, replyCalcPeak, h, error_bind])

theorem kindArg_kindField (k : Kind) : kindArg (kindField k) = .ok k := by cases k <;> rfl

/-- The four legal orders pass as an operand word (R71, R80). -/
theorem orderArg_legal (m : Fin 4) :
    orderArg (BitVec.ofNat 32 (2 * (m.val + 1))) = .ok (2 * (m.val + 1)) := by
  revert m; decide

/-- `CALC_CUT` with a legal kind and order answers the words of the bank, or fails as the calculator does (R80). -/
theorem exec_calcCut (s : State) (k : Kind) (m : Fin 4) (fc fs : Word) :
    exec (.calcCut (kindField k) fc fs (BitVec.ofNat 32 (2 * (m.val + 1)))) s =
      match cutCoeffs Config.transc k fc fs (2 * (m.val + 1)) with
      | .ok bank => .next (s.respond (0x00001100#32 :: bank.flatMap Coef.words))
      | .error e => .next (s.finish 0x11#8 e []) := by
  have hr : replyOf Config.transc s (.calcCut (kindField k) fc fs (BitVec.ofNat 32 (2 * (m.val + 1)))) =
      cutCoeffs Config.transc k fc fs (2 * (m.val + 1)) >>= fun bank => done s (bank.flatMap Coef.words) := by
    simp only [replyOf, replyCalcCut, kindArg_kindField, orderArg_legal, ok_bind]
  cases h : cutCoeffs Config.transc k fc fs (2 * (m.val + 1)) with
  | ok bank =>
    rw [h, ok_bind, done] at hr
    rw [exec_of_ok hr, statusWord_ok]
    rfl
  | error e => exact exec_of_error (by rw [hr, h, error_bind])

/-! The whole numbers of R72 in binary64 -/

/-- The odd factors 1, 3, 5, 7 of R72. -/
theorem natToDouble_odd (k : Fin 4) :
    natToDouble (2 * k.val + 1) =
      [0x3FF0000000000000#64, 0x4008000000000000#64, 0x4014000000000000#64, 0x401C000000000000#64].getD k 0 := by
  revert k; decide +kernel

/-- The divisors 4, 8, 12, 16 of R72, twice the order. -/
theorem natToDouble_twiceOrder (m : Fin 4) :
    natToDouble (2 * (2 * (m.val + 1))) =
      #v[0x4010000000000000#64, 0x4020000000000000#64, 0x4028000000000000#64, 0x4030000000000000#64][m] := by
  revert m; decide +kernel

end Sys2Proof.Machine

open Sys2Proof Sys2Proof.Machine

/-- Settles O23: the command ends as `peakCoeffs` does (`exec_calcPeak`). -/
theorem calcPeakCompletes : Obligations.CalcPeakCompletes := by
  unfold Obligations.CalcPeakCompletes
  refine ⟨fun _ _ _ _ _ => rfl, fun s f q g fs => ⟨fun h => ?inside, fun h => ?outside⟩⟩
  case inside =>
    rw [exec_calcPeak, peakCoeffs_eq h]
    split_ifs <;> rfl
  case outside => rw [exec_calcPeak, peakCoeffs_outside h]

/-- Settles O24: the command ends as `cutCoeffs` does (`exec_calcCut`), and the numbers of R72 are converted exactly. -/
theorem calcCutCompletes : Obligations.CalcCutCompletes := by
  unfold Obligations.CalcCutCompletes
  refine ⟨fun T kd fc fs m => ?formula, fun s k m fc fs => ⟨fun h => ?inside, fun h => ?outside⟩⟩
  case formula =>
    rw [cutBank, Nat.mul_div_cancel_left _ two_pos]
    refine List.map_congr_left fun k hk => ?_
    have hk4 : k < 4 := by have := List.mem_range.mp hk; omega
    have hodd := natToDouble_odd ⟨k, hk4⟩
    have htwice := natToDouble_twiceOrder m
    simp only at hodd
    cases kd <;> simp only [deliver, cutRaw, sectionQ, hodd, htwice] <;> rfl
  case inside =>
    rw [exec_calcCut, cutCoeffs_eq h]
    split_ifs <;> rfl
  case outside => rw [exec_calcCut, cutCoeffs_outside h]

end

section
/-! The calculator's domains over the rational values: a comparison with half the sample rate is exact, because binary64
holds half of every binary32 value (R10, R68, R74, R107). -/

namespace Sys2Proof.Machine

/-- A finite encoding's value lies below the overflow threshold. -/
theorem Format.abs_value_lt_overflow {f : Format} (hf : f.WellFormed) {x : Nat} (hx : f.finite x = true) :
    |f.value x| < f.overflow := by
  have hs : (0 : ℚ) < f.scale := by exact_mod_cast hf.scale_pos
  have hmag := f.finite_iff.mp hx
  have hle : (f.unitsOf (f.mag x) : ℚ) ≤ f.unitsOf (f.infMag - 1) :=
    Nat.cast_le.mpr (f.unitsOf_strictMono.monotone (by omega))
  have hlt : (f.unitsOf (f.infMag - 1) : ℚ) < f.unitsOf f.infMag :=
    Nat.cast_lt.mpr (f.unitsOf_strictMono (by omega))
  rw [f.value_of_finite hx, mul_div_assoc, abs_signFactor_mul _ (by positivity), Format.overflow,
    div_lt_div_iff₀ hs (by positivity)]
  nlinarith

/-- A value of the format is rounded to itself. -/
theorem Format.IsRounding.value_eq {f : Format} (hf : f.WellFormed) {v w : Nat} (hv : f.finite v = true)
    (h : f.IsRounding (f.value v) w) : f.finite w = true ∧ f.value w = f.value v := by
  obtain ⟨hfin, hnear⟩ := (if_pos (f.abs_value_lt_overflow hf hv)).mp h.2
  have h0 := (hnear v hv).1
  rw [sub_self, abs_zero, abs_nonpos_iff, sub_eq_zero] at h0
  exact ⟨hfin, h0⟩

/-- Binary32 with a unit half as large: the same encodings, each with half its value. -/
def halfBinary32 : Format := { binary32 with scale := 2 ^ 150 }

theorem halfBinary32_wellFormed : halfBinary32.WellFormed := by constructor <;> decide

theorem halfBinary32_value {x : Nat} (hx : binary32.finite x = true) :
    halfBinary32.value x = binary32.value x / 2 := by
  have hscale : (halfBinary32.scale : ℚ) = binary32.scale * 2 := by norm_num [halfBinary32, binary32]
  rw [binary32.value_of_finite hx, halfBinary32.value_of_finite hx, hscale, div_div]
  rfl

theorem dTwo_finite : finite64 dTwo = true := by decide

theorem value64_dTwo : value64 dTwo = 2 := by decide +kernel

/-- Half of a binary32 value is computed exactly in binary64. -/
theorem ddiv_to64_dTwo {w : Word} (hw : finite32 w = true) :
    finite64 (ddiv (to64 w) dTwo) = true ∧ value64 (ddiv (to64 w) dTwo) = value32 w / 2 := by
  obtain ⟨hfin, hval, -⟩ := to64_exact hw
  have hscale : binary64.scale = 2 ^ 924 * halfBinary32.scale := by
    simp only [binary64, halfBinary32, ← pow_mul, ← pow_add]
  obtain ⟨hv, hhalf⟩ := halfBinary32.convert_exact halfBinary32_wellFormed binary64_wellFormed (by decide) (by decide)
    hscale hw
  rw [halfBinary32_value hw] at hhalf
  have h0 : binary64.mag dTwo.toNat ≠ 0 := by decide
  have hdiv := binary64.div_isRounding binary64_wellFormed hfin dTwo_finite h0
  have hlt := hdiv.1
  change binary64.IsRounding (value64 (to64 w) / value64 dTwo) _ at hdiv
  rw [hval, value64_dTwo, value32, ← hhalf] at hdiv
  obtain ⟨hq, hqv⟩ := hdiv.value_eq binary64_wellFormed hv
  rw [hhalf] at hqv
  rw [finite64, value64, ddiv, binary64.toNat_ofNat (by decide) hlt]
  exact ⟨hq, hqv⟩

/-- The binary64 test for a positive number decides it over the values (R66). -/
theorem positive32_iff {w : Word} (hw : finite32 w = true) : positive32 w = true ↔ 0 < value32 w := by
  obtain ⟨hfin, hval, -⟩ := to64_exact hw
  have h0 : value64 0x0000000000000000#64 = 0 := (value64_eq_zero_iff (by decide)).mpr rfl
  rw [positive32, dlt_iff (by decide) hfin, hval, h0]

theorem finitePositive_iff {w : Word} : finitePositive w = true ↔ finite32 w = true ∧ 0 < value32 w := by
  rw [finitePositive, Bool.and_eq_true]
  exact and_congr_right positive32_iff

/-- At a finite sample rate the frequency check decides the open interval (0, fs/2) over the values (R68, R74). -/
theorem freqLegal_iff {w fs : Word} (hfs : finite32 fs = true) :
    freqLegal w fs = true ↔ finite32 w = true ∧ 0 < value32 w ∧ value32 w < value32 fs / 2 := by
  obtain ⟨hhalf, hhalfv⟩ := ddiv_to64_dTwo hfs
  rw [freqLegal, Bool.and_eq_true, finitePositive_iff, and_assoc]
  refine and_congr_right fun hw => and_congr_right fun _ => ?_
  obtain ⟨hfin, hval, -⟩ := to64_exact hw
  rw [dlt_iff hfin hhalf, hval, hhalfv]

theorem orderLegal_iff {order : Nat} : orderLegal order = true ↔ order ∈ [2, 4, 6, 8] := by
  simp [orderLegal, or_assoc]

/-- A sample rate and a frequency at that rate, the part of the domain that the peak and the cuts share (R68, R74). -/
theorem rate_freqLegal_iff {w fs : Word} :
    finitePositive fs = true ∧ freqLegal w fs = true ↔
      (finite32 fs = true ∧ 0 < value32 fs) ∧ (finite32 w = true ∧ 0 < value32 w ∧ value32 w < value32 fs / 2) := by
  rw [finitePositive_iff]
  exact and_congr_right fun hfs => freqLegal_iff hfs.1

end Sys2Proof.Machine

open Sys2Proof Sys2Proof.Machine

/-- Settles O25: each check by its lemma over the values. -/
theorem calculatorDomainIsExact : Obligations.CalculatorDomainIsExact := by
  unfold Obligations.CalculatorDomainIsExact
  refine ⟨fun f q g fs order => ⟨?peak, ?cut⟩, fun ps => ?unprepared⟩
  case peak => simp only [peakDomain, Bool.and_eq_true, rate_freqLegal_iff, finitePositive_iff (w := q), and_assoc]
  case cut => simp only [cutDomain, Bool.and_eq_true, orderLegal_iff, and_assoc, rate_freqLegal_iff]
  case unprepared => simp only [unpreparedLegal, Bool.and_eq_true, finitePositive_iff, and_assoc]

end

section
/-! The peak at zero gain: with `A = 1.0` a product and a quotient by `A` are the same encoding, so numerator and
denominator of the bell coincide (R69, R70). -/

namespace Sys2Proof.Machine

/-- The units of 1.0. -/
theorem unpack_dOne : binary64.unpack dOne.toNat = .fin false binary64.scale := by decide +kernel

/-- A product with 1.0 and a quotient by 1.0 are the same rounding, for infinities and NaNs as well. -/
theorem dmul_dOne (x : Double) : dmul x dOne = ddiv x dOne := by
  have hs := binary64_wellFormed.scale_pos.ne'
  rw [dmul, ddiv, Format.mul, Format.div, unpack_dOne]
  cases binary64.unpack x.toNat with
  | nan => rfl
  | inf s => simp only [if_neg hs]
  | fin s u => simp only [if_neg hs]

/-- A double over itself is 1.0, or a NaN where it is zero, an infinity or a NaN. -/
theorem ddiv_self (x : Double) : ddiv x x = dOne ∨ isNaN64 (ddiv x x) = true := by
  rw [ddiv, Format.div]
  cases binary64.unpack x.toNat with
  | nan => exact .inr isNaN64_qnan
  | inf s => exact .inr isNaN64_qnan
  | fin s u =>
    by_cases hu : u = 0
    · simp only [hu, if_true]
      exact .inr isNaN64_qnan
    · left
      have hr := binary64.roundMag_mul binary64.scale 1 u (Nat.pos_of_ne_zero hu)
      rw [one_mul, mul_comm] at hr
      simp only [if_neg hu, hr, Bool.xor_self]
      decide +kernel

theorem not_finite32_of_isNaN32 {w : Word} (h : isNaN32 w = true) : finite32 w = false := by
  simp only [isNaN32, finite32, Format.isNaN, Format.finite, decide_eq_true_eq, decide_eq_false_iff_not] at h ⊢
  omega

/-- A double over itself, where it is delivered as a finite word, is 1.0. -/
theorem r32_ddiv_self {x : Double} (h : finite32 (r32 (ddiv x x)) = true) : r32 (ddiv x x) = 0x3F800000#32 := by
  rcases ddiv_self x with h1 | hn
  · rw [h1]
    decide +kernel
  · rw [not_finite32_of_isNaN32 (isNaN32_r32 hn)] at h
    cases h

/-- At a gain of either zero `A` is 1.0 (R67, R69). -/
theorem exp10_zeroGain {T : Transc} (hT : T.Exp10Unit) {g : Word} (hg : g = 0x00000000#32 ∨ g = 0x80000000#32) :
    T.exp10 (ddiv (to64 g) dForty) = dOne := by
  obtain ⟨hpos, hneg⟩ := hT
  rcases hg with rfl | rfl
  · rw [show ddiv (to64 0x00000000#32) dForty = 0x0000000000000000#64 by decide +kernel, hpos, dOne]
  · rw [show ddiv (to64 0x80000000#32) dForty = 0x8000000000000000#64 by decide +kernel, hneg, dOne]

/-- The bell at zero gain: b0 is a double over itself, and the other quotients are equal in pairs (R70). -/
theorem peakRaw_zeroGain {T : Transc} {f q g fs : Word} (h : T.exp10 (ddiv (to64 g) dForty) = dOne) :
    ∃ a0, (peakRaw T f q g fs).b0 = ddiv a0 a0 ∧ (peakRaw T f q g fs).b1 = (peakRaw T f q g fs).a1 ∧
      (peakRaw T f q g fs).b2 = (peakRaw T f q g fs).a2 := by
  simp only [peakRaw, h, dmul_dOne]
  exact ⟨_, rfl, by trivial⟩

end Sys2Proof.Machine

open Sys2Proof Sys2Proof.Machine

/-- Settles O26: a delivered set is finite, so its b0, a double over itself (`peakRaw_zeroGain`), is 1.0. -/
theorem unityPeakAtZeroGain : Obligations.UnityPeakAtZeroGain := by
  unfold Obligations.UnityPeakAtZeroGain
  intro T f q g fs c hT hg hc
  obtain ⟨rfl, -, hfin⟩ := peakCoeffs_ok.mp hc
  obtain ⟨a0, hb0, hb1, hb2⟩ := peakRaw_zeroGain (f := f) (q := q) (fs := fs) (exp10_zeroGain hT hg)
  simp only [deliver, coefFinite, Bool.and_eq_true, hb0] at hfin
  obtain ⟨⟨⟨⟨hfin0, -⟩, -⟩, -⟩, -⟩ := hfin
  simp only [deliver, hb0, hb1, hb2, and_true]
  exact r32_ddiv_self hfin0

end

section
/-! Configuring again: installing the same sets over an image that holds them changes nothing (R78, R100). -/

namespace Sys2Proof.Machine

theorem image_ext {a b : Image} (h : ∀ k : Slot, a[k] = b[k]) : a = b := Vector.ext fun i hi => h ⟨i, hi⟩

/-- Installing a bank a second time changes nothing (R94). -/
theorem cascadeInstall_idem (img : Image) (c : Cascade) (bank : List Coef) (sc : Nat) :
    cascadeInstall (cascadeInstall img c bank sc) c bank sc = cascadeInstall img c bank sc := by
  refine image_ext fun k => ?_
  simp only [cascadeInstall_getElem]
  cases stageIndex c k with
  | none => rfl
  | some i =>
    by_cases hi : i < activeCount sc
    · cases hb : bank[i]? <;> simp [hi, hb, List.getD_eq_getElem?_getD]
    · simp [hi]

/-- No slot is in both cascades (R27). -/
theorem stageIndex_none_of_cascades (k : Slot) : stageIndex .lc k = none ∨ stageIndex .hc k = none := by
  revert k; decide

/-- The two cascades' banks are installed in either order (R27, R94). -/
theorem cascadeInstall_comm (img : Image) (lc hc : List Coef) (scl sch : Nat) :
    cascadeInstall (cascadeInstall img .lc lc scl) .hc hc sch =
      cascadeInstall (cascadeInstall img .hc hc sch) .lc lc scl := by
  refine image_ext fun k => ?_
  simp only [cascadeInstall_getElem]
  rcases stageIndex_none_of_cascades k with h | h <;> simp only [h]

/-- Installing a peak set and two banks leaves the peak slot with the set and its own bypass bit (R100). -/
theorem chainInstall_peak (img : Image) (pk : Coef) (lc hc : List Coef) (scl sch : Nat) :
    (chainInstall img pk lc hc scl sch)[peakSlot] = { coef := pk, byp := img[peakSlot].byp } := by
  rw [chainInstall, cascadeInstall_other _ _ _ (by decide), cascadeInstall_other _ _ _ (by decide)]
  exact Vector.getElem_set_self _

/-- Installing the same sets a second time changes nothing (R78, R100). -/
theorem chainInstall_idem (img : Image) (pk : Coef) (lc hc : List Coef) (scl sch : Nat) :
    chainInstall (chainInstall img pk lc hc scl sch) pk lc hc scl sch = chainInstall img pk lc hc scl sch := by
  have hpeak : (chainInstall img pk lc hc scl sch).set peakSlot
      { coef := pk, byp := (chainInstall img pk lc hc scl sch)[peakSlot].byp } = chainInstall img pk lc hc scl sch := by
    rw [chainInstall_peak, ← chainInstall_peak img pk lc hc scl sch]
    exact Vector.set_getElem_self _
  conv_lhs => rw [chainInstall, hpeak]
  simp only [chainInstall]
  rw [← cascadeInstall_comm (cascadeInstall _ .lc lc scl), cascadeInstall_idem, cascadeInstall_idem]

end Sys2Proof.Machine

open Sys2Proof Sys2Proof.Machine

/-- Settles O28: neither computation depends on the image, and installing their sets again changes nothing
(`chainInstall_idem`). -/
theorem configureTwiceGivesSameImage : Obligations.ConfigureTwiceGivesSameImage := by
  unfold Obligations.ConfigureTwiceGivesSameImage
  intro T img out ps fs h
  obtain ⟨pk, lc, hc, hpk, hlc, hhc, rfl⟩ := chainConfigure_ok.mp h
  exact chainConfigure_ok.mpr ⟨pk, lc, hc, hpk, hlc, hhc, (chainInstall_idem ..).symm⟩

end

section
/-! The cut sections as one formula, in binary64 and in real arithmetic (R66, R72, R75, R76). -/

namespace Sys2Proof.Machine

theorem natToDouble_one : natToDouble 1 = dOne := by decide +kernel

theorem natToDouble_two : natToDouble 2 = dTwo := by decide +kernel

theorem sectionQ_eq_arith (T : Transc) (order k : ℕ) : sectionQ T order k = (Arith.binary64 T).sectionQ order k := by
  simp only [Arith.sectionQ, Arith.binary64, natToDouble_one, natToDouble_two]
  rfl

/-- The calculator's section is the formula in binary64. -/
theorem cutRaw_eq_arith (T : Transc) (kd : Kind) (fc fs : Word) (order k : ℕ) :
    ((cutRaw T kd fc fs order k).b0, (cutRaw T kd fc fs order k).b1, (cutRaw T kd fc fs order k).b2,
        (cutRaw T kd fc fs order k).a1, (cutRaw T kd fc fs order k).a2) =
      (Arith.binary64 T).cutSection kd (to64 fc) (to64 fs) order k := by
  have h1 : (Arith.binary64 T).nat 1 = dOne := natToDouble_one
  have h2 : (Arith.binary64 T).nat 2 = dTwo := natToDouble_two
  simp only [cutRaw, Arith.cutSection, sectionQ_eq_arith, h1, h2]
  cases kd <;> rfl

theorem realQ_eq_arith (order k : ℕ) : realQ order k = Arith.real.sectionQ order k := by
  simp only [realQ, Arith.sectionQ, Arith.real]
  push_cast
  rfl

/-- A section of a cut in real arithmetic: high-pass by R75, low-pass by R76. -/
noncomputable def realSection (kd : Kind) (fc fs : ℝ) (order k : ℕ) : RealCoef :=
  match kd with
  | .hp => realHp (realQ order k) (Real.tan (Real.pi * fc / fs))
  | .lp => realLp (realQ order k) (1 / Real.tan (Real.pi * fc / fs))

theorem realBank_eq_map (kd : Kind) (fc fs : ℝ) (order : ℕ) :
    realBank kd fc fs order = (List.range (order / 2)).map (realSection kd fc fs order) := by
  cases kd <;> rfl

theorem realBank_getD {order k : ℕ} (hk : k < order / 2) (kd : Kind) (fc fs : ℝ) (d : RealCoef) :
    (realBank kd fc fs order).getD k d = realSection kd fc fs order k := by
  simp [realBank_eq_map, List.getD_eq_getElem?_getD, hk]

/-- The helpers' section is the formula in real arithmetic. -/
theorem realSection_eq_arith (kd : Kind) (fc fs : ℝ) (order k : ℕ) :
    ((realSection kd fc fs order k).b0, (realSection kd fc fs order k).b1, (realSection kd fc fs order k).b2,
        (realSection kd fc fs order k).a1, (realSection kd fc fs order k).a2) =
      Arith.real.cutSection kd fc fs order k := by
  have h1 : Arith.real.nat 1 = 1 := Nat.cast_one
  have h2 : Arith.real.nat 2 = 2 := Nat.cast_ofNat
  simp only [Arith.cutSection, ← realQ_eq_arith, h1, h2]
  cases kd <;> rfl

end Sys2Proof.Machine
end

section
/-! The magnitude of a Butterworth section at its cutoff: with `z⁻¹ = exp(-2jθ)` and `t = tan θ` the bilinear quotient
`(1 - z⁻¹) / (1 + z⁻¹)` is `j t`, so that the section's response is `±j Q` (R81, R82). -/

namespace Sys2Proof.Machine

/-- The bilinear quotient at `z⁻¹ = exp(-2jθ)`, without the division. -/
theorem one_sub_and_add_exp (θ : ℝ) :
    1 - Complex.exp (-(Complex.I * (2 * θ : ℝ))) =
        2 * Real.sin θ * (Real.sin θ + Real.cos θ * Complex.I) ∧
      1 + Complex.exp (-(Complex.I * (2 * θ : ℝ))) =
        2 * Real.cos θ * (Real.cos θ - Real.sin θ * Complex.I) := by
  have hexp : Complex.exp (-(Complex.I * (2 * θ : ℝ))) =
      2 * Real.cos θ ^ 2 - 1 - 2 * Real.sin θ * Real.cos θ * Complex.I := by
    rw [← mul_neg, mul_comm, ← Complex.ofReal_neg, Complex.exp_mul_I, ← Complex.ofReal_cos, ← Complex.ofReal_sin,
      Real.cos_neg, Real.sin_neg, Real.cos_two_mul, Real.sin_two_mul]
    push_cast
    ring
  have hsq : (Real.sin θ : ℂ) ^ 2 + (Real.cos θ : ℂ) ^ 2 = 1 := by exact_mod_cast Real.sin_sq_add_cos_sq θ
  rw [hexp]
  exact ⟨by linear_combination -2 * hsq, by ring⟩

theorem one_sub_exp_eq {θ : ℝ} (h : Real.cos θ ≠ 0) :
    1 - Complex.exp (-(Complex.I * (2 * θ : ℝ))) =
      Complex.I * Real.tan θ * (1 + Complex.exp (-(Complex.I * (2 * θ : ℝ)))) := by
  obtain ⟨hsub, hadd⟩ := one_sub_and_add_exp θ
  have hc : (Real.cos θ : ℂ) ≠ 0 := Complex.ofReal_ne_zero.mpr h
  rw [hsub, hadd, Real.tan_eq_sin_div_cos, Complex.ofReal_div]
  field_simp
  linear_combination Real.sin θ ^ 2 * Complex.I_sq

theorem one_add_exp_ne_zero {θ : ℝ} (h : Real.cos θ ≠ 0) :
    1 + Complex.exp (-(Complex.I * (2 * θ : ℝ))) ≠ 0 := by
  rw [(one_sub_and_add_exp θ).2]
  refine mul_ne_zero (mul_ne_zero two_ne_zero (Complex.ofReal_ne_zero.mpr h)) fun h0 => h ?_
  simpa only [Complex.sub_re, Complex.ofReal_re, Complex.mul_I_re, Complex.ofReal_im, neg_zero, sub_zero,
    Complex.zero_re] using congrArg Complex.re h0

section
variable {q t : ℝ} {zi : ℂ} (hq : 0 < q) (ht : 0 < t)

include hq ht

/-- The two kinds at one cutoff have the same denominator (R75, R76). -/
theorem realLp_eq : realLp q (1 / t) =
    { b0 := t ^ 2 * (realHp q t).b0, b1 := 2 * t ^ 2 * (realHp q t).b0, b2 := t ^ 2 * (realHp q t).b0,
      a1 := (realHp q t).a1, a2 := (realHp q t).a2 } := by
  have hd : 1 + 1 / q * t + t * t ≠ 0 := by positivity
  have hd' : 1 + 1 / q * (1 / t) + 1 / t * (1 / t) ≠ 0 := by positivity
  simp only [realLp, realHp, RealCoef.mk.injEq]
  refine ⟨?_, ?_, ?_, ?_, ?_⟩ <;> field_simp <;> ring

theorem realHp_denominator_ne_zero (hz1 : 1 + zi ≠ 0) :
    ((realHp q t).b0 : ℂ) * (Complex.I * t ^ 2 / q * (1 + zi) ^ 2) ≠ 0 := by
  have hb : (realHp q t).b0 ≠ 0 := one_div_ne_zero (by positivity)
  have hq0 : (q : ℂ) ≠ 0 := Complex.ofReal_ne_zero.mpr hq.ne'
  have ht0 : (t : ℂ) ≠ 0 := Complex.ofReal_ne_zero.mpr ht.ne'
  simp [hb, hq0, ht0, hz1]

variable (hz : 1 - zi = Complex.I * t * (1 + zi)) (hz1 : 1 + zi ≠ 0)
include hz

/-- The denominator at the cutoff: of its three parts two cancel. -/
theorem realHp_denominator :
    1 + ((realHp q t).a1 : ℂ) * zi + (realHp q t).a2 * zi ^ 2 =
      (realHp q t).b0 * (Complex.I * t ^ 2 / q * (1 + zi) ^ 2) := by
  have hb : ((realHp q t).b0 : ℂ) * (1 + 1 / q * t + t * t) = 1 := by
    exact_mod_cast one_div_mul_cancel (show 1 + 1 / q * t + t * t ≠ 0 by positivity)
  have h1 : (realHp q t).a1 = (realHp q t).b0 * 2 * (t * t - 1) := rfl
  have h2 : (realHp q t).a2 = (realHp q t).b0 * (1 - 1 / q * t + t * t) := rfl
  rw [h1, h2]
  push_cast
  linear_combination -hb + (realHp q t).b0 * (1 - zi + Complex.I * t * (1 + zi) + t / q * (1 + zi)) * hz +
    (realHp q t).b0 * t ^ 2 * (1 + zi) ^ 2 * Complex.I_sq

include hz1

/-- The high-pass section's response at the cutoff (R75, R81). -/
theorem transferAt_realHp : transferAt (realHp q t) zi = Complex.I * q := by
  have h0 := realHp_denominator_ne_zero hq ht hz1
  have hq0 : (q : ℂ) ≠ 0 := Complex.ofReal_ne_zero.mpr hq.ne'
  have h1 : (realHp q t).b1 = -2 * (realHp q t).b0 := rfl
  have h2 : (realHp q t).b2 = (realHp q t).b0 := rfl
  rw [transferAt, realHp_denominator hq ht hz, div_eq_iff h0, h1, h2]
  push_cast
  field_simp
  linear_combination (realHp q t).b0 * (1 - zi + Complex.I * t * (1 + zi)) * hz

/-- The low-pass section's response at the cutoff (R76, R81). -/
theorem transferAt_realLp : transferAt (realLp q (1 / t)) zi = -(Complex.I * q) := by
  have h0 := realHp_denominator_ne_zero hq ht hz1
  have hq0 : (q : ℂ) ≠ 0 := Complex.ofReal_ne_zero.mpr hq.ne'
  rw [transferAt, realLp_eq hq ht, realHp_denominator hq ht hz, div_eq_iff h0]
  push_cast
  field_simp
  linear_combination (realHp q t).b0 * t ^ 2 * (1 + zi) ^ 2 * Complex.I_sq

end

/-- The angle `π f / fs` of a cutoff below half the sample rate lies in the first quadrant. -/
theorem cutoff_angle {fc fs : ℝ} (h0 : 0 < fc) (h1 : fc < fs / 2) :
    0 < Real.pi * fc / fs ∧ Real.pi * fc / fs < Real.pi / 2 := by
  have hfs : 0 < fs := by linarith
  refine ⟨by positivity, ?_⟩
  rw [div_lt_div_iff₀ hfs two_pos]
  nlinarith [Real.pi_pos]

theorem realQ_pos {order k : ℕ} (hk : k < order / 2) : 0 < realQ order k := by
  have horder : 0 < (order : ℝ) := by exact_mod_cast show 0 < order by omega
  have hlt : ((2 * k + 1 : ℕ) : ℝ) < order := by exact_mod_cast show 2 * k + 1 < order by omega
  push_cast at hlt
  have hcos : 0 < Real.cos ((2 * k + 1) * Real.pi / (2 * order)) := by
    refine Real.cos_pos_of_mem_Ioo ⟨?_, ?_⟩
    · exact (neg_lt_zero.mpr (by positivity)).trans (by positivity)
    · rw [div_lt_div_iff₀ (by positivity) two_pos]
      nlinarith [Real.pi_pos]
  exact one_div_pos.mpr (by positivity)

/-- A section of either kind has magnitude `Q_k` at its cutoff (R82). -/
theorem magnitude_realSection (kd : Kind) {order k : ℕ} {fc fs : ℝ} (hk : k < order / 2) (h0 : 0 < fc)
    (h1 : fc < fs / 2) : magnitude (realSection kd fc fs order k) fc fs = realQ order k := by
  obtain ⟨hpos, hlt⟩ := cutoff_angle h0 h1
  have hq := realQ_pos hk
  have ht := Real.tan_pos_of_pos_of_lt_pi_div_two hpos hlt
  have hcos := (Real.cos_pos_of_mem_Ioo ⟨by linarith, hlt⟩).ne'
  have hz := one_sub_exp_eq hcos
  have hz1 := one_add_exp_ne_zero hcos
  rw [magnitude, show 2 * Real.pi * fc / fs = 2 * (Real.pi * fc / fs) by ring]
  cases kd
  case hp =>
    rw [realSection, transferAt_realHp hq ht hz hz1]
    simp [abs_of_pos hq]
  case lp =>
    rw [realSection, transferAt_realLp hq ht hz hz1]
    simp [abs_of_pos hq]

end Sys2Proof.Machine
end

section
/-! The magnitude of a cut at its cutoff: the quality factors of a Butterworth cascade multiply to 1/√2 (R72, R82). -/

namespace Sys2Proof.Machine

/-- Sections with complementary angles in pairs. -/
theorem two_cos_mul_two_cos {x y : ℝ} (h : x + y = Real.pi / 2) :
    2 * Real.cos x * (2 * Real.cos y) = 2 * Real.sin (2 * x) := by
  rw [show y = Real.pi / 2 - x by linarith, Real.cos_pi_div_two_sub, Real.sin_two_mul]
  ring

/-- The reciprocal of `Q_k`. -/
noncomputable def realDamping (order k : ℕ) : ℝ := 2 * Real.cos ((2 * k + 1) * Real.pi / (2 * order))

/-- Sections at equal distance from the two ends of the cascade. -/
theorem realDamping_mul {order j k : ℕ} {θ : ℝ} (h : 2 * (j + k + 1) = order)
    (hθ : (2 * j + 1) * Real.pi / order = θ) : realDamping order j * realDamping order k = 2 * Real.sin θ := by
  subst h hθ
  rw [realDamping, realDamping, two_cos_mul_two_cos]
  · congr 2; push_cast; field_simp
  · push_cast; field_simp; ring

/-- The middle section of an odd number of sections. -/
theorem realDamping_middle {order k : ℕ} (h : 2 * (2 * k + 1) = order) : realDamping order k = Real.sqrt 2 := by
  have hangle : (2 * k + 1) * Real.pi / (2 * order) = Real.pi / 4 := by
    subst h; push_cast; field_simp; norm_num
  rw [realDamping, hangle, Real.cos_pi_div_four]
  ring

/-- Over the sections of each order the reciprocals multiply to √2. -/
theorem prod_realDamping {order : ℕ} (h : order ∈ [2, 4, 6, 8]) :
    ((List.range (order / 2)).map (realDamping order)).prod = Real.sqrt 2 := by
  simp only [List.mem_cons, List.not_mem_nil, or_false] at h
  rcases h with rfl | rfl | rfl | rfl <;>
    simp only [Nat.reduceDiv, List.range_succ, List.range_zero, List.nil_append, List.cons_append, List.map_cons,
      List.map_nil, List.prod_cons, List.prod_nil, mul_one]
  case inl => exact realDamping_middle rfl
  case inr.inl =>
    rw [realDamping_mul (j := 0) (k := 1) (θ := Real.pi / 4) rfl (by norm_num), Real.sin_pi_div_four]
    ring
  case inr.inr.inl =>
    have h02 : realDamping 6 0 * realDamping 6 2 = 1 := by
      rw [realDamping_mul (j := 0) (k := 2) (θ := Real.pi / 6) rfl (by norm_num), Real.sin_pi_div_six]
      norm_num
    rw [realDamping_middle (k := 1) rfl, mul_left_comm, h02, mul_one]
  case inr.inr.inr =>
    have h03 : realDamping 8 0 * realDamping 8 3 = 2 * Real.sin (Real.pi / 8) :=
      realDamping_mul rfl (by norm_num)
    have h12 : realDamping 8 1 * realDamping 8 2 = 2 * Real.sin (Real.pi / 2 - Real.pi / 8) :=
      realDamping_mul rfl (by push_cast; ring)
    calc realDamping 8 0 * (realDamping 8 1 * (realDamping 8 2 * realDamping 8 3))
        = realDamping 8 0 * realDamping 8 3 * (realDamping 8 1 * realDamping 8 2) := by ring
      _ = 2 * (2 * Real.sin (Real.pi / 8) * Real.cos (Real.pi / 8)) := by
        rw [h03, h12, Real.sin_pi_div_two_sub]
        ring
      _ = Real.sqrt 2 := by
        rw [← Real.sin_two_mul, show 2 * (Real.pi / 8) = Real.pi / 4 by ring, Real.sin_pi_div_four]
        ring

/-- The quality factors of a cascade (R72). -/
theorem prod_realQ {order : ℕ} (h : order ∈ [2, 4, 6, 8]) :
    ((List.range (order / 2)).map (realQ order)).prod = 1 / Real.sqrt 2 := by
  have hinv : realQ order = Inv.inv ∘ realDamping order := funext fun _ => one_div _
  rw [hinv, ← List.map_map, ← List.prod_inv, prod_realDamping h, one_div]

theorem cascadeMagnitude_realBank (kd : Kind) {order : ℕ} {fc fs : ℝ} (h : order ∈ [2, 4, 6, 8]) (h0 : 0 < fc)
    (h1 : fc < fs / 2) : cascadeMagnitude (realBank kd fc fs order) fc fs = 1 / Real.sqrt 2 := by
  have hsections : ∀ k ∈ List.range (order / 2), magnitude (realSection kd fc fs order k) fc fs = realQ order k :=
    fun k hk => magnitude_realSection kd (List.mem_range.mp hk) h0 h1
  rw [cascadeMagnitude, realBank_eq_map, List.map_map, ← prod_realQ h]
  exact congrArg List.prod (List.map_congr_left hsections)

end Sys2Proof.Machine

open Sys2Proof Sys2Proof.Machine

/-- Settles O60: both section formulas are `Arith.cutSection`, each section by its response at the cutoff, ±jQ, and the
cascade by the product of the quality factors. -/
theorem butterworthCutoffMagnitude : Obligations.ButterworthCutoffMagnitude := by
  unfold Obligations.ButterworthCutoffMagnitude
  refine ⟨cutRaw_eq_arith, fun kd order k fc fs hk => ?real,
    fun kd order fc fs h h0 h1 => ⟨fun k hk => ?sec, cascadeMagnitude_realBank kd h h0 h1⟩⟩
  case real =>
    rw [realBank_getD hk]
    exact realSection_eq_arith kd fc fs order k
  case sec => rw [realBank_getD hk, magnitude_realSection kd hk h0 h1]

end

section
/-! NaNs through the recursion: a NaN among the five products of R83 reaches the sum, and the output is then `QNAN32`
(R84, R88). -/

namespace Sys2Proof.Machine

variable {x y : Word} {c : Coef} {h : Hist}

/-! A NaN operand of one operation -/

theorem isNaN32_fadd (hn : isNaN32 x = true ∨ isNaN32 y = true) : isNaN32 (fadd x y) = true := by
  rw [fadd, binary32.add_nan hn]
  decide

theorem isNaN32_fsub (hn : isNaN32 x = true ∨ isNaN32 y = true) : isNaN32 (fsub x y) = true := by
  rw [fsub, binary32.sub_nan hn]
  decide

theorem isNaN32_fmul (hn : isNaN32 x = true ∨ isNaN32 y = true) : isNaN32 (fmul x y) = true := by
  rw [fmul, binary32.mul_nan hn]
  decide

/-! The canonical NaN -/

theorem canonical_nan (hn : isNaN32 x = true) : canonical x = qnan32 := if_pos hn

theorem canonical_of_not_nan (hn : ¬ isNaN32 x = true) : canonical x = x := if_neg hn

/-- The only NaN that is canonical is `QNAN32` (R84). -/
theorem canonical_eq_qnan32 (hn : isNaN32 (canonical x) = true) : canonical x = qnan32 := by
  by_cases hx : isNaN32 x = true
  · exact canonical_nan hx
  · rw [canonical_of_not_nan hx] at hn
    exact absurd hn hx

/-! One stage -/

theorem stageStep_fst (c : Coef) (h : Hist) (x : Word) :
    (stageStep c h x).1 = canonical (stageSum c h x) := by simp only [stageStep]

theorem stageStep_snd (c : Coef) (h : Hist) (x : Word) :
    (stageStep c h x).2 = { x1 := x, x2 := h.x1, y1 := (stageStep c h x).1, y2 := h.y1 } := by
  simp only [stageStep]

/-- A NaN among the five products stays one in the sums and differences that follow it. -/
theorem isNaN32_stageSum (hn : isNaN32 (fmul c.b0 x) = true ∨ isNaN32 (fmul c.b1 h.x1) = true ∨
    isNaN32 (fmul c.b2 h.x2) = true ∨ isNaN32 (fmul c.a1 h.y1) = true ∨ isNaN32 (fmul c.a2 h.y2) = true) :
    isNaN32 (stageSum c h x) = true := by
  simp only [← or_assoc] at hn
  exact isNaN32_fsub (hn.imp_left fun h3 => isNaN32_fsub (h3.imp_left fun h2 =>
    isNaN32_fadd (h2.imp_left isNaN32_fadd)))

/-- A NaN input or a NaN in the history gives the output `QNAN32`, whatever the coefficients (R84, R88). -/
theorem stageStep_nan (hn : isNaN32 x = true ∨ isNaN32 h.x1 = true ∨ isNaN32 h.x2 = true ∨ isNaN32 h.y1 = true ∨
    isNaN32 h.y2 = true) : (stageStep c h x).1 = qnan32 := by
  have product (b : Word) {w : Word} (hw : isNaN32 w = true) : isNaN32 (fmul b w) = true := isNaN32_fmul (.inr hw)
  rw [stageStep_fst]
  exact canonical_nan (isNaN32_stageSum (hn.imp (product _) (.imp (product _) (.imp (product _)
    (.imp (product _) (product _))))))

/-! A sequence of samples through an active stage -/

theorem stageOut_active (c : Coef) (h : Hist) (x : Word) :
    stageOut { coef := c, byp := false } h x = stageStep c h x := by
  simp only [stageOut, Bool.false_eq_true, if_false]

theorem stageOut_bypassed (c : Coef) (h : Hist) (x : Word) :
    stageOut { coef := c, byp := true } h x = (x, (stageStep c h x).2) := by
  simp only [stageOut, if_true]

theorem stageRun_cons_fst (e : Entry) (h : Hist) (x : Word) (xs : List Word) :
    (stageRun e h (x :: xs)).1 = (stageOut e h x).1 :: (stageRun e (stageOut e h x).2 xs).1 := rfl

end Sys2Proof.Machine

open Sys2Proof Sys2Proof.Machine

/-- Settles O34: `stageStep` is the equation of R83 word for word. -/
theorem stageStepIsDirectFormI : Obligations.StageStepIsDirectFormI := by
  unfold Obligations.StageStepIsDirectFormI
  intros
  rfl

/-- Settles O35. -/
theorem bypassedStageTracks : Obligations.BypassedStageTracks := by
  unfold Obligations.BypassedStageTracks
  exact fun c h x => ⟨stageOut_active c h x, stageOut_bypassed c h x⟩

/-- Settles O36. -/
theorem arithmeticNaNIsCanonical : Obligations.ArithmeticNaNIsCanonical := by
  unfold Obligations.ArithmeticNaNIsCanonical
  intro c h x
  have hx1 : (stageStep c h x).2.x1 = x := by rw [stageStep_snd]
  have hy1 : (stageStep c h x).2.y1 = (stageStep c h x).1 := by rw [stageStep_snd]
  have hout : isNaN32 (stageStep c h x).1 = true → (stageStep c h x).1 = qnan32 := by
    rw [stageStep_fst]
    exact canonical_eq_qnan32
  exact ⟨hx1, hy1, hout, fun hx => stageStep_nan (.inl hx), by rw [stageOut_bypassed]⟩

/-- Settles O37, by induction on the samples: a NaN in the history makes the output `QNAN32`, and that output is `y1` of
the next history. -/
theorem naNHistoryPoisonsLaterOutputs : Obligations.NaNHistoryPoisonsLaterOutputs := by
  unfold Obligations.NaNHistoryPoisonsLaterOutputs
  intro c h xs hn
  induction xs generalizing h with
  | nil => exact fun y hy => absurd hy List.not_mem_nil
  | cons x xs ih =>
    have hout : (stageStep c h x).1 = qnan32 := stageStep_nan (.inr hn)
    have hnext : isNaN32 (stageStep c h x).2.y1 = true := by
      simp only [stageStep_snd, hout]
      decide
    rw [stageRun_cons_fst, stageOut_active, List.forall_mem_cons]
    exact ⟨hout, ih _ (.inr (.inr (.inl hnext)))⟩

end

section
/-! The reset set (R28, R87): its products are the sample itself and zeros, and a zero added to or taken from a finite
word other than -0.0 changes nothing; its product of zero and an infinity is a NaN. -/

namespace Sys2Proof.Machine

section Encodings

variable {f : Format} {x y : Nat}

theorem Format.finite_of_mag_zero (hf : f.WellFormed) (h : f.mag x = 0) : f.finite x = true := by
  rw [f.finite_iff, h]
  exact f.infMag_pos hf

theorem natAbs_signedUnits (s : Bool) (u : Nat) : (signedUnits s u).natAbs = u := by cases s <;> simp [signedUnits]

theorem signedUnits_eq_zero {s : Bool} {u : Nat} : signedUnits s u = 0 ↔ u = 0 := by cases s <;> simp [signedUnits]

theorem signedUnits_neg_iff {s : Bool} {u : Nat} (hu : 0 < u) : signedUnits s u < 0 ↔ s = true := by
  cases s <;> simp [signedUnits, hu]

/-- Adding a zero of either sign to a finite encoding other than -0 changes nothing. -/
theorem Format.add_zero_right (hf : f.WellFormed) (hxl : x < 2 * f.signBit) (hx : f.finite x = true)
    (hx0 : x ≠ f.signBit) (hy0 : f.mag y = 0) : f.add x y = x := by
  have hpack := f.pack_sign_mag hxl
  have hsum : f.sumUnits x y = signedUnits (f.sign x) (f.unitsOf (f.mag x)) := by
    rw [Format.sumUnits, hy0, f.unitsOf_eq_zero.mpr rfl]
    simp [signedUnits]
  rw [f.add_of_finite hx (f.finite_of_mag_zero hf hy0), hsum]
  simp only [signedUnits_eq_zero, f.unitsOf_eq_zero, natAbs_signedUnits]
  split
  case isTrue hm =>
    have hs : f.sign x = false := by simpa [f.eq_signBit_iff hf hxl, hm] using hx0
    rw [hs, Bool.false_and, ← hs, ← hm, hpack]
  case isFalse hm =>
    have hu : 0 < f.unitsOf (f.mag x) := Nat.pos_of_ne_zero (f.unitsOf_eq_zero.not.mpr hm)
    simp only [signedUnits_neg_iff hu, Bool.decide_eq_true, f.roundMag_unitsOf (f.finite_iff.mp hx), hpack]

/-- Taking a zero of either sign from a finite encoding other than -0 changes nothing. -/
theorem Format.sub_zero_right (hf : f.WellFormed) (hxl : x < 2 * f.signBit) (hx : f.finite x = true)
    (hx0 : x ≠ f.signBit) (hy0 : f.mag y = 0) : f.sub x y = x :=
  f.add_zero_right hf hxl hx hx0 (by rwa [f.mag_negate])

theorem Format.mag_mul_zero_left (hf : f.WellFormed) (hx0 : f.mag x = 0) (hy : f.finite y = true) :
    f.mag (f.mul x y) = 0 := by
  have hround : f.roundMag 0 f.scale = 0 := by simp [Format.roundMag]
  rw [f.mul_of_finite (f.finite_of_mag_zero hf hx0) hy, hx0, f.unitsOf_eq_zero.mpr rfl, Nat.zero_mul, hround,
    f.mag_pack ((f.infMag_pos hf).trans (f.infMag_lt_signBit hf))]

theorem Format.unpack_of_not_finite (hx : f.finite x = false) : f.unpack x = .nan ∨ ∃ n, f.unpack x = .inf n := by
  simp only [Format.finite, decide_eq_false_iff_not] at hx
  by_cases h : x % f.signBit = f.infMag <;> simp [Format.unpack, hx, h]

/-- Zero times a NaN or an infinity is a NaN. -/
theorem Format.mul_zero_left_of_not_finite (hf : f.WellFormed) (hx0 : f.mag x = 0) (hy : f.finite y = false) :
    f.mul x y = f.qnan := by
  have hx := f.finite_of_mag_zero hf hx0
  rcases f.unpack_of_not_finite hy with h | ⟨n, h⟩
  · simp only [Format.mul, f.unpack_of_finite hx, h]
  · simp only [Format.mul, f.unpack_of_finite hx, h, hx0, f.unitsOf_eq_zero.mpr, if_true]

/-- One times a finite encoding is that encoding. -/
theorem Format.mul_one_left (hf : f.WellFormed) (hxl : x < 2 * f.signBit) (hx : f.finite x = true) {one : Nat}
    (h1 : f.unpack one = .fin false f.scale) : f.mul one x = x := by
  have hround := f.roundMag_mul (f.unitsOf (f.mag x)) 1 f.scale hf.scale_pos
  rw [one_mul, f.roundMag_unitsOf (f.finite_iff.mp hx), mul_comm] at hround
  simp only [Format.mul, h1, f.unpack_of_finite hx, hround, Bool.false_xor, f.pack_sign_mag hxl]

end Encodings

section Words

variable {x y v : Word}

theorem toNat_ne_signBit (hx : x ≠ 0x80000000#32) : x.toNat ≠ binary32.signBit :=
  fun h => hx (BitVec.eq_of_toNat_eq h)

theorem fadd_zero_right (hx : finite32 x = true) (hx0 : x ≠ 0x80000000#32) (hy0 : binary32.mag y.toNat = 0) :
    fadd x y = x := by
  rw [fadd, binary32.add_zero_right binary32_wellFormed (toNat_lt32 x) hx (toNat_ne_signBit hx0) hy0,
    BitVec.ofNat_toNat, BitVec.setWidth_eq]

theorem fsub_zero_right (hx : finite32 x = true) (hx0 : x ≠ 0x80000000#32) (hy0 : binary32.mag y.toNat = 0) :
    fsub x y = x := by
  rw [fsub, binary32.sub_zero_right binary32_wellFormed (toNat_lt32 x) hx (toNat_ne_signBit hx0) hy0,
    BitVec.ofNat_toNat, BitVec.setWidth_eq]

theorem fmul_one_left (hx : finite32 x = true) : fmul 0x3F800000#32 x = x := by
  have h1 : binary32.unpack (0x3F800000#32).toNat = .fin false binary32.scale := by decide +kernel
  rw [fmul, binary32.mul_one_left binary32_wellFormed (toNat_lt32 x) hx h1, BitVec.ofNat_toNat, BitVec.setWidth_eq]

theorem mag_fmul_zero_left (hv : finite32 v = true) : binary32.mag (fmul 0 v).toNat = 0 := by
  have hz : binary32.mag (0 : Word).toNat = 0 := by decide
  have hlt := (binary32.mul_isRounding binary32_wellFormed (binary32.finite_of_mag_zero binary32_wellFormed hz) hv).1
  rw [fmul, binary32.toNat_ofNat (by decide) hlt, binary32.mag_mul_zero_left binary32_wellFormed hz hv]

theorem isNaN32_fmul_zero_left (hv : finite32 v = false) : isNaN32 (fmul 0 v) = true := by
  rw [fmul, binary32.mul_zero_left_of_not_finite binary32_wellFormed (by decide) hv]
  decide

theorem canonical_of_finite32 (hx : finite32 x = true) : canonical x = x :=
  canonical_of_not_nan fun hn => by simp [not_finite32_of_isNaN32 hn] at hx

/-- The sum of the reset set on a finite history is the sample. -/
theorem stageSum_identityCoef {h : Hist} (hx : finite32 x = true) (hx0 : x ≠ 0x80000000#32)
    (h1 : finite32 h.x1 = true) (h2 : finite32 h.x2 = true) (h3 : finite32 h.y1 = true) (h4 : finite32 h.y2 = true) :
    stageSum identityCoef h x = x := by
  simp only [stageSum, identityCoef, fmul_one_left hx, fadd_zero_right hx hx0 (mag_fmul_zero_left h1),
    fadd_zero_right hx hx0 (mag_fmul_zero_left h2), fsub_zero_right hx hx0 (mag_fmul_zero_left h3),
    fsub_zero_right hx hx0 (mag_fmul_zero_left h4)]

end Words

end Sys2Proof.Machine

open Sys2Proof Sys2Proof.Machine

/-- Settles O38: on a finite history every term but the sample is a zero, and a non-finite word makes its product with
the set's zero a NaN. -/
theorem identitySetPassesFiniteSamples : Obligations.IdentitySetPassesFiniteSamples := by
  unfold Obligations.IdentitySetPassesFiniteSamples
  refine fun h x => ⟨fun hx hx0 ⟨h1, h2, h3, h4⟩ => ?finite, fun hh => ?nonfinite⟩
  case finite =>
    rw [stageStep_fst, ← identityCoef, stageSum_identityCoef hx hx0 h1 h2 h3 h4, canonical_of_finite32 hx]
  case nonfinite =>
    have zero {v : Word} := isNaN32_fmul_zero_left (v := v)
    rw [stageStep_fst]
    exact canonical_nan (isNaN32_stageSum (.inr (hh.imp zero (.imp zero (.imp zero zero)))))

end

section
/-! The stage commands: each, where its checks pass, as the reply it gives (R89 to R92). -/

namespace Sys2Proof.Machine

variable {s : State}

theorem checkPort_of_allows {op : Op} (h : op.allows s.port = true) : checkPort op s = .ok () := checkPort_ok.mpr h

theorem checkPrepared_of_prepared (h : s.prepared = true) : checkPrepared s = .ok () := checkPrepared_ok.mpr h

theorem slotArg_slot (k : Slot) : slotArg (BitVec.ofNat 4 k.val) = .ok k := slotArg_ok.mpr rfl

theorem channelArg_channelField (ch : Channel) : channelArg (channelField ch) = .ok ch := by cases ch <;> rfl

theorem replyOf_stageSetCoeffs (T : Transc) (k : Slot) {c : Coef} (hp : s.port = .ctrl) (hc : coefFinite c = true) :
    replyOf T s (.stageSetCoeffs (BitVec.ofNat 4 k.val) c) =
      .ok ⟨s.publish (s.pub.set k { coef := c, byp := s.pub[k].byp }), .ok, []⟩ := by
  have hport : checkPort .stageSetCoeffs s = .ok () := checkPort_of_allows (by rw [hp]; rfl)
  have hcoef : coefArg c = .ok c := coefArg_ok.mpr ⟨rfl, hc⟩
  simp only [replyOf, replyStageSetCoeffs, hport, slotArg_slot, hcoef, ok_bind, done]

theorem replyOf_stageSetBypass (T : Transc) (k : Slot) (b : Bool) (hp : s.port = .ctrl) :
    replyOf T s (.stageSetBypass (BitVec.ofNat 4 k.val) (if b then 1#4 else 0#4)) =
      .ok ⟨s.publish (s.pub.set k { coef := s.pub[k].coef, byp := b }), .ok, []⟩ := by
  have hport : checkPort .stageSetBypass s = .ok () := checkPort_of_allows (by rw [hp]; rfl)
  have hbyp : bypassArg (if b then 1#4 else 0#4) = .ok b := bypassArg_ok.mpr rfl
  simp only [replyOf, replyStageSetBypass, hport, slotArg_slot, hbyp, ok_bind, done]

theorem replyOf_stageProcess (T : Transc) (k : Slot) (ch : Channel) (x : Word) (hp : s.port = .audio)
    (hr : s.prepared = true) :
    replyOf T s (.stageProcess (BitVec.ofNat 4 k.val) (channelField ch) x) =
      .ok ⟨s.latch.setHist ch ((s.histOf ch).set k (stageOut s.pub[k] (s.histOf ch)[k] x).2), .ok,
        [(stageOut s.pub[k] (s.histOf ch)[k] x).1]⟩ := by
  have hport : checkPort .stageProcess s = .ok () := checkPort_of_allows (by rw [hp]; rfl)
  simp only [replyOf, replyStageProcess, hport, slotArg_slot, channelArg_channelField, checkPrepared_of_prepared hr,
    ok_bind, done, State.latch_act]

theorem replyOf_stageReset (T : Transc) (k : Slot) {cm : Nibble} {m : Bool × Bool} (hp : s.port = .audio)
    (hm : maskArg cm = .ok m) :
    replyOf T s (.stageReset (BitVec.ofNat 4 k.val) cm) = .ok ⟨s.clearSlot k m, .ok, []⟩ := by
  have hport : checkPort .stageReset s = .ok () := checkPort_of_allows (by rw [hp]; rfl)
  simp only [replyOf, replyStageReset, hport, slotArg_slot, hm, ok_bind, done]

/-- `STAGE_RESET` with a legal mask clears the slot on the mask's channels (R92). -/
theorem exec_stageReset (k : Slot) {cm : Nibble} {m : Bool × Bool} (hp : s.port = .audio) (hm : maskArg cm = .ok m) :
    exec (.stageReset (BitVec.ofNat 4 k.val) cm) s = .next ((s.clearSlot k m).respond [0x00002300#32]) := by
  rw [exec_of_ok (replyOf_stageReset _ k hp hm), statusWord_ok]
  rfl

end Sys2Proof.Machine

open Sys2Proof Sys2Proof.Machine

/-- Settles O30. -/
theorem stageSetCoeffsCompletes : Obligations.StageSetCoeffsCompletes := by
  unfold Obligations.StageSetCoeffsCompletes
  intro s k c hp hc
  rw [exec_of_ok (replyOf_stageSetCoeffs _ k hp hc), statusWord_ok]
  rfl

/-- Settles O31. -/
theorem stageSetBypassCompletes : Obligations.StageSetBypassCompletes := by
  unfold Obligations.StageSetBypassCompletes
  intro s k b hp
  rw [exec_of_ok (replyOf_stageSetBypass _ k b hp), statusWord_ok]
  rfl

/-- Settles O32. -/
theorem stageProcessCompletes : Obligations.StageProcessCompletes := by
  unfold Obligations.StageProcessCompletes
  intro s k ch x hp hr
  rw [exec_of_ok (replyOf_stageProcess _ k ch x hp hr), statusWord_ok]
  rfl

/-- Settles O33: the three legal masks are left, right and both. -/
theorem stageResetCompletes : Obligations.StageResetCompletes := by
  unfold Obligations.StageResetCompletes
  exact fun s k hp => ⟨exec_stageReset k (m := (true, false)) hp rfl, exec_stageReset k (m := (false, true)) hp rfl,
    exec_stageReset k (m := (true, true)) hp rfl⟩

end

section
/-! The cascade commands: the bank of a slope, the four slots a sample passes, and each command, where its checks pass, as
the reply it gives (R93 to R98). -/

namespace Sys2Proof.Machine

/-! The bank of a slope -/

/-- A slope code's order has as many sections as the cascade has active stages (R71, R93). -/
theorem orderOfSlope_div_two (sc : Nat) : orderOfSlope sc / 2 = activeCount sc :=
  Nat.mul_div_cancel_left _ two_pos

theorem lt_activeCount {sc i : Fin 4} : i.val < activeCount sc.val ↔ i ≤ sc := Nat.lt_succ_iff

/-- The bank a slope reads holds the operand sets of its active stages, index by index (R94, R97). -/
theorem bank_getD (k0 k1 k2 k3 : Coef) {sc i : Fin 4} (hi : i ≤ sc) (d : Coef) :
    ([k0, k1, k2, k3].take (activeCount sc.val)).getD i.val d = #v[k0, k1, k2, k3][i] := by
  rw [List.getD_eq_getElem?_getD, List.getElem?_take_of_lt (lt_activeCount.mpr hi), List.getElem?_eq_getElem i.isLt,
    Option.getD_some]
  rfl

/-- `CASCADE_CONFIGURE` reads its bank when the sets of the active stages are finite, whatever the others are (R97). -/
theorem bankArg_of_finite {k0 k1 k2 k3 : Coef} {sc : Fin 4}
    (h : ∀ i : Fin 4, i ≤ sc → coefFinite #v[k0, k1, k2, k3][i] = true) :
    bankArg k0 k1 k2 k3 sc.val = .ok ([k0, k1, k2, k3].take (activeCount sc.val)) := by
  refine bankArg_ok.mpr ⟨rfl, List.all_eq_true.mpr fun c hc => ?_⟩
  obtain ⟨n, hn, rfl⟩ := List.mem_take_iff_getElem.mp hc
  obtain ⟨hactive, hoperand⟩ := lt_min_iff.mp hn
  exact h ⟨n, hoperand⟩ (lt_activeCount.mp hactive)

/-! Four slots in a row -/

theorem cascadeSlots_nodup (c : Cascade) : (cascadeSlots c).Nodup := by cases c <;> decide

/-- Four different slots: each step starts from the history its slot had before the run (R95). -/
theorem runSlots_four {k0 k1 k2 k3 : Slot} (hk : [k0, k1, k2, k3].Nodup) (img : Image) (h : ChanHist) (x : Word) :
    let r0 := stageOut img[k0] h[k0] x
    let r1 := stageOut img[k1] h[k1] r0.1
    let r2 := stageOut img[k2] h[k2] r1.1
    let r3 := stageOut img[k3] h[k3] r2.1
    runSlots img [k0, k1, k2, k3] h x = (r3.1, (((h.set k0 r0.2).set k1 r1.2).set k2 r2.2).set k3 r3.2) := by
  simp only [List.nodup_cons, List.mem_cons, List.not_mem_nil, or_false, not_or, not_false_eq_true, List.nodup_nil,
    and_true, Fin.ext_iff] at hk
  obtain ⟨⟨h01, h02, h03⟩, ⟨h12, h13⟩, h23⟩ := hk
  simp [runSlots, Vector.getElem_set_ne, h01, h02, h03, h12, h13, h23]

/-! The two commands -/

variable {s : State}

theorem cascadeArg_cascadeField (c : Cascade) : cascadeArg (cascadeField c) = .ok c := by cases c <;> rfl

theorem slopeArg_slope (sc : Fin 4) : slopeArg (BitVec.ofNat 4 sc.val) = .ok sc.val := by
  revert sc; decide

theorem replyOf_cascadeConfigure (T : Transc) (c : Cascade) (sc : Fin 4) {k0 k1 k2 k3 : Coef} {bank : List Coef}
    (hp : s.port = .ctrl) (hb : bankArg k0 k1 k2 k3 sc.val = .ok bank) :
    replyOf T s (.cascadeConfigure (cascadeField c) (BitVec.ofNat 4 sc.val) k0 k1 k2 k3) =
      .ok ⟨s.publish (cascadeInstall s.pub c bank sc.val), .ok, []⟩ := by
  have hport : checkPort .cascadeConfigure s = .ok () := checkPort_of_allows (by rw [hp]; rfl)
  simp only [replyOf, replyCascadeConfigure, hport, cascadeArg_cascadeField, slopeArg_slope, hb, ok_bind, done]

theorem replyOf_cascadeProcess (T : Transc) (c : Cascade) (ch : Channel) (x : Word) (hp : s.port = .audio)
    (hr : s.prepared = true) :
    replyOf T s (.cascadeProcess (cascadeField c) (channelField ch) x) =
      .ok ⟨s.latch.setHist ch (cascadeRun s.pub c (s.histOf ch) x).2, .ok, [(cascadeRun s.pub c (s.histOf ch) x).1]⟩ := by
  have hport : checkPort .cascadeProcess s = .ok () := checkPort_of_allows (by rw [hp]; rfl)
  simp only [replyOf, replyCascadeProcess, hport, cascadeArg_cascadeField, channelArg_channelField,
    checkPrepared_of_prepared hr, ok_bind, done, State.latch_act]

end Sys2Proof.Machine

open Sys2Proof Sys2Proof.Machine

/-- Settles O29. -/
theorem orderAndActiveCountOfSlope : Obligations.OrderAndActiveCountOfSlope := by
  unfold Obligations.OrderAndActiveCountOfSlope
  exact ⟨rfl, rfl, fun T kd fc fs sc => (cutBank_length T kd fc fs _).trans (orderOfSlope_div_two sc.val)⟩

/-- Settles O40: the published image is the installation of the operand sets of the active stages. -/
theorem cascadeConfigureCompletes : Obligations.CascadeConfigureCompletes := by
  unfold Obligations.CascadeConfigureCompletes
  intro s c sc k0 k1 k2 k3 hp hfin
  refine ⟨cascadeInstall s.pub c ([k0, k1, k2, k3].take (activeCount sc.val)) sc.val, ?state, fun i => ?own,
    fun k hk => cascadeInstall_other _ _ _ hk⟩
  case state =>
    rw [exec_of_ok (replyOf_cascadeConfigure _ c sc hp (bankArg_of_finite hfin)), statusWord_ok]
    rfl
  case own =>
    rw [cascadeInstall_own]
    by_cases hi : i ≤ sc
    · rw [if_pos (lt_activeCount.mpr hi), if_pos hi, bank_getD _ _ _ _ hi]
    · rw [if_neg (mt lt_activeCount.mp hi), if_neg hi]

/-- Settles O41: a cascade's four slots are different, so the run is four steps on the histories before it
(`runSlots_four`). -/
theorem cascadeProcessCompletes : Obligations.CascadeProcessCompletes := by
  unfold Obligations.CascadeProcessCompletes
  intro s c ch x hp hr k0 k1 k2 k3 hks h r0 r1 r2 r3 h'
  have hslots : [k0, k1, k2, k3] = cascadeSlots c := by rw [hks]; cases c <;> rfl
  have hrun : runSlots s.pub [k0, k1, k2, k3] h x = (r3.1, h') := runSlots_four (hslots ▸ cascadeSlots_nodup c) _ _ _
  refine ⟨hrun, ?_⟩
  rw [exec_of_ok (replyOf_cascadeProcess _ c ch x hp hr), statusWord_ok, cascadeRun, ← hslots, hrun]
  rfl

end

section
/-! The chain of one channel: its nine slots in order, what `ChainConfigure` leaves in them, and the two commands, where
their checks pass, as the reply each gives (R99 to R103). -/

namespace Sys2Proof.Machine

/-! Nine slots in a row -/

/-- A chain's run is one run through the nine slots in order (R99). -/
theorem chainRun_eq_runSlots (img : Image) (hs : ChanHist) (x : Word) :
    chainRun img hs x = runSlots img [0, 1, 2, 3, 4, 5, 6, 7, 8] hs x := by
  change _ = runSlots img (cascadeSlots .lc ++ [peakSlot] ++ cascadeSlots .hc) hs x
  rw [runSlots_append, runSlots_append]
  rfl

/-- Each of the nine steps starts from the history its slot had before the run (R99). -/
theorem runSlots_nine (img : Image) (hs : ChanHist) (x : Word) :
    let r0 := stageOut img[0] hs[0] x
    let r1 := stageOut img[1] hs[1] r0.1
    let r2 := stageOut img[2] hs[2] r1.1
    let r3 := stageOut img[3] hs[3] r2.1
    let r4 := stageOut img[4] hs[4] r3.1
    let r5 := stageOut img[5] hs[5] r4.1
    let r6 := stageOut img[6] hs[6] r5.1
    let r7 := stageOut img[7] hs[7] r6.1
    let r8 := stageOut img[8] hs[8] r7.1
    runSlots img [0, 1, 2, 3, 4, 5, 6, 7, 8] hs x =
      (r8.1, #v[r0.2, r1.2, r2.2, r3.2, r4.2, r5.2, r6.2, r7.2, r8.2]) := by
  intro r0 r1 r2 r3 r4 r5 r6 r7 r8
  have hrun : runSlots img [0, 1, 2, 3, 4, 5, 6, 7, 8] hs x =
      (r8.1, ((((((((hs.set 0 r0.2).set 1 r1.2).set 2 r2.2).set 3 r3.2).set 4 r4.2).set 5 r5.2).set 6 r6.2).set 7
        r7.2).set 8 r8.2) := by
    simp [runSlots, Vector.getElem_set_ne, r0, r1, r2, r3, r4, r5, r6, r7, r8]
  rw [hrun]
  refine Prod.ext rfl (Vector.ext fun i hi => ?_)
  interval_cases i <;> simp

/-! What `ChainConfigure` leaves in the slots of a cascade -/

theorem set_peakSlot_cascadeSlot (img : Image) (e : Entry) (c : Cascade) (i : Fin 4) :
    (img.set peakSlot e)[cascadeSlot c i] = img[cascadeSlot c i] := by
  have hne : peakSlot.val ≠ (cascadeSlot c i).val := by revert i; cases c <;> decide
  exact Vector.getElem_set_ne _ _ hne

/-- A bank as long as its slope's active stages, installed: each active stage holds its own set and runs, the others keep
their sets and are bypassed (R93, R94). -/
theorem cascadeInstall_stage (img : Image) (c : Cascade) {bank : List Coef} {sc : Nat}
    (hb : bank.length = activeCount sc) (i : Fin 4) :
    if i.val ≤ sc then
      bank[i.val]? = some (cascadeInstall img c bank sc)[cascadeSlot c i].coef ∧
        (cascadeInstall img c bank sc)[cascadeSlot c i].byp = false
    else (cascadeInstall img c bank sc)[cascadeSlot c i] = { coef := img[cascadeSlot c i].coef, byp := true } := by
  rw [cascadeInstall_own]
  split
  next hi =>
    have hactive : i.val < activeCount sc := Nat.lt_succ_of_le hi
    simp [hactive, hb]
  next hi => exact if_neg (mt Nat.le_of_lt_succ hi)

/-- Installing a cascade's bank does not read the peak slot (R27, R94). -/
theorem cascadeInstall_set_peakSlot (img : Image) (e : Entry) (c : Cascade) (bank : List Coef) (sc : Nat) (i : Fin 4) :
    (cascadeInstall (img.set peakSlot e) c bank sc)[cascadeSlot c i] = (cascadeInstall img c bank sc)[cascadeSlot c i] := by
  rw [cascadeInstall_own, cascadeInstall_own, set_peakSlot_cascadeSlot]

section Install

variable (img : Image) (pk : Coef) (lc hc : List Coef) (scl sch : Nat) (i : Fin 4)

/-- The low cut's slots after `ChainConfigure` are those of its own bank's installation (R100). -/
theorem chainInstall_lc :
    (chainInstall img pk lc hc scl sch)[cascadeSlot .lc i] = (cascadeInstall img .lc lc scl)[cascadeSlot .lc i] := by
  rw [chainInstall, cascadeInstall_other _ _ _ (by revert i; decide), cascadeInstall_set_peakSlot]

/-- The high cut's slots after `ChainConfigure` are those of its own bank's installation (R100). -/
theorem chainInstall_hc :
    (chainInstall img pk lc hc scl sch)[cascadeSlot .hc i] = (cascadeInstall img .hc hc sch)[cascadeSlot .hc i] := by
  rw [chainInstall, cascadeInstall_comm, cascadeInstall_other _ _ _ (by revert i; decide), cascadeInstall_set_peakSlot]

end Install

/-- A delivered bank has a set for each active stage of its slope (R71, R93). -/
theorem cutCoeffs_length {T : Transc} {kd : Kind} {fc fs : Word} {sc : Nat} {bank : List Coef}
    (h : cutCoeffs T kd fc fs (orderOfSlope sc) = .ok bank) : bank.length = activeCount sc := by
  rw [(cutCoeffs_ok.mp h).1, cutBank_length, orderOfSlope_div_two]

theorem not_isErr_of_ok {α : Type} {r : Except Status α} {a : α} (h : r = .ok a) : ¬isErr r = true := by
  rw [h]; exact Bool.false_ne_true

/-! The two commands -/

variable {s : State}

theorem replyOf_chainProcess (T : Transc) (ch : Channel) (x : Word) (hp : s.port = .audio) (hr : s.prepared = true) :
    replyOf T s (.chainProcess (channelField ch) x) =
      .ok ⟨s.latch.setHist ch (chainRun s.pub (s.histOf ch) x).2, .ok, [(chainRun s.pub (s.histOf ch) x).1]⟩ := by
  have hport : checkPort .chainProcess s = .ok () := checkPort_of_allows (by rw [hp]; rfl)
  simp only [replyOf, replyChainProcess, hport, channelArg_channelField, checkPrepared_of_prepared hr, ok_bind, done,
    State.latch_act]

theorem replyOf_chainReset (T : Transc) {cm : Nibble} {m : Bool × Bool} (hp : s.port = .audio)
    (hm : maskArg cm = .ok m) : replyOf T s (.chainReset cm) = .ok ⟨s.clearChannels m, .ok, []⟩ := by
  have hport : checkPort .chainReset s = .ok () := checkPort_of_allows (by rw [hp]; rfl)
  simp only [replyOf, replyChainReset, hport, hm, ok_bind, done]

/-- `CHAIN_RESET` with a legal mask clears the mask's channels (R103). -/
theorem exec_chainReset {cm : Nibble} {m : Bool × Bool} (hp : s.port = .audio) (hm : maskArg cm = .ok m) :
    exec (.chainReset cm) s = .next ((s.clearChannels m).respond [0x00004100#32]) := by
  rw [exec_of_ok (replyOf_chainReset _ hp hm), statusWord_ok]
  rfl

end Sys2Proof.Machine

open Sys2Proof Sys2Proof.Machine

/-- Settles O27: the image is `chainInstall`'s, which leaves in each cascade what its own bank's installation leaves, and
a delivered bank is as long as its slope's active stages. -/
theorem chainConfigureInstallsWholeImage : Obligations.ChainConfigureInstallsWholeImage := by
  unfold Obligations.ChainConfigureInstallsWholeImage
  intro T img ps fs
  refine ⟨fun out hout => ?image, fun herr => ?fails, fun ⟨pk, hpk⟩ ⟨lc, hlc⟩ ⟨hc, hhc⟩ =>
    ⟨_, chainConfigure_ok.mpr ⟨pk, lc, hc, hpk, hlc, hhc, rfl⟩⟩⟩
  case image =>
    obtain ⟨pk, lc, hc, hpk, hlc, hhc, rfl⟩ := chainConfigure_ok.mp hout
    refine ⟨pk, lc, hc, hpk, hlc, hhc, chainInstall_peak .., fun i => ?_⟩
    rw [chainInstall_lc, chainInstall_hc]
    exact ⟨cascadeInstall_stage img .lc (cutCoeffs_length hlc) i, cascadeInstall_stage img .hc (cutCoeffs_length hhc) i⟩
  case fails =>
    cases hout : chainConfigure T img ps fs with
    | error c => rw [chainConfigure_error hout]
    | ok out =>
      obtain ⟨pk, lc, hc, hpk, hlc, hhc, -⟩ := chainConfigure_ok.mp hout
      rcases herr with h | h | h
      · exact absurd h (not_isErr_of_ok hpk)
      · exact absurd h (not_isErr_of_ok hlc)
      · exact absurd h (not_isErr_of_ok hhc)

/-- Settles O42. -/
theorem chainProcessCompletes : Obligations.ChainProcessCompletes := by
  unfold Obligations.ChainProcessCompletes
  intro s ch x hp hr
  rw [exec_of_ok (replyOf_chainProcess _ ch x hp hr), statusWord_ok]
  rfl

/-- Settles O43: the three legal masks are left, right and both. -/
theorem chainResetCompletes : Obligations.ChainResetCompletes := by
  unfold Obligations.ChainResetCompletes
  exact fun s hp => ⟨exec_chainReset (m := (true, false)) hp rfl, exec_chainReset (m := (false, true)) hp rfl,
    exec_chainReset (m := (true, true)) hp rfl⟩

/-- Settles O44. -/
theorem chainRunIsNineStagesInOrder : Obligations.ChainRunIsNineStagesInOrder := by
  unfold Obligations.ChainRunIsNineStagesInOrder
  exact fun img hs x => ⟨chainRun_eq_runSlots img hs x, (chainRun_eq_runSlots img hs x).trans (runSlots_nine img hs x)⟩

end

section
/-! A block of frames as two channels run apart: the left samples and the right samples each pass through their own chain,
and the block's words are the two outputs interleaved (R99, R105). -/

namespace Sys2Proof.Machine

/-- A channel's samples through its chain in order: the outputs and the last histories. -/
def channelRun (img : Image) : ChanHist → List Word → List Word × ChanHist
  | hs, [] => ([], hs)
  | hs, x :: xs =>
    let y := chainRun img hs x
    let rest := channelRun img y.2 xs
    (y.1 :: rest.1, rest.2)

@[simp] theorem channelRun_length (img : Image) (hs : ChanHist) (xs : List Word) :
    (channelRun img hs xs).1.length = xs.length := by
  induction xs generalizing hs with
  | nil => rfl
  | cons x xs ih => simp [channelRun, ih]

/-- A block runs each channel's samples through that channel's chain alone (R99, R105). -/
theorem runFrames_zip (img : Image) {L R : List Word} (h : L.length = R.length) (hl hr : ChanHist) :
    runFrames img (L.zip R) hl hr =
      (frameWords ((channelRun img hl L).1.zip (channelRun img hr R).1), (channelRun img hl L).2,
        (channelRun img hr R).2) := by
  induction L generalizing R hl hr with
  | nil =>
    obtain rfl := List.length_eq_zero_iff.mp h.symm
    rfl
  | cons l L ih =>
    cases R with
    | nil => cases h
    | cons r R => simp [runFrames, channelRun, frameWords, ih (Nat.succ.inj h)]

/-- The even words of a block's frames are the left ones, the odd words the right ones (R105). -/
theorem frameWords_zip_getElem? {L R : List Word} (h : L.length = R.length) (k : Nat) :
    (frameWords (L.zip R))[2 * k]? = L[k]? ∧ (frameWords (L.zip R))[2 * k + 1]? = R[k]? := by
  induction L generalizing R k with
  | nil =>
    obtain rfl := List.length_eq_zero_iff.mp h.symm
    exact ⟨rfl, rfl⟩
  | cons l L ih =>
    cases R with
    | nil => cases h
    | cons r R =>
      cases k with
      | zero => exact ⟨rfl, rfl⟩
      | succ k => exact ih (Nat.succ.inj h) k

/-- A block's even words are the left channel's outputs, its odd words the right channel's (R99, R105). -/
theorem runFrames_getElem? (img : Image) {L R : List Word} (h : L.length = R.length) (hl hr : ChanHist) (k : Nat) :
    (runFrames img (L.zip R) hl hr).1[2 * k]? = (channelRun img hl L).1[k]? ∧
      (runFrames img (L.zip R) hl hr).1[2 * k + 1]? = (channelRun img hr R).1[k]? := by
  rw [runFrames_zip img h]
  exact frameWords_zip_getElem? (by simpa using h) k

end Sys2Proof.Machine

open Sys2Proof Sys2Proof.Machine

/-- Settles O48: each channel's words and histories are those of its own samples run apart (`runFrames_zip`). -/
theorem channelsShareNoHistory : Obligations.ChannelsShareNoHistory := by
  unfold Obligations.ChannelsShareNoHistory
  intro img L R L' R' hl hr hl' hr' hLR hL' hR'
  have hLR' : L.length = R'.length := hLR.trans hR'.symm
  have hL'R : L'.length = R.length := hL'.trans hLR
  refine ⟨?histL, ?histR, fun k => ⟨?left, ?right⟩⟩
  case histL => rw [runFrames_zip img hLR, runFrames_zip img hLR']
  case histR => rw [runFrames_zip img hLR, runFrames_zip img hL'R]
  case left => rw [(runFrames_getElem? img hLR hl hr k).1, (runFrames_getElem? img hLR' hl hr' k).1]
  case right => rw [(runFrames_getElem? img hLR hl hr k).2, (runFrames_getElem? img hL'R hl' hr k).2]

end

section
/-! The processor's three commands, each, where its checks pass, as the reply it gives (R104 to R108). -/

namespace Sys2Proof.Machine

variable {s : State}

theorem replyOf_prepare (T : Transc) {fs mb : Word} (hp : s.port = .audio) (h1 : 1 ≤ mb.toNat)
    (h2 : mb.toNat ≤ nMax) (hf : finitePositive fs = true) :
    replyOf T s (.prepare fs mb) = .ok (prepareImage T fs (s.prepareFor fs mb)) := by
  have hport : checkPort .prepare s = .ok () := checkPort_of_allows (by rw [hp]; rfl)
  have hsize : blockSizeArg mb = .ok mb := blockSizeArg_ok.mpr ⟨rfl, h1, h2⟩
  have hrate : rateArg fs = .ok fs := rateArg_ok.mpr ⟨rfl, hf⟩
  simp only [replyOf, replyPrepare, hport, hsize, hrate, ok_bind]

theorem replyOf_processBlock (T : Transc) {frames : List (Word × Word)} (hp : s.port = .audio)
    (hr : s.prepared = true) (hn : frames.length ≤ s.maxBlk.toNat) :
    replyOf T s (.processBlock frames) =
      .ok ⟨s.latch.withHist (runFrames s.pub frames s.histL s.histR).2.1 (runFrames s.pub frames s.histL s.histR).2.2,
        .ok, (runFrames s.pub frames s.histL s.histR).1⟩ := by
  have hport : checkPort .processBlock s = .ok () := checkPort_of_allows (by rw [hp]; rfl)
  have hblock : checkBlock frames.length s = .ok () := checkBlock_ok.mpr hn
  simp only [replyOf, replyProcessBlock, hport, checkPrepared_of_prepared hr, hblock, ok_bind, done, State.latch_act]
  rfl

/-- `PROCESS_BLOCK` latches once and runs every frame (R105). -/
theorem exec_processBlock {frames : List (Word × Word)} (hp : s.port = .audio) (hr : s.prepared = true)
    (hn : frames.length ≤ s.maxBlk.toNat) :
    exec (.processBlock frames) s =
      .next ((s.latch.withHist (runFrames s.pub frames s.histL s.histR).2.1
        (runFrames s.pub frames s.histL s.histR).2.2).respond
          (0x00005100#32 :: (runFrames s.pub frames s.histL s.histR).1)) := by
  rw [exec_of_ok (replyOf_processBlock _ hp hr hn), statusWord_ok]
  rfl

/-- With legal slopes `UPDATE_PARAMS` is the installation of its set (R107). -/
theorem replyOf_updateParams (T : Transc) {ps : Params} (hp : s.port = .ctrl) (hl : ps.lcSlope.toNat ≤ 3)
    (hh : ps.hcSlope.toNat ≤ 3) : replyOf T s (.updateParams ps) = installParams T ps s := by
  have hport : checkPort .updateParams s = .ok () := checkPort_of_allows (by rw [hp]; rfl)
  simp only [replyOf, replyUpdateParams, hport, slopeWord_ok.mpr ⟨rfl, hl⟩, slopeWord_ok.mpr ⟨rfl, hh⟩, ok_bind]

theorem installParams_unprepared (T : Transc) (ps : Params) (hr : s.prepared = false) :
    installParams T ps s =
      if unpreparedLegal ps then .ok ⟨{ s with param := ps }, .ok, []⟩ else .error .domain := by
  simp only [installParams, hr, Bool.false_eq_true, if_false, done]

theorem installParams_prepared (T : Transc) (ps : Params) (hr : s.prepared = true) :
    installParams T ps s =
      chainConfigure T s.pub ps s.fs >>= fun img =>
        .ok ⟨({ s with param := ps } : State).publish img, .ok, []⟩ := by
  simp only [installParams, hr, if_true, done]

end Sys2Proof.Machine

open Sys2Proof Sys2Proof.Machine

/-- Settles O45: the reply is the one of `prepareImage` in the state with the rate and limit set and all history
cleared. -/
theorem prepareCompletes : Obligations.PrepareCompletes := by
  unfold Obligations.PrepareCompletes
  intro s fs mb hp h1 h2 hf
  rw [exec_eq_settle, replyOf_prepare _ hp h1 h2 hf, prepareImage, State.prepareFor_pub, State.prepareFor_param]
  cases chainConfigure Config.transc s.pub s.param fs with
  | ok img => simp only [settle, State.finish_ok, Instr.op, statusWord_ok]; rfl
  | error c => rfl

/-- Settles O50: with legal slopes the reply is the installation's, which asks `PREPARED` first. -/
theorem updateParamsCompletes : Obligations.UpdateParamsCompletes := by
  unfold Obligations.UpdateParamsCompletes
  intro s ps hp hl hh
  have hreply := replyOf_updateParams Config.transc hp hl hh
  refine ⟨fun hr hlegal => ?stored, fun hr hlegal => ?rejected, fun hr => ?prepared⟩
  case stored =>
    rw [installParams_unprepared _ _ hr, if_pos hlegal] at hreply
    rw [exec_of_ok hreply, statusWord_ok]
    rfl
  case rejected =>
    rw [installParams_unprepared _ _ hr, if_neg (by simp [hlegal])] at hreply
    exact exec_of_error hreply
  case prepared =>
    rw [installParams_prepared _ _ hr] at hreply
    cases hc : chainConfigure Config.transc s.pub ps s.fs with
    | ok img =>
      rw [hc, ok_bind] at hreply
      rw [exec_of_ok hreply, statusWord_ok]
      rfl
    | error c =>
      rw [hc, chainConfigure_error hc, error_bind] at hreply
      exact exec_of_error hreply

/-- Settles O47. -/
theorem processBlockCompletes : Obligations.ProcessBlockCompletes := by
  unfold Obligations.ProcessBlockCompletes
  exact fun s frames hp hr hn => exec_processBlock hp hr hn

end

section
/-! A sequence of `CHAIN_PROCESS` commands, which latches one image and runs each channel's samples in that channel's
order, and the block whose samples it has (R102, R106). -/

namespace Sys2Proof.Machine

/-! Samples by channel -/

@[simp] theorem samplesOf_nil (ch : Channel) : samplesOf ch [] = [] := rfl

@[simp] theorem samplesOf_cons (ch c : Channel) (x : Word) (cs : List (Channel × Word)) :
    samplesOf ch ((c, x) :: cs) = if c = ch then x :: samplesOf ch cs else samplesOf ch cs := by
  by_cases h : c = ch <;> simp [samplesOf, h]

/-- The channels in order and the samples of each channel are the whole sequence. -/
theorem eq_of_samplesOf {cs ds : List (Channel × Word)} (hch : cs.map (·.1) = ds.map (·.1))
    (h : ∀ ch, samplesOf ch cs = samplesOf ch ds) : cs = ds := by
  induction cs generalizing ds with
  | nil => exact (List.map_eq_nil_iff.mp hch.symm).symm
  | cons c cs ih =>
    obtain ⟨c, x⟩ := c
    cases ds with
    | nil => cases hch
    | cons d ds =>
      obtain ⟨d, y⟩ := d
      obtain ⟨rfl, htail⟩ : c = d ∧ cs.map (·.1) = ds.map (·.1) := List.cons.inj hch
      have hhead := h c
      simp only [samplesOf_cons, if_true, List.cons.injEq] at hhead
      rw [hhead.1, ih htail fun ch => ?_]
      by_cases hc : c = ch
      · rw [← hc, hhead.2]
      · simpa [hc] using h ch

theorem samplesOf_frameSamples (frames : List (Word × Word)) :
    samplesOf .left (frameSamples frames) = frames.map (·.1) ∧
      samplesOf .right (frameSamples frames) = frames.map (·.2) := by
  induction frames with
  | nil => exact ⟨rfl, rfl⟩
  | cons f fs ih => simp [frameSamples, ih]

theorem frameSamples_channels (frames : List (Word × Word)) :
    (frameSamples frames).map (·.1) = (List.replicate frames.length [Channel.left, .right]).flatten := by
  induction frames with
  | nil => rfl
  | cons f fs ih => simp [frameSamples, ih, List.replicate_succ]

theorem frameSamples_words (frames : List (Word × Word)) : (frameSamples frames).map (·.2) = frameWords frames := by
  induction frames with
  | nil => rfl
  | cons f fs ih => simp [frameSamples, frameWords, ih]

/-- The outputs of a block's samples, given channel by channel, are the frames of those outputs. -/
theorem eq_frameSamples {frames out : List (Word × Word)} {res : List (Channel × Word)}
    (hlen : out.length = frames.length) (hch : res.map (·.1) = (frameSamples frames).map (·.1))
    (hl : samplesOf .left res = out.map (·.1)) (hr : samplesOf .right res = out.map (·.2)) :
    res = frameSamples out := by
  obtain ⟨hl', hr'⟩ := samplesOf_frameSamples out
  refine eq_of_samplesOf (hch.trans ?_) fun ch => ?_
  · rw [frameSamples_channels, frameSamples_channels, hlen]
  · cases ch with
    | left => rw [hl, hl']
    | right => rw [hr, hr']

/-! The commands -/

variable {s : State}

@[simp] theorem State.respond_nil (s : State) : s.respond [] = s := by
  simp only [State.respond, List.append_nil]
  cases s.port <;> rfl

@[simp] theorem State.respond_histOf (s : State) (ws : List Word) (c : Channel) :
    (s.respond ws).histOf c = s.histOf c := by
  cases c <;> simp

theorem State.respond_withHist (s : State) (ws : List Word) (hl hr : ChanHist) :
    (s.respond ws).withHist hl hr = (s.withHist hl hr).respond ws := by
  simp only [State.respond, ← State.setIO_withHist, State.io_withHist, State.withHist_port]

theorem State.respond_latch (s : State) (ws : List Word) : (s.respond ws).latch = s.latch.respond ws := by
  simp only [State.respond, State.latch_port, State.latch_io]
  cases s.port <;> rfl

theorem State.setHist_latch (s : State) (ch : Channel) (hs : ChanHist) :
    (s.setHist ch hs).latch = s.latch.setHist ch hs := by cases ch <;> rfl

theorem State.setHist_withHist (s : State) (ch : Channel) (hs hl hr : ChanHist) :
    (s.setHist ch hs).withHist hl hr = s.withHist hl hr := by cases ch <;> rfl

/-- `CHAIN_PROCESS` as the latch of the state with its new history and its response (R102). -/
theorem afterExec_chainProcess (ch : Channel) (x : Word) (hp : s.port = .audio) (hr : s.prepared = true) :
    afterExec (.chainProcess (channelField ch) x) s =
      ((s.setHist ch (chainRun s.pub (s.histOf ch) x).2).respond
        [0x00004000#32, (chainRun s.pub (s.histOf ch) x).1]).latch := by
  rw [State.respond_latch, State.setHist_latch, afterExec, exec_of_ok (replyOf_chainProcess _ ch x hp hr),
    statusWord_ok]
  rfl

/-- `CHAIN_PROCESS` latches, so it may as well find the image latched (R102). -/
theorem afterExec_chainProcess_latch (ch : Channel) (x : Word) (hp : s.port = .audio) (hr : s.prepared = true) :
    afterExec (.chainProcess (channelField ch) x) s.latch = afterExec (.chainProcess (channelField ch) x) s := by
  rw [afterExec_chainProcess ch x (s := s.latch) hp hr, afterExec_chainProcess ch x hp hr, State.latch_pub,
    State.latch_histOf, ← State.setHist_latch, ← State.respond_latch]
  rfl

/-- From a latched state a sequence runs each channel's samples through that channel's chain in their order, answers the
commands one after the other, and latches nothing more (R99, R102). -/
theorem chainCommands_latched (cs : List (Channel × Word)) (hp : s.port = .audio) (hr : s.prepared = true) :
    ∃ res : List (Channel × Word),
      res.map (·.1) = cs.map (·.1) ∧
      (∀ ch, samplesOf ch res = (channelRun s.pub (s.histOf ch) (samplesOf ch cs)).1) ∧
      chainCommands cs s.latch =
        (s.latch.withHist (channelRun s.pub (s.histOf .left) (samplesOf .left cs)).2
          (channelRun s.pub (s.histOf .right) (samplesOf .right cs)).2).respond
            (res.flatMap fun r => [0x00004000#32, r.2]) := by
  induction cs generalizing s with
  | nil => exact ⟨[], rfl, fun _ => rfl, (State.respond_nil _).symm⟩
  | cons c cs ih =>
    obtain ⟨ch, x⟩ := c
    obtain ⟨res, hch, hout, hstate⟩ := ih (s := (s.setHist ch (chainRun s.pub (s.histOf ch) x).2).respond
      [0x00004000#32, (chainRun s.pub (s.histOf ch) x).1]) (by simpa using hp) (by simpa using hr)
    simp only [State.respond_pub, State.setHist_pub, State.respond_histOf] at hout hstate
    refine ⟨(ch, (chainRun s.pub (s.histOf ch) x).1) :: res, by simp [hch], fun c => ?out, ?state⟩
    case out =>
      rw [samplesOf_cons, samplesOf_cons, hout]
      by_cases h : ch = c
      · subst h; simp [channelRun]
      · simp [h, Ne.symm h]
    case state =>
      rw [chainCommands, afterExec_chainProcess_latch _ _ hp hr, afterExec_chainProcess _ _ hp hr, hstate,
        State.respond_latch, State.setHist_latch, State.respond_withHist, State.setHist_withHist, State.respond_respond]
      cases ch <;> simp [channelRun]

/-- A sequence of at least one command latches once and runs each channel's samples through that channel's chain in
their order (R99, R102, R106). -/
theorem chainCommands_run {cs : List (Channel × Word)} (hcs : cs ≠ []) (hp : s.port = .audio)
    (hr : s.prepared = true) :
    ∃ res : List (Channel × Word),
      res.map (·.1) = cs.map (·.1) ∧
      (∀ ch, samplesOf ch res = (channelRun s.pub (s.histOf ch) (samplesOf ch cs)).1) ∧
      chainCommands cs s =
        (s.latch.withHist (channelRun s.pub (s.histOf .left) (samplesOf .left cs)).2
          (channelRun s.pub (s.histOf .right) (samplesOf .right cs)).2).respond
            (res.flatMap fun r => [0x00004000#32, r.2]) := by
  have hlatch : chainCommands cs s.latch = chainCommands cs s := by
    cases cs with
    | nil => exact absurd rfl hcs
    | cons c cs => rw [chainCommands, chainCommands, afterExec_chainProcess_latch _ _ hp hr]
  exact hlatch ▸ chainCommands_latched cs hp hr

/-- The frames a block answers, and the histories it leaves, channel by channel (R99, R105). -/
theorem runFrames_channels (img : Image) (frames : List (Word × Word)) (hl hr : ChanHist) :
    ∃ out : List (Word × Word),
      out.length = frames.length ∧
      out.map (·.1) = (channelRun img hl (frames.map (·.1))).1 ∧
      out.map (·.2) = (channelRun img hr (frames.map (·.2))).1 ∧
      runFrames img frames hl hr =
        (frameWords out, (channelRun img hl (frames.map (·.1))).2, (channelRun img hr (frames.map (·.2))).2) := by
  have hrun := runFrames_zip img (L := frames.map (·.1)) (R := frames.map (·.2)) (by simp) hl hr
  rw [List.zip_map', List.map_id'] at hrun
  exact ⟨_, by simp, List.map_fst_zip (by simp), List.map_snd_zip (by simp), hrun⟩

end Sys2Proof.Machine

open Sys2Proof Sys2Proof.Machine

/-- Settles O49: in any such interleaving each channel's outputs and histories are those of its own samples run apart
(`chainCommands_run`), as in the block (`runFrames_channels`); in the block's own order the outputs are its frames
(`eq_frameSamples`). -/
theorem blockEqualsChainCommands : Obligations.BlockEqualsChainCommands := by
  unfold Obligations.BlockEqualsChainCommands
  intro s frames hp hr hn hne
  obtain ⟨out, hlen, houtL, houtR, hrun⟩ := runFrames_channels s.pub frames s.histL s.histR
  have hany : ∀ cs : List (Channel × Word),
      samplesOf .left cs = frames.map (·.1) → samplesOf .right cs = frames.map (·.2) →
      ∃ res : List (Channel × Word),
        res.map (·.1) = cs.map (·.1) ∧
        samplesOf .left res = out.map (·.1) ∧ samplesOf .right res = out.map (·.2) ∧
        chainCommands cs s =
          (s.latch.withHist (channelRun s.pub s.histL (frames.map (·.1))).2
            (channelRun s.pub s.histR (frames.map (·.2))).2).respond
              (res.flatMap fun r => [0x00004000#32, r.2]) := by
    intro cs hcl hcr
    have hcs : cs ≠ [] := by
      rintro rfl
      exact hne (List.map_eq_nil_iff.mp hcl.symm)
    obtain ⟨res, hch, hout, hstate⟩ := chainCommands_run hcs hp hr
    rw [hcl, hcr] at hstate
    exact ⟨res, hch, by rw [hout, hcl, houtL]; rfl, by rw [hout, hcr, houtR]; rfl, hstate⟩
  refine ⟨_, _, out, ?block, ?ownOrder, hany⟩
  case block => rw [exec_processBlock hp hr hn, hrun]; rfl
  case ownOrder =>
    obtain ⟨hfl, hfr⟩ := samplesOf_frameSamples frames
    obtain ⟨res, hch, hl, hr', hstate⟩ := hany _ hfl hfr
    rw [hstate, eq_frameSamples hlen hch hl hr', ← frameSamples_words, List.flatMap_map]
    rfl

end

section
/-! The system commands that take no operand: `NOP` and `CLR_ERR` (R109, R111). Neither checks anything, so each ends
with `OK` from every state. -/

namespace Sys2Proof.Machine

variable (s : State)

/-- `NOP` answers its status word in the state it started in (R109). -/
theorem exec_nop : exec .nop s = .next (s.respond [0x00000000#32]) := by
  have hreply : replyOf Config.transc s .nop = .ok ⟨s, .ok, []⟩ := rfl
  rw [exec_of_ok hreply, statusWord_ok]
  rfl

/-- `CLR_ERR` answers its status word with the sticky register of the port it came on cleared (R111). -/
theorem exec_clrErr {p : Port} (hp : s.port = p) :
    exec .clrErr s = .next ((s.setErr p 0).respond [0x00000200#32]) := by
  have hreply : replyOf Config.transc s .clrErr = .ok ⟨s.setErr p 0, .ok, []⟩ := by rw [← hp]; rfl
  rw [exec_of_ok hreply, statusWord_ok]
  rfl

end Sys2Proof.Machine

open Sys2Proof Sys2Proof.Machine

/-- Settles O21. -/
theorem nopOnlyResponds : Obligations.NopOnlyResponds := by
  unfold Obligations.NopOnlyResponds
  exact exec_nop

/-- Settles O22: the register cleared is that of the issuing port, `ERR_CTRL` on CTRL and `ERR_AUDIO` on AUDIO. -/
theorem clrErrClearsOwnRegister : Obligations.ClrErrClearsOwnRegister := by
  unfold Obligations.ClrErrClearsOwnRegister
  refine fun s => ⟨fun hp => ?ctrl, fun hp => ?audio⟩
  case ctrl => exact exec_clrErr s hp
  case audio => exact exec_clrErr s hp

end

section
/-! The first failing check (R119): each check of a command reports its own code, checks in a row report the first
failing one, and so every reply reports the first of the command's list. -/

namespace Sys2Proof.Machine

variable {α β : Type}

/-- The code a result fails with, if it fails. -/
def errorOf : Except Status α → Option Status
  | .ok _ => none
  | .error c => some c

/-- A result fails with the code of the first failing check of a list, and does not fail where every check passes
(R119). -/
def Reports (checks : List (Bool × Status)) (r : Except Status α) : Prop :=
  errorOf r = (checks.find? (·.1)).map (·.2)

/-! Checks in a row -/

theorem reports_ok (a : α) : Reports [] (.ok a : Except Status α) := rfl

theorem reports_ite {p : Prop} [Decidable p] {b : Bool} (h : b = true ↔ ¬p) (a : α) (c : Status) :
    Reports [(b, c)] (if p then .ok a else .error c) := by
  by_cases hp : p
  · obtain rfl : b = false := by simpa [hp] using h
    simp [Reports, errorOf, hp]
  · obtain rfl : b = true := h.mpr hp
    simp [Reports, errorOf, hp]

/-- A result that fails with one code only, its failing being the check (R68, R77, R100). -/
theorem reports_isErr {r : Except Status α} {c : Status} (h : ∀ {d}, r = .error d → d = c) :
    Reports [(isErr r, c)] r := by
  cases r with
  | ok a => rfl
  | error d => obtain rfl := h rfl; rfl

/-- A check that passes is not reported. -/
theorem Reports.passed {checks : List (Bool × Status)} {r : Except Status α} (h : Reports checks r) (c : Status) :
    Reports ((false, c) :: checks) r := h

/-- The checks of a result, then those of what follows where it passes. -/
theorem Reports.bind {first rest : List (Bool × Status)} {r : Except Status α} {f : α → Except Status β}
    (hr : Reports first r) (hf : ∀ a, r = .ok a → Reports rest (f a)) : Reports (first ++ rest) (r >>= f) := by
  unfold Reports at *
  rw [List.find?_append]
  cases r with
  | ok a =>
    have hpass : first.find? (·.1) = none := Option.map_eq_none_iff.mp hr.symm
    rw [hpass, Option.none_or]
    exact hf a rfl
  | error d =>
    obtain ⟨check, hfail, rfl⟩ := Option.map_eq_some_iff.mp hr.symm
    rw [hfail, Option.some_or]
    rfl

/-! Each check with its code -/

theorem reports_checkPort (op : Op) (s : State) : Reports [(!op.allows s.port, .wrongPort)] (checkPort op s) :=
  reports_ite (by simp) _ _

theorem reports_checkPrepared (s : State) : Reports [(!s.prepared, .notPrepared)] (checkPrepared s) :=
  reports_ite (by simp) _ _

theorem reports_checkBlock (n : Nat) (s : State) :
    Reports [(decide (s.maxBlk.toNat < n), .blockTooLarge)] (checkBlock n s) :=
  reports_ite (by simp) _ _

theorem reports_slotArg (sl : Nibble) : Reports [(decide (8 < sl.toNat), .badSlot)] (slotArg sl) := by
  unfold Reports; revert sl; decide

theorem reports_cascadeArg (c : Nibble) : Reports [(decide (1 < c.toNat), .badSlot)] (cascadeArg c) := by
  unfold Reports; revert c; decide

theorem reports_channelArg (ch : Nibble) : Reports [(decide (1 < ch.toNat), .badOperand)] (channelArg ch) := by
  unfold Reports; revert ch; decide

theorem reports_maskArg (cm : Nibble) :
    Reports [(decide (cm.toNat = 0 ∨ 3 < cm.toNat), .badOperand)] (maskArg cm) := by
  unfold Reports; revert cm; decide

theorem reports_bypassArg (b : Nibble) : Reports [(decide (1 < b.toNat), .badOperand)] (bypassArg b) := by
  unfold Reports; revert b; decide

theorem reports_kindArg (kd : Nibble) : Reports [(decide (1 < kd.toNat), .badOperand)] (kindArg kd) := by
  unfold Reports; revert kd; decide

theorem reports_slopeArg (sc : Nibble) : Reports [(decide (3 < sc.toNat), .badOperand)] (slopeArg sc) :=
  reports_ite (by simp) _ _

theorem reports_slopeWord (w : Word) : Reports [(decide (3 < w.toNat), .badOperand)] (slopeWord w) :=
  reports_ite (by simp) _ _

theorem reports_orderArg (w : Word) : Reports [(!orderLegal w.toNat, .badOperand)] (orderArg w) :=
  reports_ite (by simp) _ _

theorem reports_blockSizeArg (mb : Word) :
    Reports [(decide (mb.toNat = 0 ∨ 65535 < mb.toNat), .badOperand)] (blockSizeArg mb) :=
  reports_ite (by rw [decide_eq_true_eq, nMax]; omega) _ _

theorem reports_coefArg (c : Coef) : Reports [(!coefFinite c, .domain)] (coefArg c) :=
  reports_ite (by simp) _ _

theorem reports_rateArg (fs : Word) : Reports [(!finitePositive fs, .domain)] (rateArg fs) :=
  reports_ite (by simp) _ _

theorem reports_bankArg (k0 k1 k2 k3 : Coef) (n : Nat) :
    Reports [(!([k0, k1, k2, k3].take (n + 1)).all coefFinite, .domain)] (bankArg k0 k1 k2 k3 n) :=
  reports_ite (by rw [Bool.not_eq_true', Bool.not_eq_true]; rfl) _ _

/-- Reading a register: the two failures of R37, of which an index has at most one. -/
theorem reports_regRead (n : Half) (s : State) :
    Reports [(histFromCtrl n s, .wrongPort), ((regOfIndex n.toNat).isNone, .badRegister)] (s.regRead s.port n) := by
  unfold histFromCtrl State.regRead
  cases regOfIndex n.toNat with
  | none => rfl
  | some r => cases h : r.readableFrom s.port <;> simp [Reports, errorOf, h]

/-- What `UPDATE_PARAMS` checks after its slopes (R107, R108). -/
theorem reports_installParams (T : Transc) (ps : Params) (s : State) :
    Reports [(if s.prepared then isErr (chainConfigure T s.pub ps s.fs) else !unpreparedLegal ps, .domain)]
      (installParams T ps s) := by
  cases hr : s.prepared with
  | false =>
    rw [installParams_unprepared T ps hr]
    exact reports_ite (by simp) _ _
  | true =>
    rw [installParams_prepared T ps hr]
    exact (reports_isErr chainConfigure_error).bind fun _ _ => reports_ok _

/-! Each command -/

/-- A command's reply fails with the code of the first failing check of R119. -/
theorem errorOf_replyOf (i : Instr) (s : State) : errorOf (replyOf Config.transc s i) = firstError i s := by
  change Reports (errorChecks i s) (replyOf Config.transc s i)
  cases i with
  | nop => exact (reports_ok _).passed _
  | rdReg n => exact ((reports_regRead n s).bind fun _ _ => reports_ok _).passed _
  | clrErr => exact (reports_ok _).passed _
  | calcPeak f q g fs =>
    exact ((reports_isErr peakCoeffs_error).bind fun _ _ => reports_ok _).passed _
  | calcCut kd fc fs order =>
    refine ((reports_kindArg kd).bind fun k hk => (reports_orderArg order).bind fun od ho => ?_).passed _
    obtain ⟨rfl, -⟩ := orderArg_ok.mp ho
    have hkind : (if kd = 0 then Kind.hp else .lp) = k := by
      rw [kindArg_ok.mp hk]; cases k <;> rfl
    rw [hkind]
    exact (reports_isErr cutCoeffs_error).bind fun _ _ => reports_ok _
  | stageSetCoeffs sl c =>
    exact (reports_checkPort _ s).bind fun _ _ => (reports_slotArg sl).bind fun _ _ =>
      (reports_coefArg c).bind fun _ _ => reports_ok _
  | stageSetBypass sl b =>
    exact (reports_checkPort _ s).bind fun _ _ => (reports_slotArg sl).bind fun _ _ =>
      (reports_bypassArg b).bind fun _ _ => reports_ok _
  | stageProcess sl ch x =>
    exact (reports_checkPort _ s).bind fun _ _ => (reports_slotArg sl).bind fun _ _ =>
      (reports_channelArg ch).bind fun _ _ => (reports_checkPrepared s).bind fun _ _ => reports_ok _
  | stageReset sl cm =>
    exact (reports_checkPort _ s).bind fun _ _ => (reports_slotArg sl).bind fun _ _ =>
      (reports_maskArg cm).bind fun _ _ => reports_ok _
  | cascadeConfigure c sc k0 k1 k2 k3 =>
    refine (reports_checkPort _ s).bind fun _ _ => (reports_cascadeArg c).bind fun _ _ =>
      (reports_slopeArg sc).bind fun n hn => ?_
    obtain ⟨rfl, -⟩ := slopeArg_ok.mp hn
    exact (reports_bankArg k0 k1 k2 k3 sc.toNat).bind fun _ _ => reports_ok _
  | cascadeProcess c ch x =>
    exact (reports_checkPort _ s).bind fun _ _ => (reports_cascadeArg c).bind fun _ _ =>
      (reports_channelArg ch).bind fun _ _ => (reports_checkPrepared s).bind fun _ _ => reports_ok _
  | chainProcess ch x =>
    exact (reports_checkPort _ s).bind fun _ _ => (reports_channelArg ch).bind fun _ _ =>
      (reports_checkPrepared s).bind fun _ _ => reports_ok _
  | chainReset cm =>
    exact (reports_checkPort _ s).bind fun _ _ => (reports_maskArg cm).bind fun _ _ => reports_ok _
  | prepare fs mb =>
    exact (reports_checkPort _ s).bind fun _ _ => (reports_blockSizeArg mb).bind fun _ _ =>
      (reports_rateArg fs).bind fun _ _ => reports_ok _
  | processBlock frames =>
    exact (reports_checkPort _ s).bind fun _ _ => (reports_checkPrepared s).bind fun _ _ =>
      (reports_checkBlock frames.length s).bind fun _ _ => reports_ok _
  | updateParams ps =>
    exact (reports_checkPort _ s).bind fun _ _ => (reports_slopeWord ps.lcSlope).bind fun _ _ =>
      (reports_slopeWord ps.hcSlope).bind fun _ _ => reports_installParams _ ps s

end Sys2Proof.Machine

open Sys2Proof Sys2Proof.Machine

/-- Settles O12: the reply fails with the first failing check's code (`errorOf_replyOf`), and a command that completes
does so with an effect, whose status and ports are known. -/
theorem firstFailingCheckIsReported : Obligations.FirstFailingCheckIsReported := by
  unfold Obligations.FirstFailingCheckIsReported
  refine ⟨rfl, fun i s => ?_⟩
  rw [← errorOf_replyOf]
  rcases exec_cases i s with ⟨a, hr, he, hx⟩ | ⟨c, hr, hx⟩ <;> rw [hr]
  · exact ⟨a.state, a.status, a.words, hx, he.status.imp_right fun ⟨hk, hi, _⟩ => ⟨hk, hi⟩, he.port, he.io⟩
  · exact hx

end

section
/-! The sticky registers (R120): what an ending leaves in the register of its own port, and that no command reaches the
other port's register or buffers (R125). -/

namespace Sys2Proof.Machine

variable {s t : State} {i : Instr}

/-- The first failure on a port is recorded as its status word (R120). -/
theorem State.finish_err_recorded (opc : Byte) {c : Status} (ws : List Word) (hc : c ≠ .ok)
    (he : (s.err s.port).toNat % 2 ^ 8 = 0) : (s.finish opc c ws).err s.port = statusWord opc c := by
  rw [State.finish_err, if_pos ⟨rfl, hc, errCode_eq_zero.mpr he⟩]

/-- An `OK` is not recorded, and neither is a failure after the first (R120). -/
theorem State.finish_err_kept {opc : Byte} {c : Status} {ws : List Word}
    (h : c = .ok ∨ (s.err s.port).toNat % 2 ^ 8 ≠ 0) : (s.finish opc c ws).err s.port = s.err s.port := by
  rw [State.finish_err]
  exact if_neg fun ⟨_, hc, he⟩ => h.elim hc (· (errCode_eq_zero.mp he))

/-- A command on a port whose register holds a failure leaves the register, unless it is `CLR_ERR` (R111, R120). -/
theorem exec_err_kept (h : exec i s = .next t) (hi : i ≠ .clrErr) (he : (s.err s.port).toNat % 2 ^ 8 ≠ 0) :
    t.err s.port = s.err s.port := by
  rcases exec_cases i s with ⟨a, -, ha, hx⟩ | ⟨c, -, hx⟩ <;> rw [hx] at h <;> cases h
  · have herr : a.state.err s.port = s.err s.port := by rw [ha.err, if_neg fun hc => hi hc.1]
    rw [← herr, ← ha.port] at he ⊢
    exact State.finish_err_kept (.inr he)
  · exact State.finish_err_kept (.inr he)

/-- No command writes the other port's sticky register (R120). -/
theorem exec_err_other (h : exec i s = .next t) {q : Port} (hq : q ≠ s.port) : t.err q = s.err q :=
  by_contra fun hne => hq (exec_err_ne h hne).1

/-- No command touches the other port's buffers (R34). -/
theorem exec_io_other (h : exec i s = .next t) {q : Port} (hq : q ≠ s.port) : t.io q = s.io q := by
  obtain ⟨-, -, w, ws, hio⟩ := exec_ending h
  rw [hio, if_neg hq]

end Sys2Proof.Machine

open Sys2Proof Sys2Proof.Machine

/-- Settles O15: an ending records the first failure only, and a command is an ending after an effect that leaves the
registers alone. -/
theorem stickyRegisterKeepsFirstFailure : Obligations.StickyRegisterKeepsFirstFailure := by
  unfold Obligations.StickyRegisterKeepsFirstFailure
  refine ⟨fun s opc c ws => ⟨fun hc he => ?first, State.finish_err_kept⟩,
    fun i s t h => ⟨?other, exec_err_kept h⟩⟩
  case first => rw [State.finish_err_recorded opc ws hc he, statusWord_toNat]
  case other => exact fun q hq => exec_err_other h hq

end

section
/-! What each port's commands leave alone (R125): a command the port may not issue only answers, and the others have no
effect on what the other side owns (R16). -/

namespace Sys2Proof.Machine

variable {s t : State} {i : Instr}

/-- Only a command its port may issue completes (R119, R125). -/
theorem allows_of_replyOf_ok {T : Transc} {a : Reply} (h : replyOf T s i = .ok a) : i.op.allows s.port = true := by
  by_contra hn
  rw [replyOf_wrongPort (Bool.eq_false_of_not_eq_true hn)] at h
  cases h

theorem Op.allows_ctrl_iff {op : Op} :
    op.allows .ctrl = true ↔
      op ∉ [Op.stageProcess, .cascadeProcess, .chainProcess, .processBlock, .stageReset, .chainReset, .prepare] := by
  cases op <;> decide

theorem Op.allows_audio_iff {op : Op} :
    op.allows .audio = true ↔ op ∉ [Op.stageSetCoeffs, .stageSetBypass, .cascadeConfigure, .updateParams] := by
  cases op <;> decide

/-- A command on CTRL leaves history, the active image and the rate registers alone (R29, R125). -/
theorem exec_ctrl_frame (h : exec i s = .next t) (hp : s.port = .ctrl) :
    t.histL = s.histL ∧ t.histR = s.histR ∧ t.act = s.act ∧ t.genAct = s.genAct ∧ t.fs = s.fs ∧
      t.maxBlk = s.maxBlk ∧ t.prepared = s.prepared := by
  rcases exec_cases i s with ⟨a, hr, he, hx⟩ | ⟨c, -, hx⟩ <;> rw [hx] at h <;> cases h
  · have hop := Op.allows_ctrl_iff.mp (hp ▸ allows_of_replyOf_ok hr)
    obtain ⟨hl, hrt⟩ := he.hist hop
    obtain ⟨hact, hgen⟩ := he.active fun hm => hop (List.mem_append_left [Op.stageReset, .chainReset, .prepare] hm)
    obtain ⟨hfs, hmb, hprep⟩ := he.rate fun hi => hop (by simp [hi])
    simp [hl, hrt, hact, hgen, hfs, hmb, hprep]
  · simp

/-- A command on AUDIO leaves `PARAM` alone, and the published image too unless it is `PREPARE` (R125). -/
theorem exec_audio_frame (h : exec i s = .next t) (hp : s.port = .audio) :
    t.param = s.param ∧ (i.op ≠ .prepare → t.pub = s.pub ∧ t.genPub = s.genPub) := by
  rcases exec_cases i s with ⟨a, hr, he, hx⟩ | ⟨c, -, hx⟩ <;> rw [hx] at h <;> cases h
  · have hop := Op.allows_audio_iff.mp (hp ▸ allows_of_replyOf_ok hr)
    have hparam := he.param fun hi => hop (by simp [hi])
    refine ⟨by simpa using hparam, fun hi => ?_⟩
    obtain ⟨hpub, hgen⟩ := he.published fun hm =>
      (List.mem_append (t := [Op.prepare]).mp hm).elim hop fun hm => hi (List.mem_singleton.mp hm)
    simp [hpub, hgen]
  · simp

end Sys2Proof.Machine

open Sys2Proof Sys2Proof.Machine

/-- Settles O17: the other side's elements by the two frames, its port's register and buffers because no command reaches
those of a port it is not on. -/
theorem portsOwnTheirState : Obligations.PortsOwnTheirState := by
  unfold Obligations.PortsOwnTheirState
  refine fun i s t h => ⟨fun hp => ?ctrl, fun hp => ?audio⟩
  case ctrl =>
    have hq : Port.audio ≠ s.port := by simp [hp]
    obtain ⟨hl, hrt, hact, hgen, hfs, hmb, hprep⟩ := exec_ctrl_frame h hp
    exact ⟨hl, hrt, hact, hgen, hfs, hmb, hprep, exec_err_other h hq, exec_io_other h hq⟩
  case audio =>
    have hq : Port.ctrl ≠ s.port := by simp [hp]
    obtain ⟨hparam, hpub⟩ := exec_audio_frame h hp
    exact ⟨hparam, exec_err_other h hq, exec_io_other h hq, hpub⟩

end

section
/-! A rate that a frequency of `PARAM` is too high for (R74, R117, R140). -/

namespace Sys2Proof.Machine

/-- `ChainConfigure` needs all three frequencies inside (0, fs/2) (R68, R74, R100). -/
theorem freqLegal_of_chainConfigure {T : Transc} {img out : Image} {ps : Params} {fs : Word}
    (h : chainConfigure T img ps fs = .ok out) :
    freqLegal ps.peakFreq fs = true ∧ freqLegal ps.lcFreq fs = true ∧ freqLegal ps.hcFreq fs = true := by
  obtain ⟨pk, lc, hc, hpk, hlc, hhc, -⟩ := chainConfigure_ok.mp h
  obtain ⟨-, hpeak, -⟩ := peakCoeffs_ok.mp hpk
  obtain ⟨-, hlow, -⟩ := cutCoeffs_ok.mp hlc
  obtain ⟨-, hhigh, -⟩ := cutCoeffs_ok.mp hhc
  simp only [peakDomain, cutDomain, Bool.and_eq_true] at hpeak hlow hhigh
  obtain ⟨⟨⟨-, hpeak⟩, -⟩, -⟩ := hpeak
  exact ⟨hpeak, hlow.2, hhigh.2⟩

end Sys2Proof.Machine

open Sys2Proof Sys2Proof.Machine

/-- Settles O46: there is no image for such a frequency (`freqLegal_of_chainConfigure`), and without one `PREPARE` keeps
the image it has (`prepareCompletes`). -/
theorem prepareKeepsImageOutsideDomain : Obligations.PrepareKeepsImageOutsideDomain := by
  unfold Obligations.PrepareKeepsImageOutsideDomain
  intro s fs mb hp h1 h2 hf hfreq
  rw [prepareCompletes s fs mb hp h1 h2 hf]
  cases hc : chainConfigure Config.transc s.pub s.param fs with
  | ok img =>
    obtain ⟨hpeak, hlow, hhigh⟩ := freqLegal_of_chainConfigure hc
    simp [hpeak, hlow, hhigh] at hfreq
  | error c => rfl

end

section
/-! There is no trap (R121). -/

open Sys2Proof Sys2Proof.Machine

/-- Settles O55: every step has a next state (`step_eq_next`), since every execution has one (R121). -/
theorem stepNeverStops : Obligations.StepNeverStops := by
  unfold Obligations.StepNeverStops
  exact fun s => ⟨afterStep s, step_eq_next s⟩

end

section
/-! The reset step (R131): the reset image and history slot by slot, and every element after the step. -/

namespace Sys2Proof.Machine

/-- Every slot of the reset image is the identity set, bypassed except in slots 0, 4 and 5 (R28). -/
theorem resetImage_getElem (k : Slot) :
    resetImage[k] = { coef := ⟨0x3F800000#32, 0, 0, 0, 0⟩, byp := !(k == 0 || k == 4 || k == 5) } := by
  revert k; decide

theorem zeroChan_getElem (k : Slot) : zeroChan[k] = ⟨0, 0, 0, 0⟩ := by
  revert k; decide

/-- Reset takes precedence over both ports (R131). -/
theorem step_reset {s : State} (hr : s.resetIn = true) : step s = .next s.afterReset := by
  simp [step, State.fetch, hr]

/-- The reset step leaves nothing of the state before it but the count of free choices (R131; log entry 2). -/
theorem State.afterReset_eq (s : State) :
    s.afterReset = { State.reset with turn := { waiting := none, draws := s.turn.draws } } := by
  simp [State.afterReset]

end Sys2Proof.Machine

open Sys2Proof Sys2Proof.Machine

/-- Settles O56: the state after the step is `State.reset` but for the turn (`State.afterReset_eq`), whose images and
histories are read slot by slot. -/
theorem resetSetsEveryElement : Obligations.ResetSetsEveryElement := by
  unfold Obligations.ResetSetsEveryElement
  intro s hr
  refine ⟨_, step_reset hr, ?_⟩
  rw [State.afterReset_eq]
  refine ⟨rfl, rfl, rfl, rfl, rfl, rfl, rfl, rfl, fun k => ?slot, rfl, rfl, rfl, rfl, rfl⟩
  case slot => exact ⟨resetImage_getElem k, rfl, zeroChan_getElem k, zeroChan_getElem k⟩

end
